-- ==== Sys2Proof/Word.lean ====
section
/-! DEFINITION. The wire byte and the two sequences made of it (spec 00_scope.md R4 `BYTE_W`, R6). -/

namespace Sys2Proof

/-- A wire byte and every field of a frame: 8 bits, unsigned (R4 `BYTE_W`, R6 "Numbers"). -/
abbrev Byte := BitVec 8

/-- A display string, a literal or a register's name: its characters, one byte each, in order.
DESIGN CHOICE (log 9): the spec says "a string" and gives no character code; the model takes ASCII. -/
abbrev Text := List Byte

end Sys2Proof
end

