-- ==== Sys2Proof/Config.lean ====
section
/-! DEFINITION. What is fixed for the machine: the closed enumerations and constant tables of the spec
(10_state.md R20 to R23), the parameters of 00_scope.md R4, and the free values, which have no body. -/

namespace Sys2Proof

/-- The ten register types, "a closed enumeration of type names" (44_register_codec.md R160, R195). -/
inductive RegType
  | baudRate | rdt | angle | voltage | temperature | angularVelocity
  | load | onOff | statusReturnLevel | alarm
deriving DecidableEq, Repr

/-- The size of a register: 1 or 2 bytes and nothing else (R4 `REG_SIZES`, R21). -/
inductive RegSize
  | one | two
deriving DecidableEq, Repr

/-- Access rights of a register: carried, never enforced (60_exceptions.md R229). -/
inductive Access
  | ro | rw
deriving DecidableEq, Repr

/-- A register descriptor (10_state.md R21). The bounds are raw bounds, each absent or present by itself. -/
structure RegDesc where
  name   : Text
  offset : Byte
  size   : RegSize
  access : Access
  min    : Option Int
  max    : Option Int
  type   : RegType
deriving DecidableEq, Repr

/-- A device type: "name, model number, ordered register set" (10_state.md R22). -/
structure DeviceType where
  name  : Text
  model : Nat
  regs  : List RegDesc
deriving DecidableEq, Repr

/-- A Load value: the pair (sign, magnitude), never folded into one number (44_register_codec.md R176). -/
structure LoadValue where
  sign      : Bool
  magnitude : Nat
deriving DecidableEq, Repr

/-- The OnOff values (R178). -/
inductive OnOff
  | off | on
deriving DecidableEq, Repr

/-- The StatusReturnLevel values (R180). -/
inductive ReturnLevel
  | none | read | all
deriving DecidableEq, Repr

/-- A set of the eight error-bit names, each in or out (10_state.md R17; the Alarm value of R182). -/
structure ErrBits where
  inputVoltage : Bool
  angleLimit   : Bool
  overheating  : Bool
  range        : Bool
  checksum     : Bool
  overload     : Bool
  instruction  : Bool
  reserved     : Bool
deriving DecidableEq, Repr

/-- The names of the error table `errtab`: the eight bits of the wire bitmask, `NONE`, and the three synthetic codes
(R17, R23). -/
inductive ErrName
  | inputVoltage | angleLimit | overheating | range | checksum | overload | instruction | reserved
  | none | notDone | timeout | tooMuchData
deriving DecidableEq, Repr

/-- The environment's answer to one pull (00_scope.md R5, 10_state.md R26 port `RX`). -/
inductive RxEvent
  | byte (b : Byte)
  | noByte
deriving DecidableEq, Repr, Inhabited

/-- The seven wire commands (30_encoding.md R63). -/
inductive Cmd
  | ping | read | write | deferredWrite | action | reset | syncWrite
deriving DecidableEq, Repr

/-- The code of a command, the `cmd` byte of its frame (R63). -/
def Cmd.code : Cmd → Byte
  | .ping          => 0x01#8
  | .read          => 0x02#8
  | .write         => 0x03#8
  | .deferredWrite => 0x04#8
  | .action        => 0x05#8
  | .reset         => 0x06#8
  | .syncWrite     => 0x83#8

namespace Config

/-- Capacity of the decoder's parameter buffer (R4 `PARAM_CAP`). -/
def paramCap : Nat := 253

/-- Capacity of the transmit buffer (R4 `TX_CAP`). -/
def txCap : Nat := 259

/-- A preamble byte (R4 `PREAMBLE`); also the value of a padding byte (30_encoding.md R65). -/
def preamble : Byte := 0xFF#8

/-- The broadcast id (R4 `ID_BROADCAST`). -/
def idBroadcast : Byte := 0xFE#8

/-- The reserved id, "never a legal id" (R4 `ID_INVALID`). -/
def idInvalid : Byte := 0xFF#8

/-- The largest normal id (R4 `ID_MAX_NORMAL`). -/
def idMaxNormal : Byte := 253#8

/-- The command-name table `cmdtab` (10_state.md R23): the seven rows of 30_encoding.md R63. -/
def cmdTable : List (Cmd × Byte) :=
  [(.ping, 0x01#8), (.read, 0x02#8), (.write, 0x03#8), (.deferredWrite, 0x04#8),
   (.action, 0x05#8), (.reset, 0x06#8), (.syncWrite, 0x83#8)]

/-- The type table `typetab` (10_state.md R23) with the tags of 30_encoding.md R76. -/
def typeTable : List (RegType × Byte) :=
  [(.baudRate, 0#8), (.rdt, 1#8), (.angle, 2#8), (.voltage, 3#8), (.temperature, 4#8),
   (.angularVelocity, 5#8), (.load, 6#8), (.onOff, 7#8), (.statusReturnLevel, 8#8), (.alarm, 9#8)]

/-- FREE VALUE (log 2): what the wire environment answers to pull number `n` once the answers listed in the
state are used up: "a free choice of the environment at every pull" (42_transport.md R129). -/
opaque rxAnswer : Nat → RxEvent

/-- OPEN parameter `fmt_T` of the six numeric types (R4, 44_register_codec.md R162). -/
opaque fmt : RegType → Rat → Text

/-- OPEN parameter `fmt_Load` (R184). -/
opaque fmtLoad : LoadValue → Text

/-- OPEN parameter of `show_Alarm`, the order of the names in the text of a set (R183, log 16): a name's rank, the
lower one first. -/
opaque alarmRank : ErrBits → ErrName → Nat

/-- OPEN parameter of `show_Alarm`, the separators and the spelling of the empty set (R183, log 16): the text of a set
before its name number `k`, and, where `k` is the number of names, after the last. -/
opaque alarmGlue : ErrBits → (k : Nat) → Text

/-- OPEN parameter `parse_T` of RDT, Angle, Voltage, Temperature and AngularVelocity (R4, R175);
`none`: the text is malformed. -/
opaque parse : RegType → Text → Option Rat

/-- OPEN parameter `parse_BaudRate`. Its values lie in the type's value domain, "positive rational"
(R160; log 8). -/
opaque parseBaudRate : Text → Option { v : Rat // 0 < v }

/-- OPEN parameter `parse_Load`. Its values lie in the type's value domain, a magnitude of 10 bits
(R160, 30_encoding.md R69; log 8). -/
opaque parseLoad : Text → Option { v : LoadValue // v.magnitude ≤ 1023 }

/-- OPEN parameter of `read_Alarm` (R183, log 16): the set a text is read as. -/
opaque readAlarm : Text → Option ErrBits

/-- FREE VALUE (log 7): the display string of a raw value to which the type gives no value, where
`RangeError` must name one (R190 against R178, R180, R182). -/
opaque unmappedText : RegType → Int → Text

end Config

end Sys2Proof
end

