-- ==== Sys2Proof/Syntax.lean ====
section
/-! DEFINITION. The instructions: one constructor per row of spec/opcode_table.json. The first eight are the
wire frames of 30_encoding.md R70 (format `frame_header40`), the rest the host operations of R77 (`host_op8`). -/

namespace Sys2Proof

/-- The operations of the block (30_encoding.md R70, R74, R77). A frame row carries what the frame carries
beside the fields the block computes (R68): a command frame no `len` and no checksum; a received STATUS frame,
which the block only reads, every byte of its own. -/
inductive Instr
  /-- PING: `FF FF id 02 01` (R63, R66). -/
  | framePing (id : Byte)
  /-- READ: `FF FF id 04 02 offset length` (R66). -/
  | frameRead (id offset length : Byte)
  /-- WRITE: `FF FF id len 03 offset data` (R66). -/
  | frameWrite (id offset : Byte) (data : List Byte)
  /-- DEFERRED_WRITE: `FF FF id len 04 offset data` (R66). -/
  | frameDeferredWrite (id offset : Byte) (data : List Byte)
  /-- ACTION: `FF FF id 02 05` (R66). -/
  | frameAction (id : Byte)
  /-- RESET: `FF FF id 02 06` (R66). -/
  | frameReset (id : Byte)
  /-- SYNC_WRITE: `FF FF FE len 83 start L`, then a block (id, data bytes) for each device (R67). -/
  | frameSyncWrite (start bytesPer : Byte) (blocks : List (Byte × List Byte))
  /-- STATUS, a received frame: `FF FF (FF)* id len err param* checksum` (R64, R65). -/
  | frameStatus (pad : Nat) (id len err : Byte) (params : List Byte) (checksum : Byte)
  /-- `ping(id)` (R141). -/
  | ping (id : Byte)
  /-- `read(id, offset, length)` (R142). -/
  | read (id offset length : Byte)
  /-- `write(id, offset, data, deferred = false)` (R145). -/
  | write (id offset : Byte) (data : List Byte)
  /-- `write(id, offset, data, deferred = true)` (R145). -/
  | writeDeferred (id offset : Byte) (data : List Byte)
  /-- `action(id)` (R148). -/
  | action (id : Byte)
  /-- `reset(id)` (R147). -/
  | reset (id : Byte)
  /-- `read_reg(id, register)` (R143). -/
  | readReg (id : Byte) (reg : RegDesc)
  /-- `write_reg(id, register, raw, deferred = false)` (R146). -/
  | writeReg (id : Byte) (reg : RegDesc) (raw : Int)
  /-- `write_reg(id, register, raw, deferred = true)` (R146). -/
  | writeRegDeferred (id : Byte) (reg : RegDesc) (raw : Int)
  /-- `sync_write(ids, run, values)` (R200). -/
  | syncWrite (ids : List Byte) (run : List RegDesc) (values : List (List Int))
  /-- `send_command(id, command, params)` (R121). -/
  | sendCommand (id command : Byte) (params : List Byte)
  /-- `read_status_packet()` (R123, R124). -/
  | readStatusPacket
  /-- `dec_step(b)` used stand-alone (R100). -/
  | decStep (b : Byte)
  /-- `cks(s)` (R90). -/
  | cks (bytes : List Byte)
  /-- `dec_reset()` used stand-alone (R108). -/
  | decReset
  /-- `check_range(register, raw)` (R190). -/
  | checkRange (reg : RegDesc) (raw : Int)
  | rawToValueBaudRate (raw : Nat)
  | rawToValueRDT (raw : Nat)
  | rawToValueAngle (raw : Nat)
  | rawToValueVoltage (raw : Nat)
  | rawToValueTemperature (raw : Nat)
  | rawToValueAngularVelocity (raw : Nat)
  | rawToValueLoad (raw : Nat)
  | rawToValueOnOff (raw : Nat)
  | rawToValueStatusReturnLevel (raw : Nat)
  | rawToValueAlarm (raw : Nat)
  | valueToRawBaudRate (value : Rat)
  | valueToRawRDT (value : Rat)
  | valueToRawAngle (value : Rat)
  | valueToRawVoltage (value : Rat)
  | valueToRawTemperature (value : Rat)
  | valueToRawAngularVelocity (value : Rat)
  | valueToRawLoad (value : LoadValue)
  | valueToRawOnOff (value : OnOff)
  | valueToRawStatusReturnLevel (value : ReturnLevel)
  | valueToRawAlarm (value : ErrBits)
  | rawToStrBaudRate (raw : Nat)
  | rawToStrRDT (raw : Nat)
  | rawToStrAngle (raw : Nat)
  | rawToStrVoltage (raw : Nat)
  | rawToStrTemperature (raw : Nat)
  | rawToStrAngularVelocity (raw : Nat)
  | rawToStrLoad (raw : Nat)
  | rawToStrOnOff (raw : Nat)
  | rawToStrStatusReturnLevel (raw : Nat)
  | rawToStrAlarm (raw : Nat)
  | strToRawBaudRate (text : Text)
  | strToRawRDT (text : Text)
  | strToRawAngle (text : Text)
  | strToRawVoltage (text : Text)
  | strToRawTemperature (text : Text)
  | strToRawAngularVelocity (text : Text)
  | strToRawLoad (text : Text)
  | strToRawOnOff (text : Text)
  | strToRawStatusReturnLevel (text : Text)
  | strToRawAlarm (text : Text)
deriving DecidableEq, Repr

end Sys2Proof
end

