-- ==== Sys2Proof/Machine/State.lean ====
section
/-! DEFINITION. The state of the block (10_state.md R10 to R20), of its four ports (R26), and its values after
power-on reset (R27); the results it delivers (R18, 60_exceptions.md R210) and the reasons a step has no next state. -/

namespace Sys2Proof.Machine

/-! ## What the block delivers -/

/-- The positions of the framer in a frame (R15): six and no more. -/
inductive DecState
  | idle | firstFF | secondFF | idRcvd | lengthRcvd | cmdRcvd
deriving DecidableEq, Repr

/-- The status a decoder step returns (R16). -/
inductive DecStatus
  | notDone | none | checksum
deriving DecidableEq, Repr

/-- A received frame, read from the decoder registers (R19). -/
structure Frame where
  id     : Byte
  length : Byte
  cmd    : Byte
  params : List Byte
deriving DecidableEq, Repr

/-- The complete set of errors (60_exceptions.md R210). -/
inductive HostError
  | timeout
  | checksumMismatch
  | deviceFault (bits : Byte)
  | tooMuchData
  | rangeError (value low high : Text)
  | malformedLiteral (text : Text)
  | nonContiguousRun (j : Nat)
deriving DecidableEq, Repr

/-- The payload of a successful result (R18), one shape for each kind of operation. -/
inductive Payload
  | unit
  | bool (b : Bool)
  | bytes (bs : List Byte)
  | rawInt (raw : Int)
  | frame (f : Frame)
  | status (st : DecStatus)
  | byte (b : Byte)
  | number (value : Rat)
  | load (value : LoadValue)
  | onOff (value : OnOff)
  | returnLevel (value : ReturnLevel)
  | alarm (value : ErrBits)
  | text (t : Text)
deriving DecidableEq, Repr

/-- The result of an operation: `Ok(payload)` or `Err(e)` (R18). -/
inductive Result
  | ok (p : Payload)
  | err (e : HostError)
deriving DecidableEq, Repr

/-! ## Why a step has no next state -/

/-- This machine has no fault: every error of the spec is the result of an operation, and no error stops the block
(60_exceptions.md R222, R223), so nothing raises one and no step ends here (safe: no behaviour is cut off). -/
inductive Fault
deriving DecidableEq, Repr

/-- The refusals of 60_exceptions.md R220 and 93_implementation_defined.md part 2, each "a hole in the model, not a
behaviour of the hardware", so each is safe; and the two of this model. -/
inductive Refusal
  /-- An operation that uses the wire, or a stand-alone `dec_step` or `dec_reset`, during `T_AWAIT`
  (R120); raised by `accept` and `whenIdle`. Safe. -/
  | busy
  /-- Id 0xFF as a destination (R122, R150), 0xFE or 0xFF in the ids of a sync write (R203); raised by
  `sendThen` and `execSyncWrite`. Safe. -/
  | invalidId
  /-- A selector R77 does not list; raised by `fetch`. Safe. -/
  | unknownOperation
  /-- A raw value wider than its register (R41); raised where bytes are formed. Safe. -/
  | rawDoesNotFit
  /-- A response to `read_reg` whose parameter count is not the register's size (R143); raised by `conclude`. Safe. -/
  | responseLengthMismatch
  /-- A value outside a conversion's domain (R164, R177); raised by `value_to_raw` of BaudRate and Load. Safe. -/
  | valueOutOfDomain
  /-- A raw value outside a lookup table (R178, R180, R182); raised by the conversions of OnOff, StatusReturnLevel
  and Alarm. Safe. -/
  | unmappedRaw
  /-- A sync write with no device or no register (R203). Safe. -/
  | emptySyncWrite
  /-- A sync write whose values do not match its ids and registers in number (R203). Safe. -/
  | shapeMismatch
  /-- Bytes on the host port that open an operation and encode none: a form of the model's own operand encoding
  (log 4); raised by `fetch`. Safe. -/
  | malformedOperands
  /-- An instruction without a meaning, by its mnemonic; raised by `exec` only. Safe. -/
  | notModelled (mnemonic : String)
deriving DecidableEq, Repr

/-! ## The registers -/

/-- Decoder registers `dec.*` (R11). -/
structure DecRegs where
  state  : DecState
  id     : Byte
  length : Byte
  cmd    : Byte
  params : List Byte
  sum    : Byte
deriving DecidableEq, Repr

/-- Transmit registers `tx.*` (R12). -/
structure TxRegs where
  buf : List Byte
  sum : Byte
deriving DecidableEq, Repr

/-- `arb.phase` (R13). -/
inductive Phase
  | idle | await
deriving DecidableEq, Repr

/-- The operations `arb.op` can name: those that use the wire (R13, R120). DESIGN CHOICE (log 20): the name `read_reg`
carries the size of its register, which shapes the result (43_device_ops.md R143); R13 gives `arb.op` a name only, and
no rule says where the size is kept until the result. -/
inductive WireOp
  | sendCommand | readStatusPacket | ping | read | readReg (size : RegSize) | write | writeDeferred
  | writeReg | writeRegDeferred | reset | action | syncWrite
deriving DecidableEq, Repr

/-- Arbiter registers `arb.*` (R13). -/
structure ArbRegs where
  phase : Phase
  op    : WireOp
deriving DecidableEq, Repr

/-- The configuration that is not constant: loaded before use, written by no rule (R20, R22). -/
structure Cfg where
  byteDeadline : Nat
  regtab       : List DeviceType
deriving DecidableEq, Repr

/-- Who moves next: the host, offering an operation on `HC`, or the wire, answering a pull (R5). -/
inductive Agent
  | host | wire
deriving DecidableEq, Repr

/-- The four ports of R26 as plain data. `hc`: the operations still to be offered, as bytes. `turns`: who makes the
next moves; when it is empty the host is the serialised one R29 asks for. `rx`: the answers the wire environment
gives to the next pulls (R25 (b)); after the last one the answers are free. `tx`: the bursts emitted, oldest first.
`hr`: the results delivered, oldest first. `pulls`: the number of pulls made, the index of the free answers. -/
structure Ports where
  hc    : List Byte
  turns : List Agent
  rx    : List RxEvent
  tx    : List (List Byte)
  hr    : List Result
  pulls : Nat
deriving DecidableEq, Repr

/-- The whole state. -/
structure State where
  dec   : DecRegs
  tx    : TxRegs
  arb   : ArbRegs
  cfg   : Cfg
  ports : Ports
deriving DecidableEq, Repr

/-- The outcome of a step of this machine. -/
abbrev Out := Host.Outcome State Fault Refusal

/-- The decoder registers after a decoder reset (41_decoder.md R108) and at power-on (R27). -/
def DecRegs.cleared : DecRegs :=
  { state := .idle, id := 0#8, length := 0#8, cmd := 0#8, params := [], sum := 0#8 }

/-- Power-on reset (R27, D28). DESIGN CHOICE (log 1): `arb.op`, which R27 leaves unspecified, names
`read_status_packet`; nothing is loaded yet (`regtab` empty, the open deadline 0). The ports are quiet. -/
def State.reset : State :=
  { dec   := DecRegs.cleared
    tx    := { buf := [], sum := 0#8 }
    arb   := { phase := .idle, op := .readStatusPacket }
    cfg   := { byteDeadline := 0, regtab := [] }
    ports := { hc := [], turns := [], rx := [], tx := [], hr := [], pulls := 0 } }

end Sys2Proof.Machine
end

