-- ==== Sys2Proof/Machine/Ops.lean ====
section
/-! DEFINITION. The named operations every meaning is made of: delivering a result, ending an operation in an error,
accepting an operation, building and emitting a frame, starting a read, pulling from the wire. -/

namespace Sys2Proof.Machine

/-! ## Results -/

/-- Deliver a result on the host response port `HR` (10_state.md R18). -/
def deliver (r : Result) (s : State) : State :=
  { s with ports := { s.ports with hr := s.ports.hr ++ [r] } }

/-- Deliver a result and end the transaction: `arb.phase <- T_IDLE` (R27 "when a result is delivered"). -/
def settle (r : Result) (s : State) : State :=
  deliver r { s with arb := { s.arb with phase := .idle } }

/-- End an operation in an error: what this hardware has in place of taking an exception. "no state is saved, no mode
changes, no control moves to a handler. An error is the result of the operation, delivered on `HR`"
(60_exceptions.md R222), and afterwards the block is in `T_IDLE` and accepts the next operation as if nothing had
happened: there is no return instruction (R223). -/
def raise (e : HostError) (s : State) : State := settle (.err e) s

/-- Answer with a result: the whole effect of a stateless function (42_transport.md R120). DESIGN CHOICE (log 24): an
error it answers during `T_AWAIT` leaves `arb.phase` there, as R120 has a stateless function "touch no arbiter state";
the table of 60_exceptions.md R222 and R223 have `T_IDLE` after every error. -/
def answer (r : Result) (s : State) : Out := .next (deliver r s)

/-- Answer with a payload where the function gives one, and refuse for the reason named where it does not. -/
def answerOr (why : Refusal) (p : Option Payload) (s : State) : Out :=
  match p with
  | some p => answer (.ok p) s
  | none   => .refused why

/-! ## Acceptance -/

/-- A stand-alone `dec_step` or `dec_reset`: `refuse(busy)` during `T_AWAIT` (R120). -/
def whenIdle (k : State → Out) (s : State) : Out :=
  match s.arb.phase with
  | .await => .refused .busy
  | .idle  => k s

/-- Accept an operation that uses the wire: only in `T_IDLE`; `arb.op` is set to the operation (R120). -/
def accept (op : WireOp) (k : State → Out) (s : State) : Out :=
  whenIdle (fun s => k { s with arb := { s.arb with op := op } }) s

/-! ## Sending -/

/-- Append a byte to the transmit buffer without summing it: a preamble byte or the checksum (40_checksum.md R94). -/
def TxRegs.put (t : TxRegs) (b : Byte) : TxRegs := { t with buf := t.buf ++ [b] }

/-- Append a byte and add it to the running checksum, modulo 256 (R94). -/
def TxRegs.add (t : TxRegs) (b : Byte) : TxRegs := { buf := t.buf ++ [b], sum := t.sum + b }

/-- Build a command frame in the transmit registers (42_transport.md R121). -/
def buildFrame (id command : Byte) (params : List Byte) : TxRegs :=
  let start : TxRegs := { buf := [], sum := 0#8 }
  let pre   := (start.put Config.preamble).put Config.preamble
  let head  := ((pre.add id).add (BitVec.ofNat 8 (params.length + 2))).add command
  let body  := params.foldl TxRegs.add head
  body.put (~~~ body.sum)

/-- `emit(s)`: hand a byte sequence to the transmit port as one burst (R26). -/
def emit (burst : List Byte) (s : State) : State :=
  { s with ports := { s.ports with tx := s.ports.tx ++ [burst] } }

/-- Build the frame and emit it: R121 up to the delivery of its result. -/
def transmit (id command : Byte) (params : List Byte) (s : State) : State :=
  let t := buildFrame id command params
  emit t.buf { s with tx := t }

/-- `send_command`: the checks of R122 in their order, then R121, then `k`. -/
def sendThen (id command : Byte) (params : List Byte) (k : State → Out) (s : State) : Out :=
  if id = Config.idInvalid then .refused .invalidId
  else if Config.paramCap < params.length then .next (raise .tooMuchData s)
  else k (transmit id command params s)

/-- No status frame is awaited: the operation has succeeded (R121 "deliver Ok(())"). -/
def reportDone (s : State) : Out := answer (.ok .unit) s

/-! ## Receiving -/

/-- `dec_reset()` (41_decoder.md R108). -/
def resetDecoder (s : State) : State := { s with dec := DecRegs.cleared }

/-- `read_status_packet()`, start (42_transport.md R123): the receive side is not flushed. -/
def startRead (s : State) : State :=
  { resetDecoder s with arb := { s.arb with phase := .await } }

/-- Await a status frame. -/
def awaitStatus (s : State) : Out := .next (startRead s)

/-- Await a status frame unless the command went to BROADCAST (43_device_ops.md R149). -/
def awaitUnlessBroadcast (id : Byte) (s : State) : Out :=
  if id = Config.idBroadcast then reportDone s else awaitStatus s

/-- `pull()` (R26): the environment's next answer; after the last listed one, a free value (log 2). -/
def pull (s : State) : RxEvent × State :=
  match s.ports.rx with
  | ev :: rest => (ev, { s with ports := { s.ports with rx := rest, pulls := s.ports.pulls + 1 } })
  | []         => (Config.rxAnswer s.ports.pulls, { s with ports := { s.ports with pulls := s.ports.pulls + 1 } })

/-- Bytes arrive on the wire: they wait until they are pulled (10_state.md R25 (b)). -/
def arrive (bs : List Byte) (s : State) : State :=
  { s with ports := { s.ports with rx := s.ports.rx ++ bs.map RxEvent.byte } }

end Sys2Proof.Machine
end

