-- ==== Sys2Proof/Machine/Checksum.lean ====
section
/-! DEFINITION. The checksum function and its operation (40_checksum.md). -/

namespace Sys2Proof.Machine

/-- `sum(s)` modulo 256, which is all of it that matters (40_checksum.md R91). -/
def sumBytes (bs : List Byte) : Byte := bs.foldl (· + ·) 0#8

/-- `cks(s) = (~sum(s)) & 0xFF` (R90). -/
def cks (bs : List Byte) : Byte := ~~~ (sumBytes bs)

/-- `cks`, host selector 0x23 (R90): total, no flags, no exceptions, no state (42_transport.md R120). DESIGN CHOICE
(log 23): it is answered in `T_AWAIT` too, which R120 says of the codec functions. -/
def execCks (bytes : List Byte) (s : State) : Out := answer (.ok (.byte (cks bytes))) s

end Sys2Proof.Machine
end

