-- ==== Sys2Proof/Machine/Flags.lean ====
section
/-! DEFINITION. The ErrorCode space and its table of names (10_state.md R17, R23), and the numeric codes of states and
phases (R13, R15). The block has no flags: a status is an output of a step (R16) and nothing is sticky (R18). -/

namespace Sys2Proof

/-- The code of a name (R17; the numbers of the synthetic three are the spec's decision D4). -/
def ErrName.code : ErrName → BitVec 9
  | .inputVoltage => 0x001#9
  | .angleLimit   => 0x002#9
  | .overheating  => 0x004#9
  | .range        => 0x008#9
  | .checksum     => 0x010#9
  | .overload     => 0x020#9
  | .instruction  => 0x040#9
  | .reserved     => 0x080#9
  | .none         => 0x000#9
  | .notDone      => 0x100#9
  | .timeout      => 0x101#9
  | .tooMuchData  => 0x102#9

/-- A name as R17 spells it, in ASCII (log 9). -/
def ErrName.text : ErrName → Text
  | .inputVoltage => [0x49#8, 0x4E#8, 0x50#8, 0x55#8, 0x54#8, 0x5F#8, 0x56#8, 0x4F#8, 0x4C#8, 0x54#8, 0x41#8, 0x47#8,
      0x45#8]
  | .angleLimit   => [0x41#8, 0x4E#8, 0x47#8, 0x4C#8, 0x45#8, 0x5F#8, 0x4C#8, 0x49#8, 0x4D#8, 0x49#8, 0x54#8]
  | .overheating  => [0x4F#8, 0x56#8, 0x45#8, 0x52#8, 0x48#8, 0x45#8, 0x41#8, 0x54#8, 0x49#8, 0x4E#8, 0x47#8]
  | .range        => [0x52#8, 0x41#8, 0x4E#8, 0x47#8, 0x45#8]
  | .checksum     => [0x43#8, 0x48#8, 0x45#8, 0x43#8, 0x4B#8, 0x53#8, 0x55#8, 0x4D#8]
  | .overload     => [0x4F#8, 0x56#8, 0x45#8, 0x52#8, 0x4C#8, 0x4F#8, 0x41#8, 0x44#8]
  | .instruction  => [0x49#8, 0x4E#8, 0x53#8, 0x54#8, 0x52#8, 0x55#8, 0x43#8, 0x54#8, 0x49#8, 0x4F#8, 0x4E#8]
  | .reserved     => [0x52#8, 0x45#8, 0x53#8, 0x45#8, 0x52#8, 0x56#8, 0x45#8, 0x44#8]
  | .none         => [0x4E#8, 0x4F#8, 0x4E#8, 0x45#8]
  | .notDone      => [0x4E#8, 0x4F#8, 0x54#8, 0x5F#8, 0x44#8, 0x4F#8, 0x4E#8, 0x45#8]
  | .timeout      => [0x54#8, 0x49#8, 0x4D#8, 0x45#8, 0x4F#8, 0x55#8, 0x54#8]
  | .tooMuchData  => [0x54#8, 0x4F#8, 0x4F#8, 0x5F#8, 0x4D#8, 0x55#8, 0x43#8, 0x48#8, 0x5F#8, 0x44#8, 0x41#8, 0x54#8,
      0x41#8]

/-- The mask of a bit name, the low byte of its code (R17). -/
def ErrName.mask (n : ErrName) : Byte := n.code.setWidth 8

/-- The names in a set, in the order of the table. -/
def ErrBits.names (e : ErrBits) : List ErrName :=
  [(e.inputVoltage, .inputVoltage), (e.angleLimit, .angleLimit), (e.overheating, .overheating), (e.range, .range),
   (e.checksum, .checksum), (e.overload, .overload), (e.instruction, .instruction),
   (e.reserved, .reserved)].filterMap fun (present, name) => if present then some name else none

end Sys2Proof

namespace Sys2Proof.Machine

/-- An ErrorCode: 9 bits, the low eight the wire bitmask, the synthetic codes above (R17, D4). -/
abbrev ErrorCode := BitVec 9

/-- The error table `errtab`: the nine rows of R17 and the three synthetic names (R23). -/
def errTable : List (ErrName × ErrorCode) :=
  [.inputVoltage, .angleLimit, .overheating, .range, .checksum, .overload, .instruction, .reserved,
   .none, .notDone, .timeout, .tooMuchData].map fun n => (n, n.code)

/-- The set of names whose mask bit is set in a wire error byte (R17). -/
def errBitsOf (b : Byte) : ErrBits :=
  { inputVoltage := b &&& ErrName.inputVoltage.mask != 0#8
    angleLimit   := b &&& ErrName.angleLimit.mask != 0#8
    overheating  := b &&& ErrName.overheating.mask != 0#8
    range        := b &&& ErrName.range.mask != 0#8
    checksum     := b &&& ErrName.checksum.mask != 0#8
    overload     := b &&& ErrName.overload.mask != 0#8
    instruction  := b &&& ErrName.instruction.mask != 0#8
    reserved     := b &&& ErrName.reserved.mask != 0#8 }

/-- The bitwise or of the masks of a set of names; 0 for the empty set (R17, 44_register_codec.md R183). -/
def errByteOf (e : ErrBits) : Byte := e.names.foldl (fun b n => b ||| n.mask) 0#8

/-- The code of a decoder status (R16, R17). -/
def DecStatus.code : DecStatus → ErrorCode
  | .notDone  => ErrName.notDone.code
  | .none     => ErrName.none.code
  | .checksum => ErrName.checksum.code

/-- The ErrorCode of an error (60_exceptions.md R210): the ValueError members have none. -/
def HostError.code : HostError → Option ErrorCode
  | .timeout            => some ErrName.timeout.code
  | .checksumMismatch   => some ErrName.checksum.code
  | .deviceFault bits   => some (bits.setWidth 9)
  | .tooMuchData        => some ErrName.tooMuchData.code
  | .rangeError _ _ _   => none
  | .malformedLiteral _ => none
  | .nonContiguousRun _ => none

/-- The code of a decoder state (R15, D4). -/
def DecState.code : DecState → BitVec 3
  | .idle       => 0#3
  | .firstFF    => 1#3
  | .secondFF   => 2#3
  | .idRcvd     => 3#3
  | .lengthRcvd => 4#3
  | .cmdRcvd    => 5#3

/-- The code of a phase (R13, D4). -/
def Phase.code : Phase → BitVec 1
  | .idle  => 0#1
  | .await => 1#1

end Sys2Proof.Machine
end

