-- ==== Sys2Proof/Machine/Codec.lean ====
section
/-! DEFINITION. RegisterCodec (44_register_codec.md): the conversions of the ten register types in both directions,
the display functions, and the range check. All are pure; their results are delivered and nothing else changes. -/

namespace Sys2Proof.Machine

/-- `round_half_up(q) = floor(q + 1/2)` (R7, R161). -/
def roundHalfUp (q : Rat) : Int := (q + 1 / 2).floor

/-! ## Raw to value -/

/-- BaudRate: `2000000 / (raw + 1)` bps (R163). -/
def baudRateOf (raw : Nat) : Rat := 2000000 / ((raw : Rat) + 1)

/-- RDT: `raw × 2` usec (R165). -/
def rdtOf (raw : Int) : Rat := (raw : Rat) * 2

/-- Angle: `raw × 300 / 1023` deg (R167). -/
def angleOf (raw : Int) : Rat := (raw : Rat) * 300 / 1023

/-- Voltage: `raw / 10` V (R169). -/
def voltageOf (raw : Int) : Rat := (raw : Rat) / 10

/-- Temperature: `raw` °C (R171). -/
def temperatureOf (raw : Int) : Rat := (raw : Rat)

/-- AngularVelocity: `raw × 114 / 1023` RPM (R173). -/
def angularVelocityOf (raw : Int) : Rat := (raw : Rat) * 114 / 1023

/-- Load: sign bit 0x400, magnitude `raw & 0x3ff`; the other bits are ignored (R176). -/
def loadOf (raw : Nat) : LoadValue := { sign := raw &&& 0x400 != 0, magnitude := raw &&& 0x3FF }

/-- OnOff (R178): none outside the table. -/
def onOffOf (raw : Nat) : Option OnOff :=
  match raw with
  | 0 => some .off
  | 1 => some .on
  | _ => none

/-- StatusReturnLevel (R180): none outside the table. -/
def returnLevelOf (raw : Nat) : Option ReturnLevel :=
  match raw with
  | 0 => some .none
  | 1 => some .read
  | 2 => some .all
  | _ => none

/-- Alarm (R182): the names whose bit is set; none above 255. -/
def alarmOf (raw : Nat) : Option ErrBits :=
  if raw ≤ 255 then some (errBitsOf (BitVec.ofNat 8 raw)) else none

/-! ## Value to raw -/

/-- BaudRate: `round_half_up(2000000 / v − 1)`, for `v > 0` (R164). -/
def baudRateRaw (v : Rat) : Int := roundHalfUp (2000000 / v - 1)

/-- RDT: `round_half_up(v / 2)` (R166). -/
def rdtRaw (v : Rat) : Int := roundHalfUp (v / 2)

/-- Angle: `round_half_up(v × 1023 / 300)` (R168). -/
def angleRaw (v : Rat) : Int := roundHalfUp (v * 1023 / 300)

/-- Voltage: `round_half_up(v × 10)` (R170). -/
def voltageRaw (v : Rat) : Int := roundHalfUp (v * 10)

/-- Temperature: `round_half_up(v)` (R172). -/
def temperatureRaw (v : Rat) : Int := roundHalfUp v

/-- AngularVelocity: `round_half_up(v × 1023 / 114)` (R174). -/
def angularVelocityRaw (v : Rat) : Int := roundHalfUp (v * 1023 / 114)

/-- Load: `(0x400 if sign else 0) | magnitude` (R177). -/
def loadRaw (v : LoadValue) : Nat := (if v.sign then 0x400 else 0) ||| v.magnitude

/-- OnOff (R179). -/
def onOffRaw : OnOff → Nat
  | .off => 0
  | .on  => 1

/-- StatusReturnLevel (R181). -/
def returnLevelRaw : ReturnLevel → Nat
  | .none => 0
  | .read => 1
  | .all  => 2

/-- Alarm: the bitwise or of the masks (R183). -/
def alarmRaw (e : ErrBits) : Nat := (errByteOf e).toNat

/-! ## Strings of the lookup types, "spelled exactly as in the source (lower case)" (R179) -/

/-- `off` and `on` (R178), in ASCII. -/
def onOffText : OnOff → Text
  | .off => [0x6F#8, 0x66#8, 0x66#8]
  | .on  => [0x6F#8, 0x6E#8]

/-- `none`, `read` and `all` (R180), in ASCII. -/
def returnLevelText : ReturnLevel → Text
  | .none => [0x6E#8, 0x6F#8, 0x6E#8, 0x65#8]
  | .read => [0x72#8, 0x65#8, 0x61#8, 0x64#8]
  | .all  => [0x61#8, 0x6C#8, 0x6C#8]

/-- The value an OnOff string spells (R179). -/
def readOnOff (t : Text) : Option OnOff :=
  if t = onOffText .off then some .off else if t = onOffText .on then some .on else none

/-- The value a StatusReturnLevel string spells (R181). -/
def readReturnLevel (t : Text) : Option ReturnLevel :=
  if t = returnLevelText .none then some .none
  else if t = returnLevelText .read then some .read
  else if t = returnLevelText .all then some .all else none

/-! ## The text of a set of alarm names: "the names are those of the table" (R183); all else of it is open (log 16) -/

/-- Names in an order, with the open text before each and after the last. -/
def spellNames (glue : Nat → Text) : Nat → List ErrName → Text
  | k, []      => glue k
  | k, n :: ns => glue k ++ n.text ++ spellNames glue (k + 1) ns

/-- `show_Alarm` (R183): each name of the set as the table spells it, in an open order, with open text around. -/
def showAlarm (e : ErrBits) : Text :=
  spellNames (Config.alarmGlue e) 0
    (e.names.insertionSort fun a b => Config.alarmRank e a ≤ Config.alarmRank e b)

/-- A text in which every name of a set stands as the table spells it. -/
def spells (e : ErrBits) (t : Text) : Bool := e.names.all fun n => decide (n.text <:+: t)

/-- `read_Alarm` (R183): the set a text is read as; a text that lacks a name of that set is malformed. -/
def readAlarm (t : Text) : Option ErrBits := (Config.readAlarm t).filter fun e => spells e t

/-! ## Display and range -/

/-- The display string of a lookup: a free value where the type gives the raw value none (log 7). -/
def textOr (t : RegType) (raw : Int) (text : Option Text) : Text :=
  match text with
  | some text => text
  | none      => Config.unmappedText t raw

/-- The unsigned integer a raw value is (R162); none below zero. -/
def unsigned (raw : Int) : Option Nat := if 0 ≤ raw then some raw.toNat else none

/-- `raw_to_str(T, raw)` as `RangeError` names it (R190), for every integer: the composition of R184, and a free
value where the type gives the raw value none (log 7). -/
def displayText (t : RegType) (raw : Int) : Text :=
  match t with
  | .baudRate          => textOr t raw ((unsigned raw).map fun n => Config.fmt .baudRate (baudRateOf n))
  | .rdt               => Config.fmt .rdt (rdtOf raw)
  | .angle             => Config.fmt .angle (angleOf raw)
  | .voltage           => Config.fmt .voltage (voltageOf raw)
  | .temperature       => Config.fmt .temperature (temperatureOf raw)
  | .angularVelocity   => Config.fmt .angularVelocity (angularVelocityOf raw)
  | .load              => textOr t raw ((unsigned raw).map fun n => Config.fmtLoad (loadOf n))
  | .onOff             => textOr t raw ((unsigned raw).bind fun n => (onOffOf n).map onOffText)
  | .statusReturnLevel => textOr t raw ((unsigned raw).bind fun n => (returnLevelOf n).map returnLevelText)
  | .alarm             => textOr t raw ((unsigned raw).bind fun n => (alarmOf n).map showAlarm)

/-- `check_range(register, raw)` (R190): the error, if the check fails. It acts only when both bounds are present. -/
def rangeError (reg : RegDesc) (raw : Int) : Option HostError :=
  match reg.min, reg.max with
  | some lo, some hi =>
      if raw < lo ∨ hi < raw then
        some (.rangeError (displayText reg.type raw) (displayText reg.type lo) (displayText reg.type hi))
      else none
  | _, _ => none

/-- `check_range`, host selector 0x3F (R190). DESIGN CHOICE (log 23): it is answered in `T_AWAIT` too, which
42_transport.md R120 says of the codec functions. -/
def execCheckRange (reg : RegDesc) (raw : Int) (s : State) : Out :=
  match rangeError reg raw with
  | some e => answer (.err e) s
  | none   => answer (.ok .unit) s

/-! ## `raw_to_value`, host selectors 0x40 to 0x49 -/

/-- R163. -/
def execRawToValueBaudRate (raw : Nat) (s : State) : Out := answer (.ok (.number (baudRateOf raw))) s
/-- R165. -/
def execRawToValueRDT (raw : Nat) (s : State) : Out := answer (.ok (.number (rdtOf raw))) s
/-- R167. -/
def execRawToValueAngle (raw : Nat) (s : State) : Out := answer (.ok (.number (angleOf raw))) s
/-- R169. -/
def execRawToValueVoltage (raw : Nat) (s : State) : Out := answer (.ok (.number (voltageOf raw))) s
/-- R171. -/
def execRawToValueTemperature (raw : Nat) (s : State) : Out := answer (.ok (.number (temperatureOf raw))) s
/-- R173. -/
def execRawToValueAngularVelocity (raw : Nat) (s : State) : Out := answer (.ok (.number (angularVelocityOf raw))) s
/-- R176. -/
def execRawToValueLoad (raw : Nat) (s : State) : Out := answer (.ok (.load (loadOf raw))) s
/-- R178: `refuse(unmapped_raw)` outside the table. -/
def execRawToValueOnOff (raw : Nat) (s : State) : Out := answerOr .unmappedRaw ((onOffOf raw).map .onOff) s
/-- R180: `refuse(unmapped_raw)` outside the table. -/
def execRawToValueStatusReturnLevel (raw : Nat) (s : State) : Out :=
  answerOr .unmappedRaw ((returnLevelOf raw).map .returnLevel) s
/-- R182: `refuse(unmapped_raw)` above 255. -/
def execRawToValueAlarm (raw : Nat) (s : State) : Out := answerOr .unmappedRaw ((alarmOf raw).map .alarm) s

/-! ## `value_to_raw`, host selectors 0x50 to 0x59 -/

/-- R164: `refuse(value_out_of_domain)` for `v <= 0`. -/
def execValueToRawBaudRate (v : Rat) (s : State) : Out :=
  if 0 < v then answer (.ok (.rawInt (baudRateRaw v))) s else .refused .valueOutOfDomain
/-- R166. -/
def execValueToRawRDT (v : Rat) (s : State) : Out := answer (.ok (.rawInt (rdtRaw v))) s
/-- R168. -/
def execValueToRawAngle (v : Rat) (s : State) : Out := answer (.ok (.rawInt (angleRaw v))) s
/-- R170. -/
def execValueToRawVoltage (v : Rat) (s : State) : Out := answer (.ok (.rawInt (voltageRaw v))) s
/-- R172. -/
def execValueToRawTemperature (v : Rat) (s : State) : Out := answer (.ok (.rawInt (temperatureRaw v))) s
/-- R174. -/
def execValueToRawAngularVelocity (v : Rat) (s : State) : Out := answer (.ok (.rawInt (angularVelocityRaw v))) s
/-- R177: `refuse(value_out_of_domain)` for a magnitude above 1023. -/
def execValueToRawLoad (v : LoadValue) (s : State) : Out :=
  if v.magnitude ≤ 1023 then answer (.ok (.rawInt (loadRaw v))) s else .refused .valueOutOfDomain
/-- R179. -/
def execValueToRawOnOff (v : OnOff) (s : State) : Out := answer (.ok (.rawInt (onOffRaw v))) s
/-- R181. -/
def execValueToRawStatusReturnLevel (v : ReturnLevel) (s : State) : Out :=
  answer (.ok (.rawInt (returnLevelRaw v))) s
/-- R183. -/
def execValueToRawAlarm (v : ErrBits) (s : State) : Out := answer (.ok (.rawInt (alarmRaw v))) s

/-! ## `raw_to_str`, host selectors 0x60 to 0x69 (R184) -/

def execRawToStrBaudRate (raw : Nat) (s : State) : Out := answer (.ok (.text (Config.fmt .baudRate (baudRateOf raw)))) s
def execRawToStrRDT (raw : Nat) (s : State) : Out := answer (.ok (.text (Config.fmt .rdt (rdtOf raw)))) s
def execRawToStrAngle (raw : Nat) (s : State) : Out := answer (.ok (.text (Config.fmt .angle (angleOf raw)))) s
def execRawToStrVoltage (raw : Nat) (s : State) : Out := answer (.ok (.text (Config.fmt .voltage (voltageOf raw)))) s
def execRawToStrTemperature (raw : Nat) (s : State) : Out :=
  answer (.ok (.text (Config.fmt .temperature (temperatureOf raw)))) s
def execRawToStrAngularVelocity (raw : Nat) (s : State) : Out :=
  answer (.ok (.text (Config.fmt .angularVelocity (angularVelocityOf raw)))) s
def execRawToStrLoad (raw : Nat) (s : State) : Out := answer (.ok (.text (Config.fmtLoad (loadOf raw)))) s
/-- R178: the table; `refuse(unmapped_raw)` outside it. -/
def execRawToStrOnOff (raw : Nat) (s : State) : Out :=
  answerOr .unmappedRaw ((onOffOf raw).map fun v => .text (onOffText v)) s
/-- R180: the table; `refuse(unmapped_raw)` outside it. -/
def execRawToStrStatusReturnLevel (raw : Nat) (s : State) : Out :=
  answerOr .unmappedRaw ((returnLevelOf raw).map fun v => .text (returnLevelText v)) s
/-- R184 with R182: `refuse(unmapped_raw)` above 255. -/
def execRawToStrAlarm (raw : Nat) (s : State) : Out :=
  answerOr .unmappedRaw ((alarmOf raw).map fun v => .text (showAlarm v)) s

/-! ## `str_to_raw`, host selectors 0x70 to 0x79 (R184) -/

/-- The result of `str_to_raw`: the raw value of what the text spells, or `MalformedLiteral` (R162, R175). -/
def literalResult (text : Text) (raw : Option Int) : Result :=
  match raw with
  | some raw => .ok (.rawInt raw)
  | none     => .err (.malformedLiteral text)

def execStrToRawBaudRate (text : Text) (s : State) : Out :=
  answer (literalResult text ((Config.parseBaudRate text).map fun v => baudRateRaw v.val)) s
def execStrToRawRDT (text : Text) (s : State) : Out :=
  answer (literalResult text ((Config.parse .rdt text).map rdtRaw)) s
def execStrToRawAngle (text : Text) (s : State) : Out :=
  answer (literalResult text ((Config.parse .angle text).map angleRaw)) s
def execStrToRawVoltage (text : Text) (s : State) : Out :=
  answer (literalResult text ((Config.parse .voltage text).map voltageRaw)) s
def execStrToRawTemperature (text : Text) (s : State) : Out :=
  answer (literalResult text ((Config.parse .temperature text).map temperatureRaw)) s
def execStrToRawAngularVelocity (text : Text) (s : State) : Out :=
  answer (literalResult text ((Config.parse .angularVelocity text).map angularVelocityRaw)) s
def execStrToRawLoad (text : Text) (s : State) : Out :=
  answer (literalResult text ((Config.parseLoad text).map fun v => (loadRaw v.val : Int))) s
/-- R179: any other string raises. -/
def execStrToRawOnOff (text : Text) (s : State) : Out :=
  answer (literalResult text ((readOnOff text).map fun v => (onOffRaw v : Int))) s
/-- R181: any other string raises. -/
def execStrToRawStatusReturnLevel (text : Text) (s : State) : Out :=
  answer (literalResult text ((readReturnLevel text).map fun v => (returnLevelRaw v : Int))) s
def execStrToRawAlarm (text : Text) (s : State) : Out :=
  answer (literalResult text ((readAlarm text).map fun v => (alarmRaw v : Int))) s

end Sys2Proof.Machine
end

