-- ==== Sys2Proof/Machine/Decoder.lean ====
section
/-! DEFINITION. PacketDecoder: one definition per state (41_decoder.md R101 to R106), the step, and the two
stand-alone operations (R100, R108). -/

namespace Sys2Proof.Machine

/-- State `IDLE` (R101): id, length and params are cleared, cmd and sum are not (D32). -/
def decIdle (b : Byte) (d : DecRegs) : DecStatus × DecRegs :=
  (.notDone, { d with id := 0#8, length := 0#8, params := [],
                      state := if b = Config.preamble then .firstFF else .idle })

/-- State `FIRST_FF` (R102). -/
def decFirstFF (b : Byte) (d : DecRegs) : DecStatus × DecRegs :=
  (.notDone, { d with state := if b = Config.preamble then .secondFF else .idle })

/-- State `SECOND_FF` (R103): padding is skipped without bound (R110); the id seeds the sum. -/
def decSecondFF (b : Byte) (d : DecRegs) : DecStatus × DecRegs :=
  (.notDone, if b = Config.preamble then { d with state := .secondFF }
             else { d with id := b, sum := b, state := .idRcvd })

/-- State `ID_RCVD` (R104). -/
def decIdRcvd (b : Byte) (d : DecRegs) : DecStatus × DecRegs :=
  (.notDone, { d with length := b, sum := d.sum + b, state := .lengthRcvd })

/-- State `LENGTH_RCVD` (R105). -/
def decLengthRcvd (b : Byte) (d : DecRegs) : DecStatus × DecRegs :=
  (.notDone, { d with cmd := b, sum := d.sum + b, params := [], state := .cmdRcvd })

/-- State `CMD_RCVD` (R106): the test is made before the byte is stored. -/
def decCmdRcvd (b : Byte) (d : DecRegs) : DecStatus × DecRegs :=
  if d.length.toNat ≤ d.params.length + 2 then
    (if b = ~~~ d.sum then .none else .checksum, { d with state := .idle })
  else
    (.notDone, { d with params := d.params ++ [b], sum := d.sum + b })

/-- `dec_step(b)` (R100): exactly one of R101 to R106 applies; it never raises (R107). -/
def decByte (b : Byte) (d : DecRegs) : DecStatus × DecRegs :=
  match d.state with
  | .idle       => decIdle b d
  | .firstFF    => decFirstFF b d
  | .secondFF   => decSecondFF b d
  | .idRcvd     => decIdRcvd b d
  | .lengthRcvd => decLengthRcvd b d
  | .cmdRcvd    => decCmdRcvd b d

/-- The statuses and the registers after each byte of a stream, in order. -/
def decBytes : List Byte → DecRegs → List DecStatus × DecRegs
  | [],      d => ([], d)
  | b :: bs, d => ((decByte b d).1 :: (decBytes bs (decByte b d).2).1, (decBytes bs (decByte b d).2).2)

/-- `dec_step(b)` used stand-alone, host selector 0x22 (R100; 42_transport.md R120). -/
def execDecStep (b : Byte) (s : State) : Out :=
  whenIdle (fun s => answer (.ok (.status (decByte b s.dec).1)) { s with dec := (decByte b s.dec).2 }) s

/-- `dec_reset()` used stand-alone, host selector 0x24 (R108; 42_transport.md R120). DESIGN CHOICE (log 21): its result
is `Ok(())`, a payload no rule gives. -/
def execDecReset (s : State) : Out :=
  whenIdle (fun s => answer (.ok .unit) (resetDecoder s)) s

end Sys2Proof.Machine
end

