-- ==== Sys2Proof/Machine/Operands.lean ====
section
/-! DEFINITION. Operand assembly: byte order (20_memory.md R40, R41), the parameters of each command
(30_encoding.md R66, R67), and the bytes of a received frame (R60, R65). -/

namespace Sys2Proof

/-- The number of bytes of a register (10_state.md R21). -/
def RegSize.bytes : RegSize → Nat
  | .one => 1
  | .two => 2

end Sys2Proof

namespace Sys2Proof.Machine

/-- `le16(lo, hi) = lo + hi * 256` (R7, R40). -/
def le16 (lo hi : Byte) : Nat := lo.toNat + hi.toNat * 256

/-- `lo8(v) = v mod 256` (R7). -/
def lo8 (v : Nat) : Byte := BitVec.ofNat 8 (v % 256)

/-- `hi8(v) = floor(v / 256) mod 256` (R7). -/
def hi8 (v : Nat) : Byte := BitVec.ofNat 8 (v / 256 % 256)

/-- `raw_of(bytes, size)` (R40): none where the bytes are not `size` in number. -/
def rawOf (size : RegSize) (bytes : List Byte) : Option Nat :=
  match size, bytes with
  | .one, [b]      => some b.toNat
  | .two, [lo, hi] => some (le16 lo hi)
  | _,    _        => none

/-- `bytes_of(raw, size)` (R41), low byte first: none where the raw value does not fit. -/
def bytesOf (raw : Int) (size : RegSize) : Option (List Byte) :=
  match size with
  | .one => if 0 ≤ raw ∧ raw ≤ 255 then some [lo8 raw.toNat] else none
  | .two => if 0 ≤ raw ∧ raw ≤ 65535 then some [lo8 raw.toNat, hi8 raw.toNat] else none

/-- Parameters of READ: `[offset, length]` (R66). -/
def readParams (offset length : Byte) : List Byte := [offset, length]

/-- Parameters of WRITE and DEFERRED_WRITE: `[offset] ++ data` (R66). -/
def writeParams (offset : Byte) (data : List Byte) : List Byte := offset :: data

/-- Parameters of SYNC_WRITE: `[start, L]`, then each device's id and bytes (R67). -/
def syncParams (start bytesPer : Byte) (blocks : List (Byte × List Byte)) : List Byte :=
  start :: bytesPer :: blocks.flatMap (fun b => b.1 :: b.2)

/-- The bytes of a received frame, padding included (R60, R65). -/
def statusBytes (pad : Nat) (id len err : Byte) (params : List Byte) (checksum : Byte) : List Byte :=
  [Config.preamble, Config.preamble] ++ List.replicate pad Config.preamble ++ [id, len, err] ++ params ++ [checksum]

end Sys2Proof.Machine
end

