-- ==== Sys2Proof/Machine/Transport.lean ====
section
/-! DEFINITION. BusTransport: sending and receiving (42_transport.md R121 to R125), the shaping of a result by the
operation in progress (43_device_ops.md R140 to R147), and the received frame as one event. -/

namespace Sys2Proof.Machine

/-- The result of an operation from the result of its `read_status_packet`: errors pass unchanged but for ping's
Timeout (R140); `read_reg` has no composition for another number of bytes than its size (R143). -/
def shape (op : WireOp) (r : Result) : Except Refusal Result :=
  match op, r with
  | .ping,         .err .timeout    => .ok (.ok (.bool false))
  | .ping,         .ok (.frame _)   => .ok (.ok (.bool true))
  | .read,         .ok (.frame f)   => .ok (.ok (.bytes f.params))
  | .readReg size, .ok (.frame f)   =>
      match rawOf size f.params with
      | some raw => .ok (.ok (.rawInt raw))
      | none     => .error .responseLengthMismatch
  | .write,            .ok (.frame _) => .ok (.ok .unit)
  | .writeDeferred,    .ok (.frame _) => .ok (.ok .unit)
  | .writeReg,         .ok (.frame _) => .ok (.ok .unit)
  | .writeRegDeferred, .ok (.frame _) => .ok (.ok .unit)
  | .reset,            .ok (.frame _) => .ok (.ok .unit)
  | _,                 r              => .ok r

/-- End the read: `arb.phase <- T_IDLE` and the shaped result is delivered (R124). -/
def conclude (r : Result) (s : State) : Out :=
  match shape s.arb.op r with
  | .ok r    => .next (settle r s)
  | .error e => .refused e

/-- The frame the decoder registers hold (10_state.md R19). -/
def DecRegs.frame (d : DecRegs) : Frame := { id := d.id, length := d.length, cmd := d.cmd, params := d.params }

/-- The result of a completed frame: its error byte is tested only after a good checksum (R124 (d)). -/
def frameResult (d : DecRegs) : Result :=
  if d.cmd = 0x00#8 then .ok (.frame d.frame) else .err (.deviceFault d.cmd)

/-- `read_status_packet()`, one receive event (R124, R125). -/
def receive (ev : RxEvent) (s : State) : Out :=
  match ev with
  | .noByte => conclude (.err .timeout) s
  | .byte b =>
      let s' := { s with dec := (decByte b s.dec).2 }
      match (decByte b s.dec).1 with
      | .notDone  => .next s'
      | .checksum => conclude (.err .checksumMismatch) s'
      | .none     => conclude (frameResult s'.dec) s'

/-- One pull and what the arbiter makes of it (R124). -/
def receiveStep (s : State) : Out := receive (pull s).1 (pull s).2

/-- Pull until the read ends, at most `n` times (R124 "stay in T_AWAIT; pull again"). -/
def receiveSome : Nat → State → Out
  | 0,     s => .next s
  | n + 1, s =>
      match s.arb.phase with
      | .idle  => .next s
      | .await =>
          match receiveStep s with
          | .next s'   => receiveSome n s'
          | .fault f   => .fault f
          | .refused r => .refused r

/-- `send_command`, host selector 0x20 (R121, R122): the command byte is not checked. -/
def execSendCommand (id command : Byte) (params : List Byte) (s : State) : Out :=
  accept .sendCommand (sendThen id command params reportDone) s

/-- `read_status_packet`, host selector 0x21: its start (R123); each receive event is a step of its own (R124). -/
def execReadStatusPacket (s : State) : Out := accept .readStatusPacket awaitStatus s

end Sys2Proof.Machine
end

