-- ==== Sys2Proof/Machine/Device.lean ====
section
/-! DEFINITION. DeviceHandle operations (43_device_ops.md R141 to R148): acceptance, one emission, and where a status
frame is awaited the start of its reading. The receive events that follow are steps of `receiveStep`. -/

namespace Sys2Proof.Machine

/-- `ping(id)` (R141): awaits whatever the id (R149). -/
def execPing (id : Byte) (s : State) : Out :=
  accept .ping (sendThen id Cmd.ping.code [] awaitStatus) s

/-- `read(id, offset, length)` (R142): awaits whatever the id (R149). -/
def execRead (id offset length : Byte) (s : State) : Out :=
  accept .read (sendThen id Cmd.read.code (readParams offset length) awaitStatus) s

/-- `write(id, offset, data, deferred = false)` (R145). -/
def execWrite (id offset : Byte) (data : List Byte) (s : State) : Out :=
  accept .write (sendThen id Cmd.write.code (writeParams offset data) (awaitUnlessBroadcast id)) s

/-- `write(id, offset, data, deferred = true)` (R145). -/
def execWriteDeferred (id offset : Byte) (data : List Byte) (s : State) : Out :=
  accept .writeDeferred (sendThen id Cmd.deferredWrite.code (writeParams offset data) (awaitUnlessBroadcast id)) s

/-- `action(id)` (R148): never awaits, whatever the id. -/
def execAction (id : Byte) (s : State) : Out :=
  accept .action (sendThen id Cmd.action.code [] reportDone) s

/-- `reset(id)` (R147): asks a device to reset; it resets nothing in the block. -/
def execReset (id : Byte) (s : State) : Out :=
  accept .reset (sendThen id Cmd.reset.code [] (awaitUnlessBroadcast id)) s

/-- `read_reg(id, register)` (R143): one READ of `size` bytes. -/
def execReadReg (id : Byte) (reg : RegDesc) (s : State) : Out :=
  accept (.readReg reg.size)
    (sendThen id Cmd.read.code (readParams reg.offset (BitVec.ofNat 8 reg.size.bytes)) awaitStatus) s

/-- The validation of a register-level write: the range check, then the byte form (R146). -/
def validated (reg : RegDesc) (raw : Int) (k : List Byte → State → Out) (s : State) : Out :=
  match rangeError reg raw with
  | some e => .next (raise e s)
  | none   =>
      match bytesOf raw reg.size with
      | some data => k data s
      | none      => .refused .rawDoesNotFit

/-- `write_reg(id, register, raw, deferred = false)` (R146). -/
def execWriteReg (id : Byte) (reg : RegDesc) (raw : Int) (s : State) : Out :=
  accept .writeReg (validated reg raw fun data =>
    sendThen id Cmd.write.code (writeParams reg.offset data) (awaitUnlessBroadcast id)) s

/-- `write_reg(id, register, raw, deferred = true)` (R146). -/
def execWriteRegDeferred (id : Byte) (reg : RegDesc) (raw : Int) (s : State) : Out :=
  accept .writeRegDeferred (validated reg raw fun data =>
    sendThen id Cmd.deferredWrite.code (writeParams reg.offset data) (awaitUnlessBroadcast id)) s

end Sys2Proof.Machine
end

