-- ==== Sys2Proof/Machine/Frames.lean ====
section
/-! DEFINITION. The wire frames of 30_encoding.md R70 as operations: a command frame offered to the block is the
transaction that carries it (R71), with the status awaited that R63 says the device operation awaits; a STATUS frame
arrives on the receive port (42_transport.md R124). Log 3. -/

namespace Sys2Proof.Machine

/-- PING (R63, R141). -/
def execFramePing (id : Byte) (s : State) : Out :=
  accept .ping (sendThen id Cmd.ping.code [] awaitStatus) s

/-- READ (R63, R142). -/
def execFrameRead (id offset length : Byte) (s : State) : Out :=
  accept .read (sendThen id Cmd.read.code (readParams offset length) awaitStatus) s

/-- WRITE (R63, R145). -/
def execFrameWrite (id offset : Byte) (data : List Byte) (s : State) : Out :=
  accept .write (sendThen id Cmd.write.code (writeParams offset data) (awaitUnlessBroadcast id)) s

/-- DEFERRED_WRITE (R63, R145). -/
def execFrameDeferredWrite (id offset : Byte) (data : List Byte) (s : State) : Out :=
  accept .writeDeferred (sendThen id Cmd.deferredWrite.code (writeParams offset data) (awaitUnlessBroadcast id)) s

/-- ACTION (R63, R148). -/
def execFrameAction (id : Byte) (s : State) : Out :=
  accept .action (sendThen id Cmd.action.code [] reportDone) s

/-- RESET (R63, R147). -/
def execFrameReset (id : Byte) (s : State) : Out :=
  accept .reset (sendThen id Cmd.reset.code [] (awaitUnlessBroadcast id)) s

/-- SYNC_WRITE (R67, 45_sync_write.md R204): the emission; always to BROADCAST, never awaits. -/
def execFrameSyncWrite (start bytesPer : Byte) (blocks : List (Byte × List Byte)) (s : State) : Out :=
  accept .syncWrite
    (sendThen Config.idBroadcast Cmd.syncWrite.code (syncParams start bytesPer blocks) reportDone) s

/-- STATUS (R64, 42_transport.md R124): the frame's bytes arrive behind those not yet pulled (10_state.md R25 (b));
while a status frame is awaited the arbiter pulls them, to the end of the read or of the bytes; outside a transaction
they wait, unnoticed (60_exceptions.md R215). -/
def execFrameStatus (pad : Nat) (id len err : Byte) (params : List Byte) (checksum : Byte) (s : State) : Out :=
  let s' := arrive (statusBytes pad id len err params checksum) s
  receiveSome s'.ports.rx.length s'

end Sys2Proof.Machine
end

