-- ==== Sys2Proof/Machine/SyncWrite.lean ====
section
/-! DEFINITION. SyncWriteEncoder (45_sync_write.md R200 to R208). -/

namespace Sys2Proof.Machine

/-- Why the encoding of the values ends: an error of the hardware, or a refusal. -/
inductive Halt
  | err (e : HostError)
  | refuse (r : Refusal)
deriving DecidableEq, Repr

/-- The index of the first register, from index `j` on, that does not start where the one before it ends (R201). -/
def gapAfter (j : Nat) (prev : RegDesc) : List RegDesc → Option Nat
  | []      => none
  | r :: rs => if r.offset.toNat = prev.offset.toNat + prev.size.bytes then gapAfter (j + 1) r rs else some j

/-- The contiguity check on a run (R201): the index of the first offending register. -/
def runGap : List RegDesc → Option Nat
  | []      => none
  | r :: rs => gapAfter 1 r rs

/-- `L`, the sum of the sizes of the run's registers (R67). -/
def runBytes (run : List RegDesc) : Nat := (run.map fun r => r.size.bytes).sum

/-- The bytes of one value: the range check, then the byte form (R202). -/
def valueBytes (reg : RegDesc) (raw : Int) : Except Halt (List Byte) :=
  match rangeError reg raw with
  | some e => .error (.err e)
  | none   =>
      match bytesOf raw reg.size with
      | some bs => .ok bs
      | none    => .error (.refuse .rawDoesNotFit)

/-- The data bytes of one device, the registers in declared order; the first failure ends it (R202, R204). -/
def laneBytes : List RegDesc → List Int → Except Halt (List Byte)
  | r :: rs, v :: vs =>
      match valueBytes r v with
      | .error h => .error h
      | .ok bs   =>
          match laneBytes rs vs with
          | .error h => .error h
          | .ok rest => .ok (bs ++ rest)
  | _, _ => .ok []

/-- The blocks, the devices in order (R202, R204, R205). -/
def laneBlocks (run : List RegDesc) : List Byte → List (List Int) → Except Halt (List (Byte × List Byte))
  | id :: ids, vs :: values =>
      match laneBytes run vs with
      | .error h => .error h
      | .ok bs   =>
          match laneBlocks run ids values with
          | .error h => .error h
          | .ok rest => .ok ((id, bs) :: rest)
  | _, _ => .ok []

/-- The shape and id checks 1 to 3 of R203, in their order. -/
def syncShape (ids : List Byte) (run : List RegDesc) (values : List (List Int)) : Option Refusal :=
  if ids = [] ∨ run = [] then some .emptySyncWrite
  else if values.length ≠ ids.length ∨ ∃ vs ∈ values, vs.length ≠ run.length then some .shapeMismatch
  else if ∃ id ∈ ids, id = Config.idBroadcast ∨ id = Config.idInvalid then some .invalidId
  else none

/-- The offset of the run's first register (R67). -/
def runStart : List RegDesc → Byte
  | []     => 0#8
  | r :: _ => r.offset

/-- The checks of R201, R203 (4) and R202 and the emission of R204, in the order of R200. -/
def syncEncode (ids : List Byte) (run : List RegDesc) (values : List (List Int)) (s : State) : Out :=
  match runGap run with
  | some j => .next (raise (.nonContiguousRun j) s)
  | none   =>
      if Config.paramCap < 2 + ids.length * (runBytes run + 1) then .next (raise .tooMuchData s)
      else
        match laneBlocks run ids values with
        | .error (.err e)    => .next (raise e s)
        | .error (.refuse r) => .refused r
        | .ok blocks         =>
            sendThen Config.idBroadcast Cmd.syncWrite.code
              (syncParams (runStart run) (BitVec.ofNat 8 (runBytes run)) blocks) reportDone s

/-- `sync_write(ids, run, values)`, host selector 0x83 (R200). -/
def execSyncWrite (ids : List Byte) (run : List RegDesc) (values : List (List Int)) (s : State) : Out :=
  accept .syncWrite (fun s =>
    match syncShape ids run values with
    | some r => .refused r
    | none   => syncEncode ids run values s) s

end Sys2Proof.Machine
end

