-- ==== Sys2Proof/Machine/Dispatch.lean ====
section
/-! DEFINITION. The meaning of every instruction, one arm per constructor. -/

namespace Sys2Proof.Machine

def exec (i : Instr) (s : State) : Host.Outcome State Fault Refusal :=
  match i with
  | .framePing id => Sys2Proof.Machine.execFramePing id s
  | .frameRead id offset length => Sys2Proof.Machine.execFrameRead id offset length s
  | .frameWrite id offset data => Sys2Proof.Machine.execFrameWrite id offset data s
  | .frameDeferredWrite id offset data => Sys2Proof.Machine.execFrameDeferredWrite id offset data s
  | .frameAction id => Sys2Proof.Machine.execFrameAction id s
  | .frameReset id => Sys2Proof.Machine.execFrameReset id s
  | .frameSyncWrite start bytesPer blocks => Sys2Proof.Machine.execFrameSyncWrite start bytesPer blocks s
  | .frameStatus pad id len err params checksum => Sys2Proof.Machine.execFrameStatus pad id len err params checksum s
  | .ping id => Sys2Proof.Machine.execPing id s
  | .read id offset length => Sys2Proof.Machine.execRead id offset length s
  | .write id offset data => Sys2Proof.Machine.execWrite id offset data s
  | .writeDeferred id offset data => Sys2Proof.Machine.execWriteDeferred id offset data s
  | .action id => Sys2Proof.Machine.execAction id s
  | .reset id => Sys2Proof.Machine.execReset id s
  | .readReg id reg => Sys2Proof.Machine.execReadReg id reg s
  | .writeReg id reg raw => Sys2Proof.Machine.execWriteReg id reg raw s
  | .writeRegDeferred id reg raw => Sys2Proof.Machine.execWriteRegDeferred id reg raw s
  | .syncWrite ids run values => Sys2Proof.Machine.execSyncWrite ids run values s
  | .sendCommand id command params => Sys2Proof.Machine.execSendCommand id command params s
  | .readStatusPacket => Sys2Proof.Machine.execReadStatusPacket s
  | .decStep b => Sys2Proof.Machine.execDecStep b s
  | .cks bytes => Sys2Proof.Machine.execCks bytes s
  | .decReset => Sys2Proof.Machine.execDecReset s
  | .checkRange reg raw => Sys2Proof.Machine.execCheckRange reg raw s
  | .rawToValueBaudRate raw => Sys2Proof.Machine.execRawToValueBaudRate raw s
  | .rawToValueRDT raw => Sys2Proof.Machine.execRawToValueRDT raw s
  | .rawToValueAngle raw => Sys2Proof.Machine.execRawToValueAngle raw s
  | .rawToValueVoltage raw => Sys2Proof.Machine.execRawToValueVoltage raw s
  | .rawToValueTemperature raw => Sys2Proof.Machine.execRawToValueTemperature raw s
  | .rawToValueAngularVelocity raw => Sys2Proof.Machine.execRawToValueAngularVelocity raw s
  | .rawToValueLoad raw => Sys2Proof.Machine.execRawToValueLoad raw s
  | .rawToValueOnOff raw => Sys2Proof.Machine.execRawToValueOnOff raw s
  | .rawToValueStatusReturnLevel raw => Sys2Proof.Machine.execRawToValueStatusReturnLevel raw s
  | .rawToValueAlarm raw => Sys2Proof.Machine.execRawToValueAlarm raw s
  | .valueToRawBaudRate value => Sys2Proof.Machine.execValueToRawBaudRate value s
  | .valueToRawRDT value => Sys2Proof.Machine.execValueToRawRDT value s
  | .valueToRawAngle value => Sys2Proof.Machine.execValueToRawAngle value s
  | .valueToRawVoltage value => Sys2Proof.Machine.execValueToRawVoltage value s
  | .valueToRawTemperature value => Sys2Proof.Machine.execValueToRawTemperature value s
  | .valueToRawAngularVelocity value => Sys2Proof.Machine.execValueToRawAngularVelocity value s
  | .valueToRawLoad value => Sys2Proof.Machine.execValueToRawLoad value s
  | .valueToRawOnOff value => Sys2Proof.Machine.execValueToRawOnOff value s
  | .valueToRawStatusReturnLevel value => Sys2Proof.Machine.execValueToRawStatusReturnLevel value s
  | .valueToRawAlarm value => Sys2Proof.Machine.execValueToRawAlarm value s
  | .rawToStrBaudRate raw => Sys2Proof.Machine.execRawToStrBaudRate raw s
  | .rawToStrRDT raw => Sys2Proof.Machine.execRawToStrRDT raw s
  | .rawToStrAngle raw => Sys2Proof.Machine.execRawToStrAngle raw s
  | .rawToStrVoltage raw => Sys2Proof.Machine.execRawToStrVoltage raw s
  | .rawToStrTemperature raw => Sys2Proof.Machine.execRawToStrTemperature raw s
  | .rawToStrAngularVelocity raw => Sys2Proof.Machine.execRawToStrAngularVelocity raw s
  | .rawToStrLoad raw => Sys2Proof.Machine.execRawToStrLoad raw s
  | .rawToStrOnOff raw => Sys2Proof.Machine.execRawToStrOnOff raw s
  | .rawToStrStatusReturnLevel raw => Sys2Proof.Machine.execRawToStrStatusReturnLevel raw s
  | .rawToStrAlarm raw => Sys2Proof.Machine.execRawToStrAlarm raw s
  | .strToRawBaudRate text => Sys2Proof.Machine.execStrToRawBaudRate text s
  | .strToRawRDT text => Sys2Proof.Machine.execStrToRawRDT text s
  | .strToRawAngle text => Sys2Proof.Machine.execStrToRawAngle text s
  | .strToRawVoltage text => Sys2Proof.Machine.execStrToRawVoltage text s
  | .strToRawTemperature text => Sys2Proof.Machine.execStrToRawTemperature text s
  | .strToRawAngularVelocity text => Sys2Proof.Machine.execStrToRawAngularVelocity text s
  | .strToRawLoad text => Sys2Proof.Machine.execStrToRawLoad text s
  | .strToRawOnOff text => Sys2Proof.Machine.execStrToRawOnOff text s
  | .strToRawStatusReturnLevel text => Sys2Proof.Machine.execStrToRawStatusReturnLevel text s
  | .strToRawAlarm text => Sys2Proof.Machine.execStrToRawAlarm text s

end Sys2Proof.Machine
end

