-- ==== Sys2Proof/WellFormed.lean ====
section
/-! DEFINITION. When an instruction is well formed: its frame is one that 30_encoding.md R60 to R67 describe, and
its operands fit the operand fields of the host port (Decode.lean, log 4). -/

namespace Sys2Proof

/-- A sequence whose element count fits its two-byte count field (log 4). -/
def fitsCount {α : Type} (l : List α) : Bool := decide (l.length < 65536)

/-- A natural number that fits its eight-byte field (log 4). -/
def fitsNat (n : Nat) : Bool := decide (n < 2 ^ 64)

/-- An integer that fits its eight-byte two's complement field (log 4). -/
def fitsInt (i : Int) : Bool := decide (-(2 ^ 63) ≤ i) && decide (i < 2 ^ 63)

/-- A rational whose numerator and denominator fit their fields (log 4). -/
def fitsRat (q : Rat) : Bool := fitsInt q.num && fitsNat (q.den - 1)

/-- An optional bound that fits its field. -/
def fitsBound : Option Int → Bool
  | none   => true
  | some i => fitsInt i

/-- A descriptor whose name and bounds fit their fields. -/
def RegDesc.fits (r : RegDesc) : Bool := fitsCount r.name && fitsBound r.min && fitsBound r.max

/-- An id a frame may carry after the preamble: any but 0xFF, which is padding there (R61, R65). -/
def frameId (id : Byte) : Bool := decide (id ≠ Config.idInvalid)

/-- The `data` of a WRITE frame: `len(data) + 1 <= 253` (R66). -/
def frameData (data : List Byte) : Bool := decide (data.length + 1 ≤ Config.paramCap)

/-- The blocks of a SYNC_WRITE frame: `L` data bytes each, and `2 + N(L+1)` parameters at most 253 (R67, R203). -/
def syncBlocks (bytesPer : Byte) (blocks : List (Byte × List Byte)) : Bool :=
  blocks.all (fun b => decide (b.2.length = bytesPer.toNat)) &&
    decide (2 + blocks.length * (bytesPer.toNat + 1) ≤ Config.paramCap)

/-- The header bytes that a command frame could also have (the seven rows of R70). "Nothing in a frame says which
direction it travels" (R64): on the host port such a header reads as the command's. -/
def commandLike (id len cmd : Byte) : Bool :=
  decide (cmd = 0x01#8 ∧ len = 2#8) || decide (cmd = 0x02#8 ∧ len = 4#8) || decide (cmd = 0x03#8) ||
  decide (cmd = 0x04#8) || decide (cmd = 0x05#8 ∧ len = 2#8) || decide (cmd = 0x06#8 ∧ len = 2#8) ||
  decide (cmd = 0x83#8 ∧ id = Config.idBroadcast)

/-- A STATUS frame: `len − 2` parameters (R62; none for a `len` below 2, R106), and either some padding, which no
command frame has (R65), or a header that is no command's (log 3). -/
def statusShape (pad : Nat) (id len err : Byte) (params : List Byte) : Bool :=
  decide (params.length = len.toNat - 2) && (decide (0 < pad) || !commandLike id len err)

/-- Well-formedness of an instruction. -/
def Instr.wf : Instr → Bool
  | .framePing id                          => frameId id
  | .frameRead id _ _                      => frameId id
  | .frameWrite id _ data                  => frameId id && frameData data
  | .frameDeferredWrite id _ data          => frameId id && frameData data
  | .frameAction id                        => frameId id
  | .frameReset id                         => frameId id
  | .frameSyncWrite _ bytesPer blocks      => syncBlocks bytesPer blocks
  | .frameStatus pad id len err params _   => frameId id && statusShape pad id len err params
  | .ping _                                => true
  | .read _ _ _                            => true
  | .write _ _ data                        => fitsCount data
  | .writeDeferred _ _ data                => fitsCount data
  | .action _                              => true
  | .reset _                               => true
  | .readReg _ reg                         => reg.fits
  | .writeReg _ reg raw                    => reg.fits && fitsInt raw
  | .writeRegDeferred _ reg raw            => reg.fits && fitsInt raw
  | .syncWrite ids run values              =>
      fitsCount ids && (fitsCount run && run.all RegDesc.fits) &&
        (fitsCount values && values.all (fun vs => fitsCount vs && vs.all fitsInt))
  | .sendCommand _ _ params                => fitsCount params
  | .readStatusPacket                      => true
  | .decStep _                             => true
  | .cks bytes                             => fitsCount bytes
  | .decReset                              => true
  | .checkRange reg raw                    => reg.fits && fitsInt raw
  | .rawToValueBaudRate raw                => fitsNat raw
  | .rawToValueRDT raw                     => fitsNat raw
  | .rawToValueAngle raw                   => fitsNat raw
  | .rawToValueVoltage raw                 => fitsNat raw
  | .rawToValueTemperature raw             => fitsNat raw
  | .rawToValueAngularVelocity raw         => fitsNat raw
  | .rawToValueLoad raw                    => fitsNat raw
  | .rawToValueOnOff raw                   => fitsNat raw
  | .rawToValueStatusReturnLevel raw       => fitsNat raw
  | .rawToValueAlarm raw                   => fitsNat raw
  | .valueToRawBaudRate v                  => fitsRat v
  | .valueToRawRDT v                       => fitsRat v
  | .valueToRawAngle v                     => fitsRat v
  | .valueToRawVoltage v                   => fitsRat v
  | .valueToRawTemperature v               => fitsRat v
  | .valueToRawAngularVelocity v           => fitsRat v
  | .valueToRawLoad v                      => fitsNat v.magnitude
  | .valueToRawOnOff _                     => true
  | .valueToRawStatusReturnLevel _         => true
  | .valueToRawAlarm _                     => true
  | .rawToStrBaudRate raw                  => fitsNat raw
  | .rawToStrRDT raw                       => fitsNat raw
  | .rawToStrAngle raw                     => fitsNat raw
  | .rawToStrVoltage raw                   => fitsNat raw
  | .rawToStrTemperature raw               => fitsNat raw
  | .rawToStrAngularVelocity raw           => fitsNat raw
  | .rawToStrLoad raw                      => fitsNat raw
  | .rawToStrOnOff raw                     => fitsNat raw
  | .rawToStrStatusReturnLevel raw         => fitsNat raw
  | .rawToStrAlarm raw                     => fitsNat raw
  | .strToRawBaudRate text                 => fitsCount text
  | .strToRawRDT text                      => fitsCount text
  | .strToRawAngle text                    => fitsCount text
  | .strToRawVoltage text                  => fitsCount text
  | .strToRawTemperature text              => fitsCount text
  | .strToRawAngularVelocity text          => fitsCount text
  | .strToRawLoad text                     => fitsCount text
  | .strToRawOnOff text                    => fitsCount text
  | .strToRawStatusReturnLevel text        => fitsCount text
  | .strToRawAlarm text                    => fitsCount text

end Sys2Proof
end

