-- ==== Sys2Proof/Decode.lean ====
section
/-! DEFINITION. The decoder of the operations offered to the block, total on any bytes, and the encoder written
from the same tables: the header rows of 30_encoding.md R70 and the selectors of R77. The operand bytes after a
selector are the model's own (log 4): the spec gives operands no binary form (R77). -/

namespace Sys2Proof

/-- Why a sequence of bytes is no operation. -/
inductive DecodeError
  /-- Nothing is offered. -/
  | empty
  /-- The first byte is no selector of R77. -/
  | unknownOperation
  /-- The bytes end inside the operation. -/
  | truncated
  /-- An operand field holds a code that stands for nothing. -/
  | badOperand
  /-- A descriptor field holds a code that stands for nothing. -/
  | badRegister
  /-- The parameters of a SYNC_WRITE frame are no whole number of blocks (R67). -/
  | badSyncLayout
deriving DecidableEq, Repr

/-- What a reader of bytes answers: the value read and the bytes after it, or the reason there is none. -/
abbrev Got (α : Type) := Except DecodeError (α × List Byte)

/-- Read on after a value. -/
def bindGot {α β : Type} (g : Got α) (f : α → List Byte → Got β) : Got β :=
  match g with
  | .ok (a, rest) => f a rest
  | .error e      => .error e

/-- Nothing more to read: answer the value. -/
def gotten {α : Type} (a : α) (rest : List Byte) : Got α := .ok (a, rest)

/-! ## Operand fields -/

def getByte : List Byte → Got Byte
  | []        => .error .truncated
  | b :: rest => .ok (b, rest)

def getBytes : Nat → List Byte → Got (List Byte)
  | 0,     bs => .ok ([], bs)
  | n + 1, bs => bindGot (getByte bs) fun b bs => bindGot (getBytes n bs) fun l bs => gotten (b :: l) bs

/-- `n` bytes as one number, the least significant byte first. -/
def getLE : Nat → List Byte → Got Nat
  | 0,     bs => .ok (0, bs)
  | n + 1, bs => bindGot (getByte bs) fun b bs => bindGot (getLE n bs) fun v bs => gotten (b.toNat + 256 * v) bs

def putLE : Nat → Nat → List Byte
  | 0,     _ => []
  | n + 1, v => BitVec.ofNat 8 (v % 256) :: putLE n (v / 256)

/-- An element count: two bytes. -/
def getCount (bs : List Byte) : Got Nat := getLE 2 bs
def putCount (n : Nat) : List Byte := putLE 2 n

/-- A natural number: eight bytes. -/
def getNat (bs : List Byte) : Got Nat := getLE 8 bs
def putNat (n : Nat) : List Byte := putLE 8 n

/-- An integer: eight bytes, two's complement. -/
def getInt (bs : List Byte) : Got Int :=
  bindGot (getNat bs) fun u bs => gotten (if u < 2 ^ 63 then (u : Int) else (u : Int) - 2 ^ 64) bs
def putInt (i : Int) : List Byte := putNat (i % 2 ^ 64).toNat

/-- A rational: its numerator, then its denominator less one. -/
def getRat (bs : List Byte) : Got Rat :=
  bindGot (getInt bs) fun num bs => bindGot (getNat bs) fun d bs => gotten (mkRat num (d + 1)) bs
def putRat (q : Rat) : List Byte := putInt q.num ++ putNat (q.den - 1)

/-- `n` elements, one after another. -/
def getMany {α : Type} (get : List Byte → Got α) : Nat → List Byte → Got (List α)
  | 0,     bs => .ok ([], bs)
  | n + 1, bs => bindGot (get bs) fun a bs => bindGot (getMany get n bs) fun l bs => gotten (a :: l) bs

/-- A counted sequence. -/
def getSeq {α : Type} (get : List Byte → Got α) (bs : List Byte) : Got (List α) :=
  bindGot (getCount bs) fun n bs => getMany get n bs
def putSeq {α : Type} (put : α → List Byte) (l : List α) : List Byte := putCount l.length ++ l.flatMap put

/-- A counted byte sequence. -/
def getData (bs : List Byte) : Got (List Byte) := bindGot (getCount bs) fun n bs => getBytes n bs
def putData (l : List Byte) : List Byte := putCount l.length ++ l

/-- The type tag of R76. -/
def RegType.tag : RegType → Byte
  | .baudRate => 0#8 | .rdt => 1#8 | .angle => 2#8 | .voltage => 3#8 | .temperature => 4#8
  | .angularVelocity => 5#8 | .load => 6#8 | .onOff => 7#8 | .statusReturnLevel => 8#8 | .alarm => 9#8

/-- The type of a tag: none of the other 246 byte values is one (R195). -/
def RegType.ofTag (b : Byte) : Option RegType :=
  match b.toNat with
  | 0 => some .baudRate
  | 1 => some .rdt
  | 2 => some .angle
  | 3 => some .voltage
  | 4 => some .temperature
  | 5 => some .angularVelocity
  | 6 => some .load
  | 7 => some .onOff
  | 8 => some .statusReturnLevel
  | 9 => some .alarm
  | _ => none

/-- A field of one byte that holds a code. -/
def getCode {α : Type} (e : DecodeError) (of : Byte → Option α) (bs : List Byte) : Got α :=
  bindGot (getByte bs) fun b bs =>
    match of b with
    | some a => gotten a bs
    | none   => .error e

def sizeOfCode (b : Byte) : Option RegSize :=
  if b = 0#8 then some .one else if b = 1#8 then some .two else none
def sizeCode : RegSize → Byte
  | .one => 0#8
  | .two => 1#8

def accessOfCode (b : Byte) : Option Access :=
  if b = 0#8 then some .ro else if b = 1#8 then some .rw else none
def accessCode : Access → Byte
  | .ro => 0#8
  | .rw => 1#8

def boolOfCode (b : Byte) : Option Bool :=
  if b = 0#8 then some false else if b = 1#8 then some true else none
def boolCode : Bool → Byte
  | false => 0#8
  | true  => 1#8

def onOffOfCode (b : Byte) : Option OnOff :=
  if b = 0#8 then some .off else if b = 1#8 then some .on else none
def onOffCode : OnOff → Byte
  | .off => 0#8
  | .on  => 1#8

def levelOfCode (b : Byte) : Option ReturnLevel :=
  if b = 0#8 then some .none else if b = 1#8 then some .read else if b = 2#8 then some .all else none
def levelCode : ReturnLevel → Byte
  | .none => 0#8
  | .read => 1#8
  | .all  => 2#8

/-- A set of error bits as an operand byte, the bits of 10_state.md R17. -/
def errBitsOfCode (b : Byte) : ErrBits :=
  { inputVoltage := b.getLsbD 0, angleLimit := b.getLsbD 1, overheating := b.getLsbD 2, range := b.getLsbD 3
    checksum := b.getLsbD 4, overload := b.getLsbD 5, instruction := b.getLsbD 6, reserved := b.getLsbD 7 }
def errBitsCode (e : ErrBits) : Byte :=
  BitVec.ofBool e.reserved ++ BitVec.ofBool e.instruction ++ BitVec.ofBool e.overload ++ BitVec.ofBool e.checksum ++
    BitVec.ofBool e.range ++ BitVec.ofBool e.overheating ++ BitVec.ofBool e.angleLimit ++ BitVec.ofBool e.inputVoltage

/-- An optional bound: 0 for none, 1 and the integer for one. -/
def getBound (bs : List Byte) : Got (Option Int) :=
  bindGot (getCode .badRegister boolOfCode bs) fun present bs =>
    match present with
    | false => gotten none bs
    | true  => bindGot (getInt bs) fun i bs => gotten (some i) bs
def putBound : Option Int → List Byte
  | none   => [0#8]
  | some i => 1#8 :: putInt i

/-- A register descriptor (10_state.md R21): name, offset, size, access, bounds, type tag. -/
def getReg (bs : List Byte) : Got RegDesc :=
  bindGot (getData bs) fun name bs => bindGot (getByte bs) fun offset bs =>
  bindGot (getCode .badRegister sizeOfCode bs) fun size bs =>
  bindGot (getCode .badRegister accessOfCode bs) fun access bs =>
  bindGot (getBound bs) fun lo bs => bindGot (getBound bs) fun hi bs =>
  bindGot (getCode .badRegister RegType.ofTag bs) fun type bs =>
  gotten { name := name, offset := offset, size := size, access := access, min := lo, max := hi, type := type } bs
def putReg (r : RegDesc) : List Byte :=
  putData r.name ++ [r.offset, sizeCode r.size, accessCode r.access] ++ putBound r.min ++ putBound r.max ++ [r.type.tag]

def getLoad (bs : List Byte) : Got LoadValue :=
  bindGot (getCode .badOperand boolOfCode bs) fun sign bs => bindGot (getNat bs) fun m bs =>
  gotten { sign := sign, magnitude := m } bs
def putLoad (v : LoadValue) : List Byte := boolCode v.sign :: putNat v.magnitude

/-! ## Wire frames -/

/-- The 40-bit header word `H`, first byte most significant (R70). -/
def headerWord (id len cmd : Byte) : BitVec 40 := 0xFF#8 ++ 0xFF#8 ++ id ++ len ++ cmd

/-- Mask and match of a command's row (R70). -/
def Cmd.row : Cmd → BitVec 40 × BitVec 40
  | .ping          => (0xFFFF00FFFF#40, 0xFFFF000201#40)
  | .read          => (0xFFFF00FFFF#40, 0xFFFF000402#40)
  | .write         => (0xFFFF0000FF#40, 0xFFFF000003#40)
  | .deferredWrite => (0xFFFF0000FF#40, 0xFFFF000004#40)
  | .action        => (0xFFFF00FFFF#40, 0xFFFF000205#40)
  | .reset         => (0xFFFF00FFFF#40, 0xFFFF000206#40)
  | .syncWrite     => (0xFFFFFF00FF#40, 0xFFFFFE0083#40)

/-- A command is selected by `(H & mask) = match` (R70). -/
def Cmd.selects (c : Cmd) (h : BitVec 40) : Bool := h &&& c.row.1 == c.row.2

/-- The command whose row selects the header, if any. -/
def headerCmd (h : BitVec 40) : Option Cmd :=
  [Cmd.ping, .read, .write, .deferredWrite, .action, .reset, .syncWrite].find? (fun c => c.selects h)

/-- The run of 0xFF bytes between the preamble and the id (R65), and what follows it. -/
def skipPad : List Byte → Nat × List Byte
  | []        => (0, [])
  | b :: rest => if b = 0xFF#8 then ((skipPad rest).1 + 1, (skipPad rest).2) else (0, b :: rest)

/-- One block of a SYNC_WRITE frame: an id and `L` data bytes (R67). -/
def getBlock (bytesPer : Nat) (bs : List Byte) : Got (Byte × List Byte) :=
  bindGot (getByte bs) fun id bs => bindGot (getBytes bytesPer bs) fun data bs => gotten (id, data) bs
def putBlock (b : Byte × List Byte) : List Byte := b.1 :: b.2

/-- The rest of a command frame after its header (R66, R67). The block computes the checksum itself (R68), so none
follows here; a `len` below the smallest the layout has is read as no data (log 3). -/
def getCommand (c : Cmd) (id len : Byte) (bs : List Byte) : Got Instr :=
  match c with
  | .ping          => gotten (.framePing id) bs
  | .read          => bindGot (getByte bs) fun offset bs => bindGot (getByte bs) fun length bs =>
                      gotten (.frameRead id offset length) bs
  | .write         => bindGot (getByte bs) fun offset bs => bindGot (getBytes (len.toNat - 3) bs) fun data bs =>
                      gotten (.frameWrite id offset data) bs
  | .deferredWrite => bindGot (getByte bs) fun offset bs => bindGot (getBytes (len.toNat - 3) bs) fun data bs =>
                      gotten (.frameDeferredWrite id offset data) bs
  | .action        => gotten (.frameAction id) bs
  | .reset         => gotten (.frameReset id) bs
  | .syncWrite     => bindGot (getByte bs) fun start bs => bindGot (getByte bs) fun bytesPer bs =>
                      if (len.toNat - 4) % (bytesPer.toNat + 1) = 0 then
                        bindGot (getMany (getBlock bytesPer.toNat) ((len.toNat - 4) / (bytesPer.toNat + 1)) bs)
                          fun blocks bs => gotten (.frameSyncWrite start bytesPer blocks) bs
                      else .error .badSyncLayout

/-- The rest of a received frame after its header: `len − 2` parameters and the checksum (R60, R62). -/
def getStatus (pad : Nat) (id len err : Byte) (bs : List Byte) : Got Instr :=
  bindGot (getBytes (len.toNat - 2) bs) fun params bs => bindGot (getByte bs) fun checksum bs =>
  gotten (.frameStatus pad id len err params checksum) bs

/-- A frame, after the two preamble bytes. Padding marks a received frame (R65: "The encoder never emits padding"). -/
def getFrame (bs : List Byte) : Got Instr :=
  match (skipPad bs).2 with
  | id :: len :: cmd :: body =>
      match (if (skipPad bs).1 = 0 then headerCmd (headerWord id len cmd) else none) with
      | some c => getCommand c id len body
      | none   => getStatus (skipPad bs).1 id len cmd body
  | _ => .error .truncated

/-! ## Host operations -/

/-- The operation a selector of R77 names, its operands read from the bytes after it. -/
def getOp (sel : Byte) (bs : List Byte) : Got Instr :=
  match sel.toNat with
  | 0x01 => bindGot (getByte bs) fun id bs => gotten (.ping id) bs
  | 0x02 => bindGot (getByte bs) fun id bs => bindGot (getByte bs) fun offset bs =>
            bindGot (getByte bs) fun length bs => gotten (.read id offset length) bs
  | 0x03 => bindGot (getByte bs) fun id bs => bindGot (getByte bs) fun offset bs =>
            bindGot (getData bs) fun data bs => gotten (.write id offset data) bs
  | 0x04 => bindGot (getByte bs) fun id bs => bindGot (getByte bs) fun offset bs =>
            bindGot (getData bs) fun data bs => gotten (.writeDeferred id offset data) bs
  | 0x05 => bindGot (getByte bs) fun id bs => gotten (.action id) bs
  | 0x06 => bindGot (getByte bs) fun id bs => gotten (.reset id) bs
  | 0x12 => bindGot (getByte bs) fun id bs => bindGot (getReg bs) fun reg bs => gotten (.readReg id reg) bs
  | 0x13 => bindGot (getByte bs) fun id bs => bindGot (getReg bs) fun reg bs =>
            bindGot (getInt bs) fun raw bs => gotten (.writeReg id reg raw) bs
  | 0x14 => bindGot (getByte bs) fun id bs => bindGot (getReg bs) fun reg bs =>
            bindGot (getInt bs) fun raw bs => gotten (.writeRegDeferred id reg raw) bs
  | 0x83 => bindGot (getData bs) fun ids bs => bindGot (getSeq getReg bs) fun run bs =>
            bindGot (getSeq (getSeq getInt) bs) fun values bs => gotten (.syncWrite ids run values) bs
  | 0x20 => bindGot (getByte bs) fun id bs => bindGot (getByte bs) fun command bs =>
            bindGot (getData bs) fun params bs => gotten (.sendCommand id command params) bs
  | 0x21 => gotten .readStatusPacket bs
  | 0x22 => bindGot (getByte bs) fun b bs => gotten (.decStep b) bs
  | 0x23 => bindGot (getData bs) fun bytes bs => gotten (.cks bytes) bs
  | 0x24 => gotten .decReset bs
  | 0x3F => bindGot (getReg bs) fun reg bs => bindGot (getInt bs) fun raw bs => gotten (.checkRange reg raw) bs
  | 0x40 => bindGot (getNat bs) fun raw bs => gotten (.rawToValueBaudRate raw) bs
  | 0x41 => bindGot (getNat bs) fun raw bs => gotten (.rawToValueRDT raw) bs
  | 0x42 => bindGot (getNat bs) fun raw bs => gotten (.rawToValueAngle raw) bs
  | 0x43 => bindGot (getNat bs) fun raw bs => gotten (.rawToValueVoltage raw) bs
  | 0x44 => bindGot (getNat bs) fun raw bs => gotten (.rawToValueTemperature raw) bs
  | 0x45 => bindGot (getNat bs) fun raw bs => gotten (.rawToValueAngularVelocity raw) bs
  | 0x46 => bindGot (getNat bs) fun raw bs => gotten (.rawToValueLoad raw) bs
  | 0x47 => bindGot (getNat bs) fun raw bs => gotten (.rawToValueOnOff raw) bs
  | 0x48 => bindGot (getNat bs) fun raw bs => gotten (.rawToValueStatusReturnLevel raw) bs
  | 0x49 => bindGot (getNat bs) fun raw bs => gotten (.rawToValueAlarm raw) bs
  | 0x50 => bindGot (getRat bs) fun v bs => gotten (.valueToRawBaudRate v) bs
  | 0x51 => bindGot (getRat bs) fun v bs => gotten (.valueToRawRDT v) bs
  | 0x52 => bindGot (getRat bs) fun v bs => gotten (.valueToRawAngle v) bs
  | 0x53 => bindGot (getRat bs) fun v bs => gotten (.valueToRawVoltage v) bs
  | 0x54 => bindGot (getRat bs) fun v bs => gotten (.valueToRawTemperature v) bs
  | 0x55 => bindGot (getRat bs) fun v bs => gotten (.valueToRawAngularVelocity v) bs
  | 0x56 => bindGot (getLoad bs) fun v bs => gotten (.valueToRawLoad v) bs
  | 0x57 => bindGot (getCode .badOperand onOffOfCode bs) fun v bs => gotten (.valueToRawOnOff v) bs
  | 0x58 => bindGot (getCode .badOperand levelOfCode bs) fun v bs => gotten (.valueToRawStatusReturnLevel v) bs
  | 0x59 => bindGot (getByte bs) fun b bs => gotten (.valueToRawAlarm (errBitsOfCode b)) bs
  | 0x60 => bindGot (getNat bs) fun raw bs => gotten (.rawToStrBaudRate raw) bs
  | 0x61 => bindGot (getNat bs) fun raw bs => gotten (.rawToStrRDT raw) bs
  | 0x62 => bindGot (getNat bs) fun raw bs => gotten (.rawToStrAngle raw) bs
  | 0x63 => bindGot (getNat bs) fun raw bs => gotten (.rawToStrVoltage raw) bs
  | 0x64 => bindGot (getNat bs) fun raw bs => gotten (.rawToStrTemperature raw) bs
  | 0x65 => bindGot (getNat bs) fun raw bs => gotten (.rawToStrAngularVelocity raw) bs
  | 0x66 => bindGot (getNat bs) fun raw bs => gotten (.rawToStrLoad raw) bs
  | 0x67 => bindGot (getNat bs) fun raw bs => gotten (.rawToStrOnOff raw) bs
  | 0x68 => bindGot (getNat bs) fun raw bs => gotten (.rawToStrStatusReturnLevel raw) bs
  | 0x69 => bindGot (getNat bs) fun raw bs => gotten (.rawToStrAlarm raw) bs
  | 0x70 => bindGot (getData bs) fun text bs => gotten (.strToRawBaudRate text) bs
  | 0x71 => bindGot (getData bs) fun text bs => gotten (.strToRawRDT text) bs
  | 0x72 => bindGot (getData bs) fun text bs => gotten (.strToRawAngle text) bs
  | 0x73 => bindGot (getData bs) fun text bs => gotten (.strToRawVoltage text) bs
  | 0x74 => bindGot (getData bs) fun text bs => gotten (.strToRawTemperature text) bs
  | 0x75 => bindGot (getData bs) fun text bs => gotten (.strToRawAngularVelocity text) bs
  | 0x76 => bindGot (getData bs) fun text bs => gotten (.strToRawLoad text) bs
  | 0x77 => bindGot (getData bs) fun text bs => gotten (.strToRawOnOff text) bs
  | 0x78 => bindGot (getData bs) fun text bs => gotten (.strToRawStatusReturnLevel text) bs
  | 0x79 => bindGot (getData bs) fun text bs => gotten (.strToRawAlarm text) bs
  | _    => .error .unknownOperation

/-- The first operation of a byte sequence and the bytes after it: a wire frame where the sequence opens with the
preamble, and the operation of a selector elsewhere (0xFF is no selector of R77; log 3). -/
def decode : List Byte → Got Instr
  | []        => .error .empty
  | sel :: bs =>
      match bs with
      | []        => getOp sel bs
      | b :: rest => if sel = 0xFF#8 ∧ b = 0xFF#8 then getFrame rest else getOp sel bs

/-- The `n` low bytes of a number, the most significant first, as R70 reads a header word. -/
def beBytes : Nat → Nat → List Byte
  | 0,     _ => []
  | n + 1, w => BitVec.ofNat 8 (w / 256 ^ n) :: beBytes n w

/-- The bytes of a table word, then as many zero bytes as any operand fields of zeros take. -/
def tableBytes (nbits w : Nat) : List Byte := beBytes (nbits / 8) w ++ List.replicate 64 0#8

/-- The instruction the decoder reads from the `nbits` bits `w` of a table row, numbered as
spec/opcode_table.json numbers them (the first byte most significant, R70), every later byte zero. -/
def decodeTableWord (nbits w : Nat) : Option Instr :=
  match decode (tableBytes nbits w) with
  | .ok (i, _) => some i
  | .error _   => none

/-! ## The encoder -/

/-- A command frame's header and parameters, with `len = len(params) + 2` (R60, R68). -/
def putCommand (c : Cmd) (id : Byte) (params : List Byte) : List Byte :=
  [0xFF#8, 0xFF#8, id, BitVec.ofNat 8 (params.length + 2), c.code] ++ params

/-- The bytes of an instruction. -/
def encode : Instr → List Byte
  | .framePing id                          => putCommand .ping id []
  | .frameRead id offset length            => putCommand .read id [offset, length]
  | .frameWrite id offset data             => putCommand .write id (offset :: data)
  | .frameDeferredWrite id offset data     => putCommand .deferredWrite id (offset :: data)
  | .frameAction id                        => putCommand .action id []
  | .frameReset id                         => putCommand .reset id []
  | .frameSyncWrite start bytesPer blocks  =>
      putCommand .syncWrite Config.idBroadcast (start :: bytesPer :: blocks.flatMap putBlock)
  | .frameStatus pad id len err params c   =>
      [0xFF#8, 0xFF#8] ++ List.replicate pad 0xFF#8 ++ [id, len, err] ++ params ++ [c]
  | .ping id                               => [0x01#8, id]
  | .read id offset length                 => [0x02#8, id, offset, length]
  | .write id offset data                  => [0x03#8, id, offset] ++ putData data
  | .writeDeferred id offset data          => [0x04#8, id, offset] ++ putData data
  | .action id                             => [0x05#8, id]
  | .reset id                              => [0x06#8, id]
  | .readReg id reg                        => [0x12#8, id] ++ putReg reg
  | .writeReg id reg raw                   => [0x13#8, id] ++ putReg reg ++ putInt raw
  | .writeRegDeferred id reg raw           => [0x14#8, id] ++ putReg reg ++ putInt raw
  | .syncWrite ids run values              => [0x83#8] ++ putData ids ++ putSeq putReg run ++ putSeq (putSeq putInt) values
  | .sendCommand id command params         => [0x20#8, id, command] ++ putData params
  | .readStatusPacket                      => [0x21#8]
  | .decStep b                             => [0x22#8, b]
  | .cks bytes                             => 0x23#8 :: putData bytes
  | .decReset                              => [0x24#8]
  | .checkRange reg raw                    => [0x3F#8] ++ putReg reg ++ putInt raw
  | .rawToValueBaudRate raw                => 0x40#8 :: putNat raw
  | .rawToValueRDT raw                     => 0x41#8 :: putNat raw
  | .rawToValueAngle raw                   => 0x42#8 :: putNat raw
  | .rawToValueVoltage raw                 => 0x43#8 :: putNat raw
  | .rawToValueTemperature raw             => 0x44#8 :: putNat raw
  | .rawToValueAngularVelocity raw         => 0x45#8 :: putNat raw
  | .rawToValueLoad raw                    => 0x46#8 :: putNat raw
  | .rawToValueOnOff raw                   => 0x47#8 :: putNat raw
  | .rawToValueStatusReturnLevel raw       => 0x48#8 :: putNat raw
  | .rawToValueAlarm raw                   => 0x49#8 :: putNat raw
  | .valueToRawBaudRate v                  => 0x50#8 :: putRat v
  | .valueToRawRDT v                       => 0x51#8 :: putRat v
  | .valueToRawAngle v                     => 0x52#8 :: putRat v
  | .valueToRawVoltage v                   => 0x53#8 :: putRat v
  | .valueToRawTemperature v               => 0x54#8 :: putRat v
  | .valueToRawAngularVelocity v           => 0x55#8 :: putRat v
  | .valueToRawLoad v                      => 0x56#8 :: putLoad v
  | .valueToRawOnOff v                     => [0x57#8, onOffCode v]
  | .valueToRawStatusReturnLevel v         => [0x58#8, levelCode v]
  | .valueToRawAlarm v                     => [0x59#8, errBitsCode v]
  | .rawToStrBaudRate raw                  => 0x60#8 :: putNat raw
  | .rawToStrRDT raw                       => 0x61#8 :: putNat raw
  | .rawToStrAngle raw                     => 0x62#8 :: putNat raw
  | .rawToStrVoltage raw                   => 0x63#8 :: putNat raw
  | .rawToStrTemperature raw               => 0x64#8 :: putNat raw
  | .rawToStrAngularVelocity raw           => 0x65#8 :: putNat raw
  | .rawToStrLoad raw                      => 0x66#8 :: putNat raw
  | .rawToStrOnOff raw                     => 0x67#8 :: putNat raw
  | .rawToStrStatusReturnLevel raw         => 0x68#8 :: putNat raw
  | .rawToStrAlarm raw                     => 0x69#8 :: putNat raw
  | .strToRawBaudRate text                 => 0x70#8 :: putData text
  | .strToRawRDT text                      => 0x71#8 :: putData text
  | .strToRawAngle text                    => 0x72#8 :: putData text
  | .strToRawVoltage text                  => 0x73#8 :: putData text
  | .strToRawTemperature text              => 0x74#8 :: putData text
  | .strToRawAngularVelocity text          => 0x75#8 :: putData text
  | .strToRawLoad text                     => 0x76#8 :: putData text
  | .strToRawOnOff text                    => 0x77#8 :: putData text
  | .strToRawStatusReturnLevel text        => 0x78#8 :: putData text
  | .strToRawAlarm text                    => 0x79#8 :: putData text

end Sys2Proof
end

