-- ==== Sys2Proof/Machine/Fetch.lean ====
section
/-! DEFINITION. Who moves next, and how the host's next operation is taken from the `HC` port. -/

namespace Sys2Proof.Machine

/-- Who makes the next move: the head of `turns`; when none is listed, the wire while a status frame is awaited and
the host otherwise, which is the serialised host of 10_state.md R29 (log 5). -/
def nextAgent (s : State) : Agent :=
  match s.ports.turns with
  | a :: _ => a
  | []     =>
      match s.arb.phase with
      | .await => .wire
      | .idle  => .host

/-- The move is made. -/
def takeTurn (s : State) : State := { s with ports := { s.ports with turns := s.ports.turns.tail } }

/-- The wire's move: the answer to a pull where one is outstanding (42_transport.md R124), else nothing the block
notices (60_exceptions.md R215). -/
def wireMove (s : State) : Out :=
  match s.arb.phase with
  | .await => receiveStep s
  | .idle  => .next s

/-- What the host port holds. -/
inductive Offer
  | nothing
  | operation (i : Instr) (s : State)
  | bad (why : Refusal)

/-- Take the next operation from the host port (R26): a selector R77 does not list is refused by that name, bytes
that open an operation and encode none by the model's own (log 4). -/
def fetch (s : State) : Offer :=
  match decode s.ports.hc with
  | .ok (i, rest)              => .operation i { s with ports := { s.ports with hc := rest } }
  | .error .empty              => .nothing
  | .error .unknownOperation   => .bad .unknownOperation
  | .error .truncated          => .bad .malformedOperands
  | .error .badOperand         => .bad .malformedOperands
  | .error .badRegister        => .bad .malformedOperands
  | .error .badSyncLayout      => .bad .malformedOperands

end Sys2Proof.Machine
end

