-- ==== Sys2Proof/Machine/Step.lean ====
section
/-! DEFINITION. One step of the machine: one host operation, or one receive event (00_scope.md R5). -/

namespace Sys2Proof.Machine

/-- One step. With nothing offered on the host port the block stays as it is. -/
def step (s : State) : Host.Outcome State Fault Refusal :=
  match nextAgent s with
  | .wire => wireMove (takeTurn s)
  | .host =>
      match fetch (takeTurn s) with
      | .nothing        => .next (takeTurn s)
      | .operation i s' => exec i s'
      | .bad why        => .refused why

/-- `s` with a table word offered on the host port and the host's move next. -/
def State.withFetchWord (s : State) (nbits w : Nat) : State :=
  { s with ports := { s.ports with hc := tableBytes nbits w, turns := .host :: s.ports.turns } }

end Sys2Proof.Machine
end

