-- ==== Sys2Proof/Machine/RegTable.lean ====
section
/-! DEFINITION. The device-type table's two lookups and the invariant its loader must establish
(10_state.md R22). The block reads the table through the host's lookups only, and writes it never (R20). -/

namespace Sys2Proof.Machine

/-- The register definition at an offset. -/
def regByOffset (t : DeviceType) (offset : Byte) : Option RegDesc :=
  t.regs.find? fun r => r.offset == offset

/-- The register definition of a name. DESIGN CHOICE (log 22): of several registers of one name, which R22 does not
exclude, the first in the table's order. -/
def regByName (t : DeviceType) (name : Text) : Option RegDesc :=
  t.regs.find? fun r => r.name == name

/-- Two registers' byte ranges `[offset, offset + size)` do not intersect (R22). -/
def apart (a b : RegDesc) : Bool :=
  decide (a.offset.toNat + a.size.bytes ≤ b.offset.toNat) || decide (b.offset.toNat + b.size.bytes ≤ a.offset.toNat)

/-- "Registers within one DeviceType occupy disjoint offsets" (R22). -/
def disjointRegs : List RegDesc → Bool
  | []      => true
  | r :: rs => rs.all (apart r) && disjointRegs rs

/-- Every device type of the table satisfies the invariant of R22. -/
def tableWf (tab : List DeviceType) : Bool := tab.all fun t => disjointRegs t.regs

/-- A descriptor that comes from the table, as 70_reset_and_hazards.md R242 (a) requires. -/
def fromTable (tab : List DeviceType) (r : RegDesc) : Bool := tab.any fun t => t.regs.contains r

end Sys2Proof.Machine
end

