-- ==== Sys2Proof/Safety.lean ====
section
/-! DEFINITION. The terms in which claims are made: the closed form of a frame, the states a run can reach, and the
conditions on the host and on the wire. -/

namespace Sys2Proof.Machine

/-- `n` steps, up to the first that has no next state. -/
def steps : Nat → State → Out
  | 0,     s => .next s
  | n + 1, s =>
      match step s with
      | .next t    => steps n t
      | .fault f   => .fault f
      | .refused r => .refused r

/-- The integer sum of a byte sequence (00_scope.md R6 `sum(s)`, "unbounded"). -/
def byteSum (bs : List Byte) : Nat := (bs.map fun b => b.toNat).sum

/-- The bytes a command frame's checksum covers: `id`, `len = len(params) + 2`, `cmd`, parameters (R90, R60). -/
def summedBytes (id command : Byte) (params : List Byte) : List Byte :=
  [id, BitVec.ofNat 8 (params.length + 2), command] ++ params

/-- The command frame on the wire, position by position (30_encoding.md R60). -/
def commandFrame (id command : Byte) (params : List Byte) : List Byte :=
  [0xFF#8, 0xFF#8] ++ summedBytes id command params ++
    [BitVec.ofNat 8 (255 - byteSum (summedBytes id command params) % 256)]

/-- A burst that is a command frame of the spec: no reserved id, at most 253 parameters (R61, R62). -/
def IsCommandFrame (burst : List Byte) : Prop :=
  ∃ id command params, id ≠ 0xFF#8 ∧ params.length ≤ 253 ∧ burst = commandFrame id command params

/-- The state after an accepted operation has emitted its frame (42_transport.md R120, R121). -/
def sent (op : WireOp) (id command : Byte) (params : List Byte) (s : State) : State :=
  { s with
    tx    := { buf := commandFrame id command params
               sum := BitVec.ofNat 8 (byteSum (summedBytes id command params) % 256) }
    arb   := { s.arb with op := op }
    ports := { s.ports with tx := s.ports.tx ++ [commandFrame id command params] } }

/-- The state once a status frame is awaited (42_transport.md R123): all decoder registers cleared. -/
def awaiting (s : State) : State :=
  { s with
    dec := { state := .idle, id := 0#8, length := 0#8, cmd := 0#8, params := [], sum := 0#8 }
    arb := { s.arb with phase := .await } }

/-- The state after a result has been delivered. -/
def delivered (r : Result) (s : State) : State :=
  { s with ports := { s.ports with hr := s.ports.hr ++ [r] } }

/-- The state after an operation to `id` that awaits a status frame unless `id` is BROADCAST (43_device_ops.md R149). -/
def sentUnlessBroadcast (id : Byte) (s : State) : State :=
  if id = 0xFE#8 then delivered (.ok .unit) s else awaiting s

/-- The state after a result ended the transaction (42_transport.md R124). -/
def ended (r : Result) (s : State) : State :=
  delivered r { s with arb := { s.arb with phase := .idle } }

/-- The bytes of a received frame whose checksum is right (30_encoding.md R65, 40_checksum.md R90). -/
def goodStatus (pad : Nat) (id len err : Byte) (params : List Byte) : List Byte :=
  statusBytes pad id len err params (BitVec.ofNat 8 (255 - byteSum ([id, len, err] ++ params) % 256))

/-- No two consecutive 0xFF bytes (41_decoder.md R109). -/
def noPairFF : List Byte → Bool
  | a :: b :: rest => !(a == 0xFF#8 && b == 0xFF#8) && noPairFF (b :: rest)
  | _              => true

/-- The operations that are accepted in `T_IDLE` only (42_transport.md R120): those that use the wire and the
stand-alone decoder operations. -/
def needsIdle : Instr → Bool
  | .framePing _ | .frameRead _ _ _ | .frameWrite _ _ _ | .frameDeferredWrite _ _ _ | .frameAction _
  | .frameReset _ | .frameSyncWrite _ _ _ | .ping _ | .read _ _ _ | .write _ _ _ | .writeDeferred _ _ _ | .action _
  | .reset _ | .readReg _ _ | .writeReg _ _ _ | .writeRegDeferred _ _ _ | .syncWrite _ _ _ | .sendCommand _ _ _
  | .readStatusPacket | .decStep _ | .decReset => true
  | .frameStatus _ _ _ _ _ _ | .cks _ | .checkRange _ _ | .rawToValueBaudRate _ | .rawToValueRDT _
  | .rawToValueAngle _ | .rawToValueVoltage _ | .rawToValueTemperature _ | .rawToValueAngularVelocity _
  | .rawToValueLoad _ | .rawToValueOnOff _ | .rawToValueStatusReturnLevel _ | .rawToValueAlarm _
  | .valueToRawBaudRate _ | .valueToRawRDT _ | .valueToRawAngle _ | .valueToRawVoltage _ | .valueToRawTemperature _
  | .valueToRawAngularVelocity _ | .valueToRawLoad _ | .valueToRawOnOff _ | .valueToRawStatusReturnLevel _
  | .valueToRawAlarm _ | .rawToStrBaudRate _ | .rawToStrRDT _ | .rawToStrAngle _ | .rawToStrVoltage _
  | .rawToStrTemperature _ | .rawToStrAngularVelocity _ | .rawToStrLoad _ | .rawToStrOnOff _
  | .rawToStrStatusReturnLevel _ | .rawToStrAlarm _ | .strToRawBaudRate _ | .strToRawRDT _ | .strToRawAngle _
  | .strToRawVoltage _ | .strToRawTemperature _ | .strToRawAngularVelocity _ | .strToRawLoad _ | .strToRawOnOff _
  | .strToRawStatusReturnLevel _ | .strToRawAlarm _ => false

/-- The errors a host-side check raises: nothing was sent (60_exceptions.md R222, last row). -/
def HostError.hostSide : HostError → Bool
  | .tooMuchData | .rangeError _ _ _ | .malformedLiteral _ | .nonContiguousRun _ => true
  | .timeout | .checksumMismatch | .deviceFault _ => false

/-! ## Sync write -/

/-- A byte-contiguous run: each register starts where the one before it ends (45_sync_write.md R201). -/
def Contiguous (run : List RegDesc) : Prop :=
  ∀ j (h : j + 1 < run.length), run[j + 1].offset.toNat = run[j].offset.toNat + run[j].size.bytes

/-- A raw value inside the declared bounds, where both are declared (R190). -/
def InBounds (r : RegDesc) (raw : Int) : Prop :=
  ∀ lo hi, r.min = some lo → r.max = some hi → lo ≤ raw ∧ raw ≤ hi

/-- `text` is the display string `raw_to_str(T, raw)` of a raw value (44_register_codec.md R184, with the value of R163
to R182), where the type gives the raw value one; where it gives none, any text (log 7). -/
def IsDisplay (t : RegType) (raw : Int) (text : Text) : Prop :=
  match t with
  | .baudRate          => 0 ≤ raw → text = Config.fmt .baudRate (2000000 / ((raw : Rat) + 1))
  | .rdt               => text = Config.fmt .rdt ((raw : Rat) * 2)
  | .angle             => text = Config.fmt .angle ((raw : Rat) * 300 / 1023)
  | .voltage           => text = Config.fmt .voltage ((raw : Rat) / 10)
  | .temperature       => text = Config.fmt .temperature (raw : Rat)
  | .angularVelocity   => text = Config.fmt .angularVelocity ((raw : Rat) * 114 / 1023)
  | .load              => 0 ≤ raw → text =
      Config.fmtLoad { sign := raw.toNat.testBit 10, magnitude := raw.toNat % 1024 }
  | .onOff             => (raw = 0 → text = [111#8, 102#8, 102#8]) ∧ (raw = 1 → text = [111#8, 110#8])
  | .statusReturnLevel => (raw = 0 → text = [110#8, 111#8, 110#8, 101#8]) ∧
      (raw = 1 → text = [114#8, 101#8, 97#8, 100#8]) ∧ (raw = 2 → text = [97#8, 108#8, 108#8])
  | .alarm             => 0 ≤ raw → raw ≤ 255 → text = showAlarm
      { inputVoltage := raw.toNat.testBit 0, angleLimit := raw.toNat.testBit 1, overheating := raw.toNat.testBit 2
        range := raw.toNat.testBit 3, checksum := raw.toNat.testBit 4, overload := raw.toNat.testBit 5
        instruction := raw.toNat.testBit 6, reserved := raw.toNat.testBit 7 }

/-- The error a failing range check raises: the display strings of the value and of both bounds (R190). -/
def RangeErrorFor (r : RegDesc) (raw : Int) (e : HostError) : Prop :=
  ∃ lo hi value low high, r.min = some lo ∧ r.max = some hi ∧ IsDisplay r.type raw value ∧ IsDisplay r.type lo low ∧
    IsDisplay r.type hi high ∧ e = .rangeError value low high

/-- A raw value that has a byte form in a register of that size (20_memory.md R41). -/
abbrev Fits (r : RegDesc) (raw : Int) : Prop := 0 ≤ raw ∧ raw < 256 ^ r.size.bytes

/-- The byte form of a raw value, low byte first (R41). -/
def wireBytes (r : RegDesc) (raw : Int) : List Byte :=
  (List.range r.size.bytes).map fun k => BitVec.ofNat 8 (raw.toNat / 256 ^ k)

/-- The parameters of a sync write (30_encoding.md R67). -/
def syncWriteParams (ids : List Byte) (run : List RegDesc) (values : List (List Int)) : List Byte :=
  [(run.map RegDesc.offset).headD 0#8, BitVec.ofNat 8 ((run.map fun r => r.size.bytes).sum)] ++
    (ids.zip values).flatMap fun lane => lane.1 :: (run.zip lane.2).flatMap fun field => wireBytes field.1 field.2

/-- The conditions of 45_sync_write.md R203 (1 to 3) on the operands' shape. -/
def SyncShape (ids : List Byte) (run : List RegDesc) (values : List (List Int)) : Prop :=
  ids ≠ [] ∧ run ≠ [] ∧ values.length = ids.length ∧ (∀ vs ∈ values, vs.length = run.length) ∧
    ∀ id ∈ ids, id ≠ 0xFE#8 ∧ id ≠ 0xFF#8

/-- `2 + N·(L+1)`, the number of parameters of a sync write (R203). -/
def syncSize (ids : List Byte) (run : List RegDesc) : Nat :=
  2 + ids.length * ((run.map fun r => r.size.bytes).sum + 1)

/-! ## The states a run can reach -/

/-- What the decoder registers hold in each state of the framer (41_decoder.md R101 to R106, R108): nothing before the
id, and from the id on the running sum of the fields received (10_state.md R11). -/
def DecRegs.Inv (d : DecRegs) : Prop :=
  match d.state with
  | .idle       => d.params.length = d.length.toNat - 2
  | .firstFF    => d.id = 0#8 ∧ d.length = 0#8 ∧ d.params = []
  | .secondFF   => d.id = 0#8 ∧ d.length = 0#8 ∧ d.params = []
  | .idRcvd     => d.id ≠ 0xFF#8 ∧ d.length = 0#8 ∧ d.params = [] ∧ d.sum = d.id
  | .lengthRcvd => d.id ≠ 0xFF#8 ∧ d.params = [] ∧ d.sum = d.id + d.length
  | .cmdRcvd    => d.id ≠ 0xFF#8 ∧ d.params.length ≤ d.length.toNat - 2 ∧
                   d.sum = BitVec.ofNat 8 (byteSum ([d.id, d.length, d.cmd] ++ d.params))

/-- The transmit registers hold the last burst emitted, verbatim (60_exceptions.md R232), and its running sum; at
power-on nothing (R27). Every burst emitted is a command frame. -/
def State.TxInv (s : State) : Prop :=
  (∀ burst ∈ s.ports.tx, IsCommandFrame burst) ∧
  ((s.ports.tx = [] ∧ s.tx.buf = [] ∧ s.tx.sum = 0#8) ∨
   (s.ports.tx.getLast? = some s.tx.buf ∧ ∃ id command params, id ≠ 0xFF#8 ∧ params.length ≤ 253 ∧
      s.tx.buf = commandFrame id command params ∧
      s.tx.sum = BitVec.ofNat 8 (byteSum (summedBytes id command params))))

/-- The operations that await a status frame (43_device_ops.md R149). -/
def WireOp.awaits : WireOp → Bool
  | .sendCommand | .action | .syncWrite => false
  | .readStatusPacket | .ping | .read | .readReg _ | .write | .writeDeferred | .writeReg | .writeRegDeferred
  | .reset => true

/-- The invariant of the block. -/
structure State.Inv (s : State) : Prop where
  dec : s.dec.Inv
  tx  : s.TxInv
  arb : s.arb.phase = .await → s.arb.op.awaits = true

/-- The host is the serialised one of 10_state.md R29: no move out of turn is listed. -/
def State.Serial (s : State) : Prop := s.ports.turns = []

end Sys2Proof.Machine
end

