-- ==== Sys2Proof/Certificates/Slice0/Obligations.lean ====
section
/-! DEFINITION. The statements for the provers. Each docstring names the rules of spec/ it formalises; free values
(the environment's answers, the open display and parse functions) stand in them for every value they may have. -/

open Sys2Proof Sys2Proof.Machine

/-! ## Reset and the whole machine -/

/-- R27, power-on column: the decoder, transmit and phase registers. (`arb.op`, the ports and the configuration at
reset are the model's choice, log 1, and are not stated.) -/
def Obligations.ResetHoldsPowerOnValues : Prop :=
  State.reset.dec.state = .idle ∧ State.reset.dec.id = 0#8 ∧ State.reset.dec.length = 0#8 ∧
  State.reset.dec.cmd = 0#8 ∧ State.reset.dec.params = [] ∧ State.reset.dec.sum = 0#8 ∧
  State.reset.tx.buf = [] ∧ State.reset.tx.sum = 0#8 ∧ State.reset.arb.phase = .idle

/-- The invariant holds at power-on. -/
def Obligations.ResetSatisfiesInv : Prop := State.reset.Inv

/-- The invariant of the block is kept by every step from every state that has it: the registers of the framer agree
with its position (R11, R101 to R106), the transmit buffer is the last burst verbatim (R232), every burst is a command
frame (R60 to R62), and only an operation that awaits a status frame is in `T_AWAIT` (R13, R149). -/
def Obligations.StepKeepsInv : Prop :=
  ∀ s t : State, s.Inv → step s = .next t → t.Inv

/-- R20: the configuration is "never written by any rule of this spec". -/
def Obligations.StepNeverWritesConfig : Prop :=
  ∀ s t : State, step s = .next t → t.cfg = s.cfg

/-- R131, R49, R215: the block never transmits in `T_AWAIT` and never pulls in `T_IDLE`; a step emits at most one
burst, which is a whole command frame, and no step both emits and pulls. -/
def Obligations.StepIsHalfDuplex : Prop :=
  ∀ s t : State, step s = .next t →
    (s.arb.phase = .await → t.ports.tx = s.ports.tx) ∧
    (s.arb.phase = .idle → t.ports.pulls = s.ports.pulls) ∧
    (t.ports.tx = s.ports.tx ∨ ∃ burst, IsCommandFrame burst ∧ t.ports.tx = s.ports.tx ++ [burst])

/-- R92: for every frame the block emits, the bytes after the preamble, the checksum included, sum to 0xFF. -/
def Obligations.EveryBurstSumsToFF : Prop :=
  ∀ s t : State, ∀ burst, step s = .next t → t.ports.tx = s.ports.tx ++ [burst] → byteSum (burst.drop 2) % 256 = 255

/-- R18, R222, R223, under a serialised host: a step delivers at most one result; an error leaves the block in
`T_IDLE`, and a host-side error leaves decoder, transmit registers and wire untouched; an error of the bus leaves the
transmit registers and the wire as they are, the command frame having been sent before. A host without listed turns is
the serialised one (log 5). -/
def Obligations.ErrorsLeaveTheBlockReady : Prop :=
  ∀ s t : State, s.Serial → step s = .next t →
    (t.ports.hr = s.ports.hr ∨ ∃ r, t.ports.hr = s.ports.hr ++ [r]) ∧
    ∀ e, t.ports.hr = s.ports.hr ++ [.err e] →
      t.arb.phase = .idle ∧ t.tx = s.tx ∧ t.ports.tx = s.ports.tx ∧
      (e.hostSide = true → t.dec = s.dec ∧ t.ports.rx = s.ports.rx)

/-- R120: in `T_AWAIT` every operation that uses the wire, and the stand-alone decoder operations, are refused. A
frame as an operation is the model's choice (log 3). The refusal is the spec's decision D16. -/
def Obligations.BusyOperationsAreRefused : Prop :=
  ∀ (i : Instr) (s : State), needsIdle i = true → s.arb.phase = .await → exec i s = .refused .busy

/-! ## Encodings -/

/-- Decoding undoes encoding, for every well-formed instruction, whatever follows it. The operand bytes after a
selector are the model's choice (log 4), and so is the frame on the host port (log 3). -/
def Obligations.DecodeUndoesEncode : Prop :=
  ∀ (i : Instr) (rest : List Byte), i.wf = true → decode (encode i ++ rest) = .ok (i, rest)

/-- The decoder yields well-formed instructions only. The operand bytes after a selector are the model's choice (log
4). So is the frame on the host port: a command-like header without padding read as the command, a short `len` read as
no data, and which header a STATUS frame may have (log 3). -/
def Obligations.DecodedIsWellFormed : Prop :=
  ∀ (bs rest : List Byte) (i : Instr), decode bs = .ok (i, rest) → i.wf = true

/-- R70: no header word is selected by the rows of two commands. -/
def Obligations.HeaderRowsNeverOverlap : Prop :=
  ∀ (h : BitVec 40) (c d : Cmd), c.selects h = true → d.selects h = true → c = d

/-- The worked encodings of R78 and selectors of R77. A command frame is written without its checksum byte, which the
block computes (R68, log 3); the bytes after a selector are the model's own operand encoding (log 4). -/
def Obligations.SpecWordsDecode : Prop :=
  decode [0xFF#8, 0xFF#8, 0x0F#8, 0x02#8, 0x01#8] = .ok (.framePing 15#8, []) ∧
  decode [0xFF#8, 0xFF#8, 0x01#8, 0x04#8, 0x02#8, 0x00#8, 0x03#8] = .ok (.frameRead 1#8 0#8 3#8, []) ∧
  decode [0xFF#8, 0xFF#8, 0xFE#8, 0x02#8, 0x05#8] = .ok (.frameAction 0xFE#8, []) ∧
  decode [0xFF#8, 0xFF#8, 0x01#8, 0x05#8, 0x00#8, 0x0C#8, 0x00#8, 0x16#8, 0xD7#8] =
    .ok (.frameStatus 0 1#8 5#8 0#8 [0x0C#8, 0x00#8, 0x16#8] 0xD7#8, []) ∧
  decode [0x01#8, 0x0F#8] = .ok (.ping 15#8, []) ∧ decode [0x21#8] = .ok (.readStatusPacket, []) ∧
  decode [0x22#8, 0x37#8] = .ok (.decStep 0x37#8, [])

/-- R77: "Any other `op_sel` value" is refused as an unknown operation (the pair FF FF opens a wire frame, log 3). -/
def Obligations.UnlistedSelectorIsRefused : Prop :=
  ∀ (s : State) (sel : Byte) (bs : List Byte), nextAgent s = .host → s.ports.hc = sel :: bs →
    ¬ (sel = 0xFF#8 ∧ bs.head? = some 0xFF#8) →
    sel ∉ [0x01#8, 0x02#8, 0x03#8, 0x04#8, 0x05#8, 0x06#8, 0x12#8, 0x13#8, 0x14#8, 0x83#8, 0x20#8, 0x21#8, 0x22#8,
           0x23#8, 0x24#8, 0x3F#8] →
    (∀ k, k < 10 → sel ≠ BitVec.ofNat 8 (0x40 + k) ∧ sel ≠ BitVec.ofNat 8 (0x50 + k) ∧
                    sel ≠ BitVec.ofNat 8 (0x60 + k) ∧ sel ≠ BitVec.ofNat 8 (0x70 + k)) →
    step s = .refused .unknownOperation

/-- A step runs the instruction the host port opens with: its bytes are taken, the move is made, and the rest is the
meaning of the instruction. That operations stand as bytes on `hc` and are taken one after another (logs 4 and 6), and
that a listed turn is used up (log 5), are the model's choices; a frame on the port is log 3. -/
def Obligations.StepRunsDecodedInstruction : Prop :=
  ∀ (s : State) (i : Instr) (rest : List Byte), nextAgent s = .host → decode s.ports.hc = .ok (i, rest) →
    step s = exec i { s with ports := { s.ports with hc := rest, turns := s.ports.turns.tail } }

/-- A table word offered with `withFetchWord` is the very next instruction. The offer is the model's stand-in for a
host (log 6). -/
def Obligations.FetchWordRunsNext : Prop :=
  ∀ (s : State) (nbits w : Nat) (i : Instr), decodeTableWord nbits w = some i →
    ∃ rest, step (s.withFetchWord nbits w) = exec i { s with ports := { s.ports with hc := rest } }

/-! ## Checksum -/

/-- R90: `cks(s) = 255 − (sum(s) mod 256)`, a byte delivered at any time, nothing else changed. That it is answered in
`T_AWAIT` too is the model's choice (log 23). -/
def Obligations.CksDeliversChecksum : Prop :=
  ∀ (bytes : List Byte) (s : State),
    exec (.cks bytes) s = .next (delivered (.ok (.byte (BitVec.ofNat 8 (255 - byteSum bytes % 256)))) s)

/-! ## Decoder -/

/-- R101. That cmd and sum stay is the spec's decision D32. -/
def Obligations.DecStepInIdle : Prop :=
  ∀ (b : Byte) (s : State), s.arb.phase = .idle → s.dec.state = .idle →
    exec (.decStep b) s = .next (delivered (.ok (.status .notDone))
      { s with dec := { s.dec with id := 0#8, length := 0#8, params := [],
                                   state := if b = 0xFF#8 then .firstFF else .idle } })

/-- R102. -/
def Obligations.DecStepInFirstFF : Prop :=
  ∀ (b : Byte) (s : State), s.arb.phase = .idle → s.dec.state = .firstFF →
    exec (.decStep b) s = .next (delivered (.ok (.status .notDone))
      { s with dec := { s.dec with state := if b = 0xFF#8 then .secondFF else .idle } })

/-- R103. -/
def Obligations.DecStepInSecondFF : Prop :=
  ∀ (b : Byte) (s : State), s.arb.phase = .idle → s.dec.state = .secondFF →
    exec (.decStep b) s = .next (delivered (.ok (.status .notDone))
      { s with dec := if b = 0xFF#8 then s.dec else { s.dec with id := b, sum := b, state := .idRcvd } })

/-- R104, R105. -/
def Obligations.DecStepInIdAndLengthRcvd : Prop :=
  ∀ (b : Byte) (s : State), s.arb.phase = .idle →
    (s.dec.state = .idRcvd → exec (.decStep b) s = .next (delivered (.ok (.status .notDone))
      { s with dec := { s.dec with length := b, sum := BitVec.ofNat 8 ((s.dec.sum.toNat + b.toNat) % 256),
                                   state := .lengthRcvd } })) ∧
    (s.dec.state = .lengthRcvd → exec (.decStep b) s = .next (delivered (.ok (.status .notDone))
      { s with dec := { s.dec with cmd := b, sum := BitVec.ofNat 8 ((s.dec.sum.toNat + b.toNat) % 256),
                                   params := [], state := .cmdRcvd } }))

/-- R106: the two arms of `CMD_RCVD`. A length of 0 or 1 read as no parameters is the spec's decision D6. -/
def Obligations.DecStepInCmdRcvd : Prop :=
  ∀ (b : Byte) (s : State), s.arb.phase = .idle → s.dec.state = .cmdRcvd →
    (s.dec.params.length + 2 ≥ s.dec.length.toNat →
      exec (.decStep b) s = .next (delivered
        (.ok (.status (if b.toNat = 255 - s.dec.sum.toNat then .none else .checksum)))
        { s with dec := { s.dec with state := .idle } })) ∧
    (s.dec.params.length + 2 < s.dec.length.toNat →
      exec (.decStep b) s = .next (delivered (.ok (.status .notDone))
        { s with dec := { s.dec with params := s.dec.params ++ [b],
                                     sum := BitVec.ofNat 8 ((s.dec.sum.toNat + b.toNat) % 256) } }))

/-- R108: `dec_reset`, stand-alone, at power-on, and at the start of every `read_status_packet`. That the state
register is cleared too is the spec's decision D8. The payload `Ok(())` is the model's choice (log 21). -/
def Obligations.DecResetClearsDecoder : Prop :=
  ∀ s : State, s.arb.phase = .idle →
    exec .decReset s = .next (delivered (.ok .unit)
      { s with dec := { state := .idle, id := 0#8, length := 0#8, cmd := 0#8, params := [], sum := 0#8 } }) ∧
    State.reset.dec = { state := .idle, id := 0#8, length := 0#8, cmd := 0#8, params := [], sum := 0#8 } ∧
    ∃ t, exec .readStatusPacket s = .next t ∧
      t.dec = { state := .idle, id := 0#8, length := 0#8, cmd := 0#8, params := [], sum := 0#8 }

/-- R113, R110, R111, R112: a whole received frame, with any padding, any length byte and any parameters, takes
`2 + p + 3 + max(n − 2, 0) + 1` steps from `IDLE`; only the last returns a verdict, which is the checksum's; the
fields stay readable (R19). Bytes 0xFF among the parameters are parameters. -/
def Obligations.WholeFrameVerdict : Prop :=
  ∀ (d : DecRegs) (pad : Nat) (id len cmd : Byte) (params : List Byte) (c : Byte),
    d.state = .idle → id ≠ 0xFF#8 → params.length = len.toNat - 2 →
    (statusBytes pad id len cmd params c).length = 2 + pad + 3 + (len.toNat - 2) + 1 ∧
    decBytes (statusBytes pad id len cmd params c) d =
      (List.replicate (2 + pad + 3 + (len.toNat - 2)) .notDone ++
        [if c.toNat = 255 - byteSum ([id, len, cmd] ++ params) % 256 then .none else .checksum],
       { state := .idle, id := id, length := len, cmd := cmd, params := params,
         sum := BitVec.ofNat 8 (byteSum ([id, len, cmd] ++ params) % 256) })

/-- R79: decoding an encoded command frame reproduces its id, command and parameters, for every valid frame, the
frame being the very burst `send_command` emits. -/
def Obligations.EmittedFrameDecodesBack : Prop :=
  ∀ (s : State) (d : DecRegs) (id command : Byte) (params : List Byte),
    s.arb.phase = .idle → d.state = .idle → id ≠ 0xFF#8 → params.length ≤ 253 →
    ∃ t burst, exec (.sendCommand id command params) s = .next t ∧ t.ports.tx = s.ports.tx ++ [burst] ∧
      (decBytes burst d).1 = List.replicate (burst.length - 1) .notDone ++ [.none] ∧
      (decBytes burst d).2.id = id ∧ (decBytes burst d).2.cmd = command ∧ (decBytes burst d).2.params = params

/-- R109: from `IDLE`, and from `FIRST_FF` before a byte other than 0xFF, a stream without two adjacent 0xFF bytes
yields `NOT_DONE` only and ends in `IDLE` or `FIRST_FF`. -/
def Obligations.NoVerdictWithoutPreamble : Prop :=
  ∀ (bs : List Byte) (d : DecRegs), noPairFF bs = true →
    d.state = .idle ∨ (d.state = .firstFF ∧ bs.head? ≠ some 0xFF#8) →
    (∀ st ∈ (decBytes bs d).1, st = .notDone) ∧
    ((decBytes bs d).2.state = .idle ∨ (decBytes bs d).2.state = .firstFF)

/-- R93: a single-bit error in a parameter, in the id (one that stays an id), in the command byte or in the checksum
byte of an otherwise good frame, with or without parameters and whatever its padding, yields `CHECKSUM`. -/
def Obligations.SingleBitErrorIsDetected : Prop :=
  ∀ (d : DecRegs) (pad : Nat) (id len cmd : Byte) (params : List Byte) (k : Nat),
    d.state = .idle → id ≠ 0xFF#8 → k < 8 → params.length = len.toNat - 2 →
    let c : Byte := BitVec.ofNat 8 (255 - byteSum ([id, len, cmd] ++ params) % 256)
    let flip : Byte := BitVec.ofNat 8 (2 ^ k)
    (∀ (p q : List Byte) (b : Byte), params = p ++ b :: q →
      (decBytes (statusBytes pad id len cmd (p ++ (b ^^^ flip) :: q) c) d).1.getLast? = some .checksum) ∧
    (id ^^^ flip ≠ 0xFF#8 →
      (decBytes (statusBytes pad (id ^^^ flip) len cmd params c) d).1.getLast? = some .checksum) ∧
    (decBytes (statusBytes pad id len (cmd ^^^ flip) params c) d).1.getLast? = some .checksum ∧
    (decBytes (statusBytes pad id len cmd params (c ^^^ flip)) d).1.getLast? = some .checksum

/-! ## Transport -/

/-- R121, R122: the frame is emitted as one burst, for any command byte. -/
def Obligations.SendCommandEmitsFrame : Prop :=
  ∀ (id command : Byte) (params : List Byte) (s : State),
    s.arb.phase = .idle → id ≠ 0xFF#8 → params.length ≤ 253 →
    exec (.sendCommand id command params) s = .next (delivered (.ok .unit) (sent .sendCommand id command params s))

/-- R122: the checks before sending, in their order; `arb.op` names the operation (R120). (log 10; the checks are the
spec's decisions D7 and D15.) -/
def Obligations.SendCommandChecks : Prop :=
  ∀ (id command : Byte) (params : List Byte) (s : State), s.arb.phase = .idle →
    (id = 0xFF#8 → exec (.sendCommand id command params) s = .refused .invalidId) ∧
    (id ≠ 0xFF#8 → 253 < params.length →
      exec (.sendCommand id command params) s =
        .next (delivered (.err .tooMuchData) { s with arb := { s.arb with op := .sendCommand } }))

/-- R150, R122, R221: the id 0xFF, "never a legal id", is refused by every operation with a destination, before its
data is looked at; a register-level write validates its value first. A frame as an operation is the model's choice (log
3). The refusal is the spec's decision D15. -/
def Obligations.InvalidIdIsRefused : Prop :=
  ∀ (command offset length : Byte) (data : List Byte) (reg : RegDesc) (raw : Int) (s : State), s.arb.phase = .idle →
    exec (.sendCommand 0xFF#8 command data) s = .refused .invalidId ∧
    exec (.ping 0xFF#8) s = .refused .invalidId ∧ exec (.framePing 0xFF#8) s = .refused .invalidId ∧
    exec (.read 0xFF#8 offset length) s = .refused .invalidId ∧
    exec (.frameRead 0xFF#8 offset length) s = .refused .invalidId ∧
    exec (.write 0xFF#8 offset data) s = .refused .invalidId ∧
    exec (.frameWrite 0xFF#8 offset data) s = .refused .invalidId ∧
    exec (.writeDeferred 0xFF#8 offset data) s = .refused .invalidId ∧
    exec (.frameDeferredWrite 0xFF#8 offset data) s = .refused .invalidId ∧
    exec (.action 0xFF#8) s = .refused .invalidId ∧ exec (.frameAction 0xFF#8) s = .refused .invalidId ∧
    exec (.reset 0xFF#8) s = .refused .invalidId ∧ exec (.frameReset 0xFF#8) s = .refused .invalidId ∧
    exec (.readReg 0xFF#8 reg) s = .refused .invalidId ∧
    (InBounds reg raw → Fits reg raw →
      exec (.writeReg 0xFF#8 reg raw) s = .refused .invalidId ∧
      exec (.writeRegDeferred 0xFF#8 reg raw) s = .refused .invalidId)

/-- R123: the decoder is reset and the read begins; nothing is flushed on the receive side. Not flushing is the spec's
decision D9. -/
def Obligations.ReadStatusPacketStarts : Prop :=
  ∀ s : State, s.arb.phase = .idle →
    exec .readStatusPacket s = .next (awaiting { s with arb := { s.arb with op := .readStatusPacket } })

/-- R124, R125: one receive event of `read_status_packet`, classified. -/
def Obligations.ReceiveEventClassified : Prop :=
  ∀ (s : State) (ev : RxEvent) (rest : List RxEvent),
    s.Serial → s.arb.phase = .await → s.arb.op = .readStatusPacket → s.ports.rx = ev :: rest →
    let u : State := { s with ports := { s.ports with rx := rest, pulls := s.ports.pulls + 1 } }
    (ev = .noByte → step s = .next (ended (.err .timeout) u)) ∧
    ∀ b, ev = .byte b →
      let v : State := { u with dec := (decByte b s.dec).2 }
      ((decByte b s.dec).1 = .notDone → step s = .next v) ∧
      ((decByte b s.dec).1 = .checksum → step s = .next (ended (.err .checksumMismatch) v)) ∧
      ((decByte b s.dec).1 = .none → v.dec.cmd ≠ 0#8 → step s = .next (ended (.err (.deviceFault v.dec.cmd)) v)) ∧
      ((decByte b s.dec).1 = .none → v.dec.cmd = 0#8 → step s = .next (ended
        (.ok (.frame { id := v.dec.id, length := v.dec.length, cmd := v.dec.cmd, params := v.dec.params })) v))

/-- R128, R211: a read ends, at the latest with the first `NoByte`, however the bytes before it run; the one ending
that is no result is `read_reg`'s refusal of a response of another length (R143). -/
def Obligations.ReadEndsByNoByte : Prop :=
  ∀ (s : State) (bytes : List Byte) (rest : List RxEvent),
    s.Serial → s.arb.phase = .await → s.ports.rx = bytes.map .byte ++ .noByte :: rest →
    ∃ n, n ≤ bytes.length + 1 ∧
      ((∃ t, steps n s = .next t ∧ t.arb.phase = .idle) ∨
       (steps n s = .refused .responseLengthMismatch ∧ ∃ size, s.arb.op = .readReg size))

/-- U3, R110, R252: a stream of 0xFF bytes never ends a read, neither one that begins (R123: in `IDLE`) nor one that has
seen a part of the preamble: while only such bytes come, the block stays in `T_AWAIT`, and the decoder goes to
`SECOND_FF` and stays there. -/
def Obligations.PaddingNeverEndsARead : Prop :=
  ∀ (s : State) (n : Nat) (rest : List RxEvent),
    s.Serial → s.arb.phase = .await → s.ports.rx = List.replicate n (.byte 0xFF#8) ++ rest →
    let u : State := { s with ports := { s.ports with rx := rest, pulls := s.ports.pulls + n } }
    (s.dec.state = .secondFF → steps n s = .next u) ∧
    (s.dec.state = .firstFF → 1 ≤ n → steps n s = .next { u with dec := { s.dec with state := .secondFF } }) ∧
    (s.dec.state = .idle → n = 1 → steps n s =
      .next { u with dec := { s.dec with id := 0#8, length := 0#8, params := [], state := .firstFF } }) ∧
    (s.dec.state = .idle → 2 ≤ n → steps n s =
      .next { u with dec := { s.dec with id := 0#8, length := 0#8, params := [], state := .secondFF } })

/-- R64, R124, R251, R215: a STATUS frame that arrives outside a transaction waits, unread; while a status frame is
awaited, with nothing older unread, it is pulled whole and ends the read with the result of its checksum and its
error byte. A frame as an operation is the model's choice (log 3). -/
def Obligations.StatusFrameArrives : Prop :=
  ∀ (pad : Nat) (id len err : Byte) (params : List Byte) (c : Byte) (s : State),
    (s.arb.phase = .idle → exec (.frameStatus pad id len err params c) s =
      .next { s with ports := { s.ports with
        rx := s.ports.rx ++ (statusBytes pad id len err params c).map .byte } }) ∧
    (s.arb.phase = .await → s.arb.op = .readStatusPacket → s.dec.state = .idle → s.ports.rx = [] →
      id ≠ 0xFF#8 → params.length = len.toNat - 2 →
      exec (.frameStatus pad id len err params c) s = .next (ended
        (if c.toNat ≠ 255 - byteSum ([id, len, err] ++ params) % 256 then .err .checksumMismatch
         else if err ≠ 0#8 then .err (.deviceFault err)
         else .ok (.frame { id := id, length := len, cmd := err, params := params }))
        { s with
          dec := { state := .idle, id := id, length := len, cmd := err, params := params,
                   sum := BitVec.ofNat 8 (byteSum ([id, len, err] ++ params) % 256) }
          ports := { s.ports with pulls := s.ports.pulls + (6 + pad + params.length) } }))

/-! ## Device operations -/

/-- R141, R142, R149: `ping` and `read` send their command and await a status frame, whatever the id; so do the PING
and READ frames (R71). The parameter layouts are R66's. A frame as an operation is the model's choice (log 3). The
parameter layouts are the spec's decision D12, awaiting a BROADCAST reply D13. -/
def Obligations.PingAndReadSendAndAwait : Prop :=
  ∀ (id offset length : Byte) (s : State), s.arb.phase = .idle → id ≠ 0xFF#8 →
    exec (.ping id) s = .next (awaiting (sent .ping id 0x01#8 [] s)) ∧
    exec (.framePing id) s = .next (awaiting (sent .ping id 0x01#8 [] s)) ∧
    exec (.read id offset length) s = .next (awaiting (sent .read id 0x02#8 [offset, length] s)) ∧
    exec (.frameRead id offset length) s = .next (awaiting (sent .read id 0x02#8 [offset, length] s))

/-- R145, R149: `write` sends WRITE or DEFERRED_WRITE with `[offset] ++ data` and awaits unless the id is BROADCAST;
more than 252 data bytes raise `TooMuchData` and nothing is sent. So do the WRITE and DEFERRED_WRITE frames (R71). A
frame as an operation is the model's choice (log 3). `arb.op` after the error: log 10. The layouts are D12. -/
def Obligations.WriteSendsAndAwaitsUnlessBroadcast : Prop :=
  ∀ (id offset : Byte) (data : List Byte) (s : State), s.arb.phase = .idle → id ≠ 0xFF#8 →
    (data.length ≤ 252 →
      exec (.write id offset data) s = .next (sentUnlessBroadcast id (sent .write id 0x03#8 (offset :: data) s)) ∧
      exec (.frameWrite id offset data) s = .next (sentUnlessBroadcast id (sent .write id 0x03#8 (offset :: data) s)) ∧
      exec (.writeDeferred id offset data) s =
        .next (sentUnlessBroadcast id (sent .writeDeferred id 0x04#8 (offset :: data) s)) ∧
      exec (.frameDeferredWrite id offset data) s =
        .next (sentUnlessBroadcast id (sent .writeDeferred id 0x04#8 (offset :: data) s))) ∧
    (252 < data.length →
      exec (.write id offset data) s =
        .next (delivered (.err .tooMuchData) { s with arb := { s.arb with op := .write } }) ∧
      exec (.frameWrite id offset data) s =
        .next (delivered (.err .tooMuchData) { s with arb := { s.arb with op := .write } }) ∧
      exec (.writeDeferred id offset data) s =
        .next (delivered (.err .tooMuchData) { s with arb := { s.arb with op := .writeDeferred } }) ∧
      exec (.frameDeferredWrite id offset data) s =
        .next (delivered (.err .tooMuchData) { s with arb := { s.arb with op := .writeDeferred } }))

/-- R147, R148, R149: `reset` awaits unless the id is BROADCAST; `action` never awaits, whatever the id. So do the
RESET and ACTION frames (R71). A frame as an operation is the model's choice (log 3). The layouts are D12. -/
def Obligations.ResetAndActionSend : Prop :=
  ∀ (id : Byte) (s : State), s.arb.phase = .idle → id ≠ 0xFF#8 →
    exec (.reset id) s = .next (sentUnlessBroadcast id (sent .reset id 0x06#8 [] s)) ∧
    exec (.frameReset id) s = .next (sentUnlessBroadcast id (sent .reset id 0x06#8 [] s)) ∧
    exec (.action id) s = .next (delivered (.ok .unit) (sent .action id 0x05#8 [] s)) ∧
    exec (.frameAction id) s = .next (delivered (.ok .unit) (sent .action id 0x05#8 [] s))

/-- R143, R45: `read_reg` sends one READ of `size` bytes and awaits. That the size is kept in `arb.op` is the model's
choice (log 20). -/
def Obligations.ReadRegSendsOneRead : Prop :=
  ∀ (id : Byte) (reg : RegDesc) (s : State), s.arb.phase = .idle → id ≠ 0xFF#8 →
    exec (.readReg id reg) s = .next (awaiting (sent (.readReg reg.size) id 0x02#8
      [reg.offset, match reg.size with | .one => 1#8 | .two => 2#8] s))

/-- R146, R190, R41: a raw value inside its bounds that fits its register is written as its bytes, low byte first. -/
def Obligations.WriteRegSendsTheBytes : Prop :=
  ∀ (id : Byte) (reg : RegDesc) (raw : Int) (s : State), s.arb.phase = .idle → id ≠ 0xFF#8 →
    InBounds reg raw → Fits reg raw →
    exec (.writeReg id reg raw) s =
      .next (sentUnlessBroadcast id (sent .writeReg id 0x03#8 (reg.offset :: wireBytes reg raw) s)) ∧
    exec (.writeRegDeferred id reg raw) s =
      .next (sentUnlessBroadcast id (sent .writeRegDeferred id 0x04#8 (reg.offset :: wireBytes reg raw) s))

/-- R146, R191, R221: the range check comes first and nothing is sent; then a raw value that does not fit is refused.
The three display strings of the error are free values (log 7) or values of the open `fmt_T`. `arb.op` after the
error: log 10. -/
def Obligations.WriteRegValidatesFirst : Prop :=
  ∀ (id : Byte) (reg : RegDesc) (raw : Int) (s : State), s.arb.phase = .idle →
    (¬ InBounds reg raw → ∃ e, RangeErrorFor reg raw e ∧
      exec (.writeReg id reg raw) s =
        .next (delivered (.err e) { s with arb := { s.arb with op := .writeReg } }) ∧
      exec (.writeRegDeferred id reg raw) s =
        .next (delivered (.err e) { s with arb := { s.arb with op := .writeRegDeferred } })) ∧
    (InBounds reg raw → ¬ Fits reg raw →
      exec (.writeReg id reg raw) s = .refused .rawDoesNotFit ∧
      exec (.writeRegDeferred id reg raw) s = .refused .rawDoesNotFit)

/-- R140 to R147: what each awaiting operation delivers when its read ends, here at the byte that completes the frame:
`ping` true, `read` the parameters, `read_reg` the raw value composed little-endian (R40) or a refusal, the writes and
`reset` nothing; errors unchanged. That the size of `read_reg` is kept in `arb.op` is the model's choice (log 20). -/
def Obligations.CompletedFrameIsShaped : Prop :=
  ∀ (s : State) (b : Byte) (rest : List RxEvent),
    s.Serial → s.arb.phase = .await → s.ports.rx = .byte b :: rest → s.dec.state = .cmdRcvd →
    s.dec.length.toNat ≤ s.dec.params.length + 2 →
    let v : State := { s with dec := { s.dec with state := .idle },
                              ports := { s.ports with rx := rest, pulls := s.ports.pulls + 1 } }
    (b.toNat ≠ 255 - s.dec.sum.toNat → step s = .next (ended (.err .checksumMismatch) v)) ∧
    (b.toNat = 255 - s.dec.sum.toNat → s.dec.cmd ≠ 0#8 → step s = .next (ended (.err (.deviceFault s.dec.cmd)) v)) ∧
    (b.toNat = 255 - s.dec.sum.toNat → s.dec.cmd = 0#8 →
      (s.arb.op = .ping → step s = .next (ended (.ok (.bool true)) v)) ∧
      (s.arb.op = .read → step s = .next (ended (.ok (.bytes s.dec.params)) v)) ∧
      (∀ x, s.arb.op = .readReg .one → s.dec.params = [x] →
        step s = .next (ended (.ok (.rawInt x.toNat)) v)) ∧
      (∀ lo hi, s.arb.op = .readReg .two → s.dec.params = [lo, hi] →
        step s = .next (ended (.ok (.rawInt (lo.toNat + hi.toNat * 256 : Nat))) v)) ∧
      (∀ size, s.arb.op = .readReg size → s.dec.params.length ≠ size.bytes →
        step s = .refused .responseLengthMismatch) ∧
      (s.arb.op = .write ∨ s.arb.op = .writeDeferred ∨ s.arb.op = .writeReg ∨ s.arb.op = .writeRegDeferred ∨
        s.arb.op = .reset → step s = .next (ended (.ok .unit) v)))

/-- R211, R141: a `NoByte` at any point before the verdict is a `Timeout`, which `ping` alone turns into `false`; the
decoder is left where it was. -/
def Obligations.NoByteIsTimeoutOrFalse : Prop :=
  ∀ (s : State) (rest : List RxEvent), s.Serial → s.arb.phase = .await → s.ports.rx = .noByte :: rest →
    step s = .next (ended (if s.arb.op = .ping then .ok (.bool false) else .err .timeout)
      { s with ports := { s.ports with rx := rest, pulls := s.ports.pulls + 1 } })

/-- R142, R124, R49, R262: a whole `read`, from its acceptance to its result: one burst, as many pulls as the frame has
bytes, and the parameters as received, or the device's fault; bytes behind the frame stay unread (R251). -/
def Obligations.ReadTransactionReturnsParameters : Prop :=
  ∀ (s : State) (id offset length rid len err : Byte) (pad : Nat) (params : List Byte) (rest : List RxEvent),
    s.Serial → s.arb.phase = .idle → id ≠ 0xFF#8 → rid ≠ 0xFF#8 → params.length = len.toNat - 2 →
    s.ports.rx = (goodStatus pad rid len err params).map .byte ++ rest →
    ∃ t u, exec (.read id offset length) s = .next t ∧ steps (6 + pad + params.length) t = .next u ∧
      u.arb.phase = .idle ∧ u.ports.rx = rest ∧ u.ports.pulls = s.ports.pulls + (6 + pad + params.length) ∧
      u.ports.tx = s.ports.tx ++ [commandFrame id 0x02#8 [offset, length]] ∧
      u.ports.hr = s.ports.hr ++ [if err = 0#8 then .ok (.bytes params) else .err (.deviceFault err)] ∧
      u.dec.id = rid ∧ u.dec.params = params

/-- R251, program 5 of 95_test_vectors.md: a reply nobody read is taken for the reply of the next operation: after an
`action` to a normal id whose device replies, a `ping` of any device delivers `true` on the stale frame. A frame as an
operation is the model's choice (log 3). -/
def Obligations.StaleReplyAnswersNextPing : Prop :=
  ∀ (s : State) (id other : Byte), s.Serial → s.arb.phase = .idle → s.ports.rx = [] → id ≠ 0xFF#8 → other ≠ 0xFF#8 →
    ∃ a b c d, exec (.action id) s = .next a ∧
      exec (.frameStatus 0 id 2#8 0#8 [] (BitVec.ofNat 8 (255 - byteSum [id, 2#8, 0#8] % 256))) a = .next b ∧
      exec (.ping other) b = .next c ∧ steps 6 c = .next d ∧
      d.ports.hr = s.ports.hr ++ [.ok .unit, .ok (.bool true)] ∧ d.arb.phase = .idle

/-! ## Sync write -/

/-- R204, R67: the SYNC_WRITE frame carries its parameters to BROADCAST and awaits nothing. A frame as an operation is
the model's choice (log 3). -/
def Obligations.SyncWriteFrameSends : Prop :=
  ∀ (start bytesPer : Byte) (blocks : List (Byte × List Byte)) (s : State), s.arb.phase = .idle →
    2 + (blocks.map fun b => b.2.length + 1).sum ≤ 253 →
    exec (.frameSyncWrite start bytesPer blocks) s = .next (delivered (.ok .unit)
      (sent .syncWrite 0xFE#8 0x83#8 (start :: bytesPer :: blocks.flatMap fun b => b.1 :: b.2) s))

/-- R200 to R205, R67: a sync write whose shape, run, size and values pass the checks emits one frame, the lanes in
the order of the ids, the registers in declared order, low byte first, and delivers `Ok(())`. -/
def Obligations.SyncWriteEmitsOneFrame : Prop :=
  ∀ (ids : List Byte) (run : List RegDesc) (values : List (List Int)) (s : State), s.arb.phase = .idle →
    SyncShape ids run values → Contiguous run → syncSize ids run ≤ 253 →
    (∀ vs ∈ values, ∀ p ∈ run.zip vs, InBounds p.1 p.2 ∧ Fits p.1 p.2) →
    exec (.syncWrite ids run values) s = .next (delivered (.ok .unit)
      (sent .syncWrite 0xFE#8 0x83#8 (syncWriteParams ids run values) s))

/-- R206, R201 to R203: the failing sync writes in the order of the checks, and among the values the first one that
fails, the devices in order and within a device the registers in order; nothing is emitted and only `arb.op` and the
result port change. The order is the spec's decision D27; `arb.op` after an error: log 10. -/
def Obligations.SyncWriteRejectsInOrder : Prop :=
  ∀ (ids : List Byte) (run : List RegDesc) (values : List (List Int)) (s : State), s.arb.phase = .idle →
    let u : State := { s with arb := { s.arb with op := .syncWrite } }
    (ids = [] ∨ run = [] → exec (.syncWrite ids run values) s = .refused .emptySyncWrite) ∧
    (ids ≠ [] → run ≠ [] → values.length ≠ ids.length ∨ (∃ vs ∈ values, vs.length ≠ run.length) →
      exec (.syncWrite ids run values) s = .refused .shapeMismatch) ∧
    (ids ≠ [] → run ≠ [] → values.length = ids.length → (∀ vs ∈ values, vs.length = run.length) →
      (∃ id ∈ ids, id = 0xFE#8 ∨ id = 0xFF#8) → exec (.syncWrite ids run values) s = .refused .invalidId) ∧
    (SyncShape ids run values → ¬ Contiguous run → ∃ j, ∃ h : j + 1 < run.length,
      run[j + 1].offset.toNat ≠ run[j].offset.toNat + run[j].size.bytes ∧ Contiguous (run.take (j + 1)) ∧
      exec (.syncWrite ids run values) s = .next (delivered (.err (.nonContiguousRun (j + 1))) u)) ∧
    (SyncShape ids run values → Contiguous run → 253 < syncSize ids run →
      exec (.syncWrite ids run values) s = .next (delivered (.err .tooMuchData) u)) ∧
    (SyncShape ids run values → Contiguous run → syncSize ids run ≤ 253 →
      ∀ (before after : List (RegDesc × Int)) (field : RegDesc × Int),
        values.flatMap (fun vs => run.zip vs) = before ++ field :: after →
        (∀ f ∈ before, InBounds f.1 f.2 ∧ Fits f.1 f.2) →
        (¬ InBounds field.1 field.2 → ∃ e, RangeErrorFor field.1 field.2 e ∧
          exec (.syncWrite ids run values) s = .next (delivered (.err e) u)) ∧
        (InBounds field.1 field.2 → ¬ Fits field.1 field.2 →
          exec (.syncWrite ids run values) s = .refused .rawDoesNotFit))

/-! ## Codec -/

/-- R163, R165, R167, R169, R171, R173: the raw to value formulas of the numeric types. Exact rationals are the spec's
decision D18 (R161). -/
def Obligations.NumericRawToValue : Prop :=
  ∀ (raw : Nat) (s : State),
    exec (.rawToValueBaudRate raw) s = .next (delivered (.ok (.number (2000000 / ((raw : Rat) + 1)))) s) ∧
    exec (.rawToValueRDT raw) s = .next (delivered (.ok (.number ((raw : Rat) * 2))) s) ∧
    exec (.rawToValueAngle raw) s = .next (delivered (.ok (.number ((raw : Rat) * 300 / 1023))) s) ∧
    exec (.rawToValueVoltage raw) s = .next (delivered (.ok (.number ((raw : Rat) / 10))) s) ∧
    exec (.rawToValueTemperature raw) s = .next (delivered (.ok (.number (raw : Rat))) s) ∧
    exec (.rawToValueAngularVelocity raw) s = .next (delivered (.ok (.number ((raw : Rat) * 114 / 1023))) s)

/-- R176, R178, R180, R182: the raw to value tables of Load, OnOff, StatusReturnLevel and Alarm; outside a table the
conversion is refused. -/
def Obligations.TableRawToValue : Prop :=
  ∀ (raw : Nat) (s : State),
    exec (.rawToValueLoad raw) s =
      .next (delivered (.ok (.load { sign := raw.testBit 10, magnitude := raw % 1024 })) s) ∧
    exec (.rawToValueOnOff 0) s = .next (delivered (.ok (.onOff .off)) s) ∧
    exec (.rawToValueOnOff 1) s = .next (delivered (.ok (.onOff .on)) s) ∧
    (1 < raw → exec (.rawToValueOnOff raw) s = .refused .unmappedRaw) ∧
    exec (.rawToValueStatusReturnLevel 0) s = .next (delivered (.ok (.returnLevel .none)) s) ∧
    exec (.rawToValueStatusReturnLevel 1) s = .next (delivered (.ok (.returnLevel .read)) s) ∧
    exec (.rawToValueStatusReturnLevel 2) s = .next (delivered (.ok (.returnLevel .all)) s) ∧
    (2 < raw → exec (.rawToValueStatusReturnLevel raw) s = .refused .unmappedRaw) ∧
    (raw ≤ 255 → exec (.rawToValueAlarm raw) s = .next (delivered (.ok (.alarm
      { inputVoltage := raw.testBit 0, angleLimit := raw.testBit 1, overheating := raw.testBit 2,
        range := raw.testBit 3, checksum := raw.testBit 4, overload := raw.testBit 5,
        instruction := raw.testBit 6, reserved := raw.testBit 7 })) s)) ∧
    (255 < raw → exec (.rawToValueAlarm raw) s = .refused .unmappedRaw)

/-- R164, R166, R168, R170, R172, R174 with R161: the inverse formulas, rounded half up; a baud rate that is not
positive is refused. The exact rationals are the spec's decision D18, the rounding D19 (R161). -/
def Obligations.NumericValueToRaw : Prop :=
  ∀ (v : Rat) (s : State),
    (0 < v → exec (.valueToRawBaudRate v) s = .next (delivered (.ok (.rawInt ⌊2000000 / v - 1 + 1 / 2⌋)) s)) ∧
    (v ≤ 0 → exec (.valueToRawBaudRate v) s = .refused .valueOutOfDomain) ∧
    exec (.valueToRawRDT v) s = .next (delivered (.ok (.rawInt ⌊v / 2 + 1 / 2⌋)) s) ∧
    exec (.valueToRawAngle v) s = .next (delivered (.ok (.rawInt ⌊v * 1023 / 300 + 1 / 2⌋)) s) ∧
    exec (.valueToRawVoltage v) s = .next (delivered (.ok (.rawInt ⌊v * 10 + 1 / 2⌋)) s) ∧
    exec (.valueToRawTemperature v) s = .next (delivered (.ok (.rawInt ⌊v + 1 / 2⌋)) s) ∧
    exec (.valueToRawAngularVelocity v) s = .next (delivered (.ok (.rawInt ⌊v * 1023 / 114 + 1 / 2⌋)) s)

/-- R177, R179, R181, R183: value to raw of Load, OnOff, StatusReturnLevel and Alarm; a Load magnitude above 1023 is
refused. -/
def Obligations.TableValueToRaw : Prop :=
  ∀ (v : LoadValue) (e : ErrBits) (s : State),
    (v.magnitude ≤ 1023 → exec (.valueToRawLoad v) s =
      .next (delivered (.ok (.rawInt ((if v.sign then 1024 else 0) + v.magnitude : Nat))) s)) ∧
    (1023 < v.magnitude → exec (.valueToRawLoad v) s = .refused .valueOutOfDomain) ∧
    exec (.valueToRawOnOff .off) s = .next (delivered (.ok (.rawInt 0)) s) ∧
    exec (.valueToRawOnOff .on) s = .next (delivered (.ok (.rawInt 1)) s) ∧
    exec (.valueToRawStatusReturnLevel .none) s = .next (delivered (.ok (.rawInt 0)) s) ∧
    exec (.valueToRawStatusReturnLevel .read) s = .next (delivered (.ok (.rawInt 1)) s) ∧
    exec (.valueToRawStatusReturnLevel .all) s = .next (delivered (.ok (.rawInt 2)) s) ∧
    exec (.valueToRawAlarm e) s = .next (delivered (.ok (.rawInt
      (e.inputVoltage.toNat + 2 * e.angleLimit.toNat + 4 * e.overheating.toNat + 8 * e.range.toNat +
       16 * e.checksum.toNat + 32 * e.overload.toNat + 64 * e.instruction.toNat + 128 * e.reserved.toNat : Nat))) s)

/-- R184, R162: `raw_to_str` of a type is its open display function applied to `raw_to_value`. The functions are open,
but for R183: the names of a set stand in its text as the table spells them (log 16). Exact rationals are the spec's
decision D18 (R161). -/
def Obligations.DisplayOfValue : Prop :=
  ∀ (raw : Nat) (s : State),
    exec (.rawToStrBaudRate raw) s =
      .next (delivered (.ok (.text (Config.fmt .baudRate (2000000 / ((raw : Rat) + 1))))) s) ∧
    exec (.rawToStrRDT raw) s = .next (delivered (.ok (.text (Config.fmt .rdt ((raw : Rat) * 2)))) s) ∧
    exec (.rawToStrAngle raw) s = .next (delivered (.ok (.text (Config.fmt .angle ((raw : Rat) * 300 / 1023)))) s) ∧
    exec (.rawToStrVoltage raw) s = .next (delivered (.ok (.text (Config.fmt .voltage ((raw : Rat) / 10)))) s) ∧
    exec (.rawToStrTemperature raw) s = .next (delivered (.ok (.text (Config.fmt .temperature (raw : Rat)))) s) ∧
    exec (.rawToStrAngularVelocity raw) s =
      .next (delivered (.ok (.text (Config.fmt .angularVelocity ((raw : Rat) * 114 / 1023)))) s) ∧
    exec (.rawToStrLoad raw) s = .next (delivered (.ok (.text
      (Config.fmtLoad { sign := raw.testBit 10, magnitude := raw % 1024 }))) s) ∧
    (raw ≤ 255 → exec (.rawToStrAlarm raw) s = .next (delivered (.ok (.text (showAlarm
      { inputVoltage := raw.testBit 0, angleLimit := raw.testBit 1, overheating := raw.testBit 2,
        range := raw.testBit 3, checksum := raw.testBit 4, overload := raw.testBit 5,
        instruction := raw.testBit 6, reserved := raw.testBit 7 }))) s)) ∧
    (255 < raw → exec (.rawToStrAlarm raw) s = .refused .unmappedRaw) ∧
    ∀ e : ErrBits, ∀ name ∈ e.names, name.text <:+: showAlarm e

/-- R178 to R181, both directions of the lookup strings: off, on; none, read, all, in ASCII (log 9); a raw value
outside the table is refused, a string outside it raises `MalformedLiteral`. That an error answered in `T_AWAIT` leaves
the phase there is the model's choice (log 24). -/
def Obligations.LookupStrings : Prop :=
  ∀ (raw : Nat) (text : Text) (s : State),
    let off : Text := [111#8, 102#8, 102#8]
    let on : Text := [111#8, 110#8]
    let none : Text := [110#8, 111#8, 110#8, 101#8]
    let read : Text := [114#8, 101#8, 97#8, 100#8]
    let all : Text := [97#8, 108#8, 108#8]
    exec (.rawToStrOnOff 0) s = .next (delivered (.ok (.text off)) s) ∧
    exec (.rawToStrOnOff 1) s = .next (delivered (.ok (.text on)) s) ∧
    (1 < raw → exec (.rawToStrOnOff raw) s = .refused .unmappedRaw) ∧
    exec (.rawToStrStatusReturnLevel 0) s = .next (delivered (.ok (.text none)) s) ∧
    exec (.rawToStrStatusReturnLevel 1) s = .next (delivered (.ok (.text read)) s) ∧
    exec (.rawToStrStatusReturnLevel 2) s = .next (delivered (.ok (.text all)) s) ∧
    (2 < raw → exec (.rawToStrStatusReturnLevel raw) s = .refused .unmappedRaw) ∧
    exec (.strToRawOnOff off) s = .next (delivered (.ok (.rawInt 0)) s) ∧
    exec (.strToRawOnOff on) s = .next (delivered (.ok (.rawInt 1)) s) ∧
    (text ≠ off → text ≠ on → exec (.strToRawOnOff text) s = .next (delivered (.err (.malformedLiteral text)) s)) ∧
    exec (.strToRawStatusReturnLevel none) s = .next (delivered (.ok (.rawInt 0)) s) ∧
    exec (.strToRawStatusReturnLevel read) s = .next (delivered (.ok (.rawInt 1)) s) ∧
    exec (.strToRawStatusReturnLevel all) s = .next (delivered (.ok (.rawInt 2)) s) ∧
    (text ≠ none → text ≠ read → text ≠ all →
      exec (.strToRawStatusReturnLevel text) s = .next (delivered (.err (.malformedLiteral text)) s))

/-- R162, R175, R184: `str_to_raw` is `value_to_raw` of what the open parse function reads, and `MalformedLiteral`
where it reads nothing; always a result. That literals parse into the type's domain is the model's choice (log 8). A
text read as a set of alarm names has those names in it, as the table spells them (R183, log 16). Exact rationals and
the rounding are the spec's decisions D18 and D19 (R161). That an error answered in `T_AWAIT` leaves the phase there is
the model's choice (log 24). -/
def Obligations.ParsedLiteralToRaw : Prop :=
  ∀ (text : Text) (s : State),
    let numeric := fun (raw : Option Int) =>
      delivered (match raw with | some raw => .ok (.rawInt raw) | none => .err (.malformedLiteral text)) s
    exec (.strToRawBaudRate text) s =
      .next (numeric ((Config.parseBaudRate text).map fun v => ⌊2000000 / v.val - 1 + 1 / 2⌋)) ∧
    exec (.strToRawRDT text) s = .next (numeric ((Config.parse .rdt text).map fun v => ⌊v / 2 + 1 / 2⌋)) ∧
    exec (.strToRawAngle text) s = .next (numeric ((Config.parse .angle text).map fun v => ⌊v * 1023 / 300 + 1 / 2⌋)) ∧
    exec (.strToRawVoltage text) s = .next (numeric ((Config.parse .voltage text).map fun v => ⌊v * 10 + 1 / 2⌋)) ∧
    exec (.strToRawTemperature text) s = .next (numeric ((Config.parse .temperature text).map fun v => ⌊v + 1 / 2⌋)) ∧
    exec (.strToRawAngularVelocity text) s =
      .next (numeric ((Config.parse .angularVelocity text).map fun v => ⌊v * 1023 / 114 + 1 / 2⌋)) ∧
    exec (.strToRawLoad text) s = .next (numeric ((Config.parseLoad text).map fun v =>
      ((if v.val.sign then 1024 else 0) + v.val.magnitude : Nat))) ∧
    exec (.strToRawAlarm text) s = .next (numeric ((readAlarm text).map fun e =>
      (e.inputVoltage.toNat + 2 * e.angleLimit.toNat + 4 * e.overheating.toNat + 8 * e.range.toNat +
       16 * e.checksum.toNat + 32 * e.overload.toNat + 64 * e.instruction.toNat + 128 * e.reserved.toNat : Nat))) ∧
    ∀ e : ErrBits, readAlarm text = some e → ∀ name ∈ e.names, name.text <:+: text

/-- R190: `check_range` raises `RangeError` iff both bounds are declared and the raw value lies outside them, with the
display strings of the value and of both bounds (R184; free where a type gives a raw value no display, log 7). It is
delivered at any time and changes nothing else. Answering in `T_AWAIT` too is the model's choice (log 23). That an
error answered in `T_AWAIT` leaves the phase there is the model's choice (log 24). -/
def Obligations.CheckRangeRaisesIffOutside : Prop :=
  ∀ (reg : RegDesc) (raw : Int) (s : State),
    (∀ lo hi, reg.min = some lo → reg.max = some hi → raw < lo ∨ hi < raw →
      ∃ e, RangeErrorFor reg raw e ∧ exec (.checkRange reg raw) s = .next (delivered (.err e) s)) ∧
    ((∀ lo hi, reg.min = some lo → reg.max = some hi → lo ≤ raw ∧ raw ≤ hi) →
      exec (.checkRange reg raw) s = .next (delivered (.ok .unit) s))

/-- R192 (a): the round trip is exact: for every raw value of the six numeric types, for Load up to 0x7FF, for the
tables within them, and for Alarm up to 255. It rests on the spec's decisions D18 and D19, exact rationals and the
rounding (R161). -/
def Obligations.CodecRoundTripIsExact : Prop :=
  (∀ r : Nat, baudRateRaw (baudRateOf r) = r ∧ rdtRaw (rdtOf r) = r ∧ angleRaw (angleOf r) = r ∧
    voltageRaw (voltageOf r) = r ∧ temperatureRaw (temperatureOf r) = r ∧
    angularVelocityRaw (angularVelocityOf r) = r) ∧
  (∀ r : Nat, r ≤ 0x7FF → loadRaw (loadOf r) = r) ∧
  (∀ r : Nat, r < 2 → (onOffOf r).map onOffRaw = some r) ∧
  (∀ r : Nat, r < 3 → (returnLevelOf r).map returnLevelRaw = some r) ∧
  (∀ r : Nat, r ≤ 255 → (alarmOf r).map alarmRaw = some r)

/-- R193: the numeric conversions are strictly monotone, BaudRate downward, and have the ranges the rule gives. Exact
rationals are the spec's decision D18 (R161). -/
def Obligations.NumericConversionsAreMonotone : Prop :=
  (∀ a b : Nat, a < b → rdtOf a < rdtOf b ∧ angleOf a < angleOf b ∧ voltageOf a < voltageOf b ∧
    temperatureOf a < temperatureOf b ∧ angularVelocityOf a < angularVelocityOf b ∧ baudRateOf b < baudRateOf a) ∧
  (∀ r : Nat, r ≤ 1023 → 0 ≤ angleOf r ∧ angleOf r ≤ 300 ∧ 0 ≤ angularVelocityOf r ∧ angularVelocityOf r ≤ 114) ∧
  (∀ r : Nat, r ≤ 255 → 15625 / 2 ≤ baudRateOf r ∧ baudRateOf r ≤ 2000000 ∧ 0 ≤ voltageOf r ∧ voltageOf r ≤ 51 / 2 ∧
    0 ≤ rdtOf r ∧ rdtOf r ≤ 510 ∧ 0 ≤ temperatureOf r ∧ temperatureOf r ≤ 255)

/-- R40, R41: the byte form of a raw value has the register's size, exists exactly where the value fits, and composes
back to it, low byte first. -/
def Obligations.ByteFormComposesBack : Prop :=
  ∀ (raw : Int) (size : RegSize),
    (∀ bs, bytesOf raw size = some bs → bs.length = size.bytes ∧ (rawOf size bs).map Int.ofNat = some raw) ∧
    ((bytesOf raw size).isSome = true ↔ 0 ≤ raw ∧ raw < 256 ^ size.bytes) ∧
    (∀ lo hi : Byte, rawOf .two [lo, hi] = some (lo.toNat + hi.toNat * 256)) ∧
    ∀ b : Byte, rawOf .one [b] = some b.toNat

/-- R17, R182, R183: a wire error byte and the set of its names determine each other, bit by bit, and no synthetic code
of an error is a wire byte. The names in a set are the bit names whose mask is set, and `errtab` has the twelve rows of
R23. -/
def Obligations.ErrorBitsAreFaithful : Prop :=
  (∀ b : Byte, errByteOf (errBitsOf b) = b) ∧ (∀ e : ErrBits, errBitsOf (errByteOf e) = e) ∧
  (∀ b : Byte, (errBitsOf b).inputVoltage = b.getLsbD 0 ∧ (errBitsOf b).angleLimit = b.getLsbD 1 ∧
    (errBitsOf b).overheating = b.getLsbD 2 ∧ (errBitsOf b).range = b.getLsbD 3 ∧
    (errBitsOf b).checksum = b.getLsbD 4 ∧ (errBitsOf b).overload = b.getLsbD 5 ∧
    (errBitsOf b).instruction = b.getLsbD 6 ∧ (errBitsOf b).reserved = b.getLsbD 7) ∧
  HostError.timeout.code = some 0x101#9 ∧ HostError.tooMuchData.code = some 0x102#9 ∧
  DecStatus.notDone.code = 0x100#9 ∧
  (∀ (b : Byte) (name : ErrName), name ∈ (errBitsOf b).names ↔
    name.code.toNat < 256 ∧ b &&& name.code.setWidth 8 ≠ 0#8) ∧
  errTable = [(.inputVoltage, 0x001#9), (.angleLimit, 0x002#9), (.overheating, 0x004#9), (.range, 0x008#9),
    (.checksum, 0x010#9), (.overload, 0x020#9), (.instruction, 0x040#9), (.reserved, 0x080#9), (.none, 0x000#9),
    (.notDone, 0x100#9), (.timeout, 0x101#9), (.tooMuchData, 0x102#9)]

/-- R22: in a device type whose registers occupy disjoint offsets, the lookup by offset finds each register, and only
a register of the type at that offset. -/
def Obligations.LookupByOffsetFindsEachRegister : Prop :=
  ∀ t : DeviceType, disjointRegs t.regs = true →
    (∀ r ∈ t.regs, regByOffset t r.offset = some r) ∧
    ∀ (offset : Byte) (r : RegDesc), regByOffset t offset = some r → r ∈ t.regs ∧ r.offset = offset
end

