-- ==== Sys2Proof/Laws/Codec.lean ====
section
/-! SUPPORT. The range check and the byte form of a raw value, in the terms of the claims. -/

namespace Sys2Proof.Machine

/-! ## The tables and masks, bit by bit -/

theorem loadOf_eq (n : Nat) : loadOf n = { sign := n.testBit 10, magnitude := n % 1024 } := by
  have hm : n &&& 0x3FF = n % 1024 := Nat.and_two_pow_sub_one_eq_mod n 10
  have hs : (n &&& 2 ^ 10 != 0) = n.testBit 10 := by
    rw [Nat.and_two_pow]
    cases n.testBit 10 <;> simp
  simp only [loadOf, hm, ← hs]
  rfl

theorem errBitsOf_eq (b : Byte) :
    errBitsOf b =
      { inputVoltage := b.getLsbD 0, angleLimit := b.getLsbD 1, overheating := b.getLsbD 2, range := b.getLsbD 3
        checksum := b.getLsbD 4, overload := b.getLsbD 5, instruction := b.getLsbD 6, reserved := b.getLsbD 7 } := by
  revert b; decide +kernel

theorem alarmOf_of_le {n : Nat} (h : n ≤ 255) :
    alarmOf n = some
      { inputVoltage := n.testBit 0, angleLimit := n.testBit 1, overheating := n.testBit 2, range := n.testBit 3
        checksum := n.testBit 4, overload := n.testBit 5, instruction := n.testBit 6, reserved := n.testBit 7 } := by
  simp [alarmOf, h, errBitsOf_eq, BitVec.getLsbD, Nat.mod_eq_of_lt (show n < 256 by omega)]

theorem alarmOf_of_gt {n : Nat} (h : 255 < n) : alarmOf n = none := by
  unfold alarmOf; rw [if_neg (by omega)]

theorem onOffOf_of_gt {n : Nat} (h : 1 < n) : onOffOf n = none := by
  unfold onOffOf; split <;> first | omega | rfl

theorem returnLevelOf_of_gt {n : Nat} (h : 2 < n) : returnLevelOf n = none := by
  unfold returnLevelOf; split <;> first | omega | rfl

theorem loadRaw_eq {v : LoadValue} (h : v.magnitude ≤ 1023) :
    loadRaw v = (if v.sign then 1024 else 0) + v.magnitude := by
  unfold loadRaw
  cases v.sign
  · simp
  · have hor := Nat.two_pow_add_eq_or_of_lt (i := 10) (b := v.magnitude) (by omega) 1
    simpa using hor.symm

theorem alarmRaw_eq (e : ErrBits) :
    alarmRaw e =
      e.inputVoltage.toNat + 2 * e.angleLimit.toNat + 4 * e.overheating.toNat + 8 * e.range.toNat +
      16 * e.checksum.toNat + 32 * e.overload.toNat + 64 * e.instruction.toNat + 128 * e.reserved.toNat := by
  rcases e with ⟨a, b, c, d, e, f, g, h⟩
  revert a b c d e f g h; decide +kernel

/-! ## The names of a set in its text -/

/-- The names in a set are the bit names whose mask is in the byte of the set (R17). -/
theorem mem_names_errBitsOf (b : Byte) (n : ErrName) :
    n ∈ (errBitsOf b).names ↔ n.code.toNat < 256 ∧ b &&& n.code.setWidth 8 ≠ 0#8 := by
  revert b; cases n <;> decide +kernel

theorem text_isInfix_spellNames {n : ErrName} {ns : List ErrName} (h : n ∈ ns) (glue : Nat → Text) (k : Nat) :
    n.text <:+: spellNames glue k ns := by
  induction ns generalizing k with
  | nil => cases h
  | cons m ms ih =>
    rcases List.mem_cons.mp h with rfl | h
    · exact ⟨glue k, spellNames glue (k + 1) ms, rfl⟩
    · exact (ih h (k + 1)).trans (List.suffix_append _ _).isInfix

/-- Every name of a set stands in its text (R183). -/
theorem text_isInfix_showAlarm {e : ErrBits} {n : ErrName} (h : n ∈ e.names) : n.text <:+: showAlarm e :=
  text_isInfix_spellNames ((List.mem_insertionSort _).mpr h) _ _

/-- Every name of the set a text is read as stands in it (R183). -/
theorem text_isInfix_of_readAlarm {e : ErrBits} {t : Text} (hr : readAlarm t = some e) {n : ErrName}
    (h : n ∈ e.names) : n.text <:+: t := by
  have hs := (Option.filter_eq_some_iff.mp hr).2
  simpa using List.all_eq_true.mp hs n h

/-! ## Rounding -/

theorem roundHalfUp_eq_floor (q : Rat) : roundHalfUp q = ⌊q + 1 / 2⌋ := rfl

/-- Rounding leaves an integer as it is. -/
theorem roundHalfUp_of_int {q : Rat} {n : Int} (h : q = n) : roundHalfUp q = n := by
  subst h
  rw [roundHalfUp_eq_floor, Int.floor_eq_iff]
  constructor <;> norm_num

/-! ## Display strings -/

/-- The display string `RangeError` names is `raw_to_str` wherever the type has one (R190, R184). -/
theorem isDisplay_displayText (t : RegType) (raw : Int) : IsDisplay t raw (displayText t raw) := by
  have hn : 0 ≤ raw → unsigned raw = some raw.toNat := fun h => by simp [unsigned, h]
  have hc : 0 ≤ raw → ((raw.toNat : Nat) : Rat) = (raw : Rat) := fun h => by
    exact_mod_cast congrArg (fun i : Int => (i : Rat)) (Int.toNat_of_nonneg h)
  cases t <;> simp only [IsDisplay, displayText]
  case baudRate => intro h; simp [hn h, textOr, baudRateOf, hc h]
  case rdt => rfl
  case angle => rfl
  case voltage => rfl
  case temperature => rfl
  case angularVelocity => rfl
  case load => intro h; simp [hn h, textOr, loadOf_eq]
  case onOff => constructor <;> rintro rfl <;> rfl
  case statusReturnLevel => refine ⟨?_, ?_, ?_⟩ <;> rintro rfl <;> rfl
  case alarm => intro h h'; simp [hn h, textOr, alarmOf_of_le (show raw.toNat ≤ 255 by omega)]

/-! ## The range check and the byte form -/

/-- The range check passes a value inside its bounds (R190). -/
theorem rangeError_of_inBounds {reg : RegDesc} {raw : Int} (h : InBounds reg raw) : rangeError reg raw = none := by
  unfold rangeError
  split
  · next lo hi hlo hhi =>
    have := h _ _ hlo hhi
    rw [if_neg (by omega)]
  · rfl

/-- The range check fails outside the bounds only, with the three display strings (R190). -/
theorem rangeError_of_outside {reg : RegDesc} {raw lo hi : Int} (hlo : reg.min = some lo) (hhi : reg.max = some hi)
    (h : raw < lo ∨ hi < raw) :
    rangeError reg raw =
      some (.rangeError (displayText reg.type raw) (displayText reg.type lo) (displayText reg.type hi)) := by
  simp [rangeError, hlo, hhi, h]

theorem rangeError_of_not_inBounds {reg : RegDesc} {raw : Int} (h : ¬ InBounds reg raw) :
    ∃ e, RangeErrorFor reg raw e ∧ rangeError reg raw = some e := by
  by_contra hn
  apply h
  intro lo hi hlo hhi
  by_contra hout
  exact hn ⟨_, ⟨lo, hi, _, _, _, hlo, hhi, isDisplay_displayText _ _, isDisplay_displayText _ _,
    isDisplay_displayText _ _, rfl⟩, rangeError_of_outside hlo hhi (by omega)⟩

/-- The byte form of a raw value that fits (R41). -/
theorem bytesOf_of_fits {reg : RegDesc} {raw : Int} (h : Fits reg raw) :
    bytesOf raw reg.size = some (wireBytes reg raw) := by
  have hm : ∀ n : Nat, BitVec.ofNat 8 (n % 256) = BitVec.ofNat 8 n := fun n => by
    apply BitVec.eq_of_toNat_eq; simp
  unfold Fits at h
  unfold bytesOf wireBytes
  cases hs : reg.size <;> simp only [hs, RegSize.bytes] at h ⊢
  · rw [if_pos (by omega)]
    simp [lo8, hm]
  · rw [if_pos (by omega)]
    simp [List.range_succ, lo8, hi8, hm]

theorem bytesOf_of_not_fits {reg : RegDesc} {raw : Int} (h : ¬ Fits reg raw) : bytesOf raw reg.size = none := by
  unfold Fits at h
  unfold bytesOf
  cases hs : reg.size <;> simp only [hs, RegSize.bytes] at h ⊢ <;> rw [if_neg (by omega)]

@[simp] theorem length_wireBytes (r : RegDesc) (raw : Int) : (wireBytes r raw).length = r.size.bytes := by
  simp [wireBytes]

/-- What the sync-write encoder makes of one value (R202). -/
theorem valueBytes_of_good {r : RegDesc} {raw : Int} (hb : InBounds r raw) (hf : Fits r raw) :
    valueBytes r raw = .ok (wireBytes r raw) := by
  simp [valueBytes, rangeError_of_inBounds hb, bytesOf_of_fits hf]

/-- A value outside its bounds ends the encoding in a range error (R202). -/
theorem valueBytes_of_not_inBounds {r : RegDesc} {raw : Int} (h : ¬ InBounds r raw) :
    ∃ e, RangeErrorFor r raw e ∧ valueBytes r raw = .error (.err e) := by
  obtain ⟨e, hfor, he⟩ := rangeError_of_not_inBounds h
  exact ⟨e, hfor, by simp [valueBytes, he]⟩

/-- A value in its bounds and too wide for its register is refused (R202, R41). -/
theorem valueBytes_of_not_fits {r : RegDesc} {raw : Int} (hb : InBounds r raw) (hf : ¬ Fits r raw) :
    valueBytes r raw = .error (.refuse .rawDoesNotFit) := by
  simp [valueBytes, rangeError_of_inBounds hb, bytesOf_of_not_fits hf]

end Sys2Proof.Machine
end

