-- ==== Sys2Proof/Laws/State.lean ====
section
/-! SUPPORT. One lemma per field per named update of the state, each true by unfolding: later proofs cite these
and unfold no record update. -/

namespace Sys2Proof.Machine

variable (s : State)

@[simp] theorem deliver_dec (r : Result) : (deliver r s).dec = s.dec := rfl
@[simp] theorem deliver_tx (r : Result) : (deliver r s).tx = s.tx := rfl
@[simp] theorem deliver_arb (r : Result) : (deliver r s).arb = s.arb := rfl
@[simp] theorem deliver_phase (r : Result) : (deliver r s).arb.phase = s.arb.phase := rfl
@[simp] theorem deliver_op (r : Result) : (deliver r s).arb.op = s.arb.op := rfl
@[simp] theorem deliver_cfg (r : Result) : (deliver r s).cfg = s.cfg := rfl
@[simp] theorem deliver_hc (r : Result) : (deliver r s).ports.hc = s.ports.hc := rfl
@[simp] theorem deliver_turns (r : Result) : (deliver r s).ports.turns = s.ports.turns := rfl
@[simp] theorem deliver_rx (r : Result) : (deliver r s).ports.rx = s.ports.rx := rfl
@[simp] theorem deliver_ports_tx (r : Result) : (deliver r s).ports.tx = s.ports.tx := rfl
@[simp] theorem deliver_hr (r : Result) : (deliver r s).ports.hr = s.ports.hr ++ [r] := rfl
@[simp] theorem deliver_pulls (r : Result) : (deliver r s).ports.pulls = s.ports.pulls := rfl

@[simp] theorem settle_dec (r : Result) : (settle r s).dec = s.dec := rfl
@[simp] theorem settle_tx (r : Result) : (settle r s).tx = s.tx := rfl
@[simp] theorem settle_arb (r : Result) : (settle r s).arb = { s.arb with phase := .idle } := rfl
@[simp] theorem settle_phase (r : Result) : (settle r s).arb.phase = .idle := rfl
@[simp] theorem settle_op (r : Result) : (settle r s).arb.op = s.arb.op := rfl
@[simp] theorem settle_cfg (r : Result) : (settle r s).cfg = s.cfg := rfl
@[simp] theorem settle_hc (r : Result) : (settle r s).ports.hc = s.ports.hc := rfl
@[simp] theorem settle_turns (r : Result) : (settle r s).ports.turns = s.ports.turns := rfl
@[simp] theorem settle_rx (r : Result) : (settle r s).ports.rx = s.ports.rx := rfl
@[simp] theorem settle_ports_tx (r : Result) : (settle r s).ports.tx = s.ports.tx := rfl
@[simp] theorem settle_hr (r : Result) : (settle r s).ports.hr = s.ports.hr ++ [r] := rfl
@[simp] theorem settle_pulls (r : Result) : (settle r s).ports.pulls = s.ports.pulls := rfl

@[simp] theorem emit_dec (burst : List Byte) : (emit burst s).dec = s.dec := rfl
@[simp] theorem emit_tx (burst : List Byte) : (emit burst s).tx = s.tx := rfl
@[simp] theorem emit_arb (burst : List Byte) : (emit burst s).arb = s.arb := rfl
@[simp] theorem emit_phase (burst : List Byte) : (emit burst s).arb.phase = s.arb.phase := rfl
@[simp] theorem emit_op (burst : List Byte) : (emit burst s).arb.op = s.arb.op := rfl
@[simp] theorem emit_cfg (burst : List Byte) : (emit burst s).cfg = s.cfg := rfl
@[simp] theorem emit_hc (burst : List Byte) : (emit burst s).ports.hc = s.ports.hc := rfl
@[simp] theorem emit_turns (burst : List Byte) : (emit burst s).ports.turns = s.ports.turns := rfl
@[simp] theorem emit_rx (burst : List Byte) : (emit burst s).ports.rx = s.ports.rx := rfl
@[simp] theorem emit_ports_tx (burst : List Byte) : (emit burst s).ports.tx = s.ports.tx ++ [burst] := rfl
@[simp] theorem emit_hr (burst : List Byte) : (emit burst s).ports.hr = s.ports.hr := rfl
@[simp] theorem emit_pulls (burst : List Byte) : (emit burst s).ports.pulls = s.ports.pulls := rfl

@[simp] theorem resetDecoder_dec : (resetDecoder s).dec = DecRegs.cleared := rfl
@[simp] theorem resetDecoder_tx : (resetDecoder s).tx = s.tx := rfl
@[simp] theorem resetDecoder_arb : (resetDecoder s).arb = s.arb := rfl
@[simp] theorem resetDecoder_phase : (resetDecoder s).arb.phase = s.arb.phase := rfl
@[simp] theorem resetDecoder_op : (resetDecoder s).arb.op = s.arb.op := rfl
@[simp] theorem resetDecoder_cfg : (resetDecoder s).cfg = s.cfg := rfl
@[simp] theorem resetDecoder_hc : (resetDecoder s).ports.hc = s.ports.hc := rfl
@[simp] theorem resetDecoder_turns : (resetDecoder s).ports.turns = s.ports.turns := rfl
@[simp] theorem resetDecoder_rx : (resetDecoder s).ports.rx = s.ports.rx := rfl
@[simp] theorem resetDecoder_ports_tx : (resetDecoder s).ports.tx = s.ports.tx := rfl
@[simp] theorem resetDecoder_hr : (resetDecoder s).ports.hr = s.ports.hr := rfl
@[simp] theorem resetDecoder_pulls : (resetDecoder s).ports.pulls = s.ports.pulls := rfl

@[simp] theorem startRead_dec : (startRead s).dec = DecRegs.cleared := rfl
@[simp] theorem startRead_tx : (startRead s).tx = s.tx := rfl
@[simp] theorem startRead_arb : (startRead s).arb = { s.arb with phase := .await } := rfl
@[simp] theorem startRead_phase : (startRead s).arb.phase = .await := rfl
@[simp] theorem startRead_op : (startRead s).arb.op = s.arb.op := rfl
@[simp] theorem startRead_cfg : (startRead s).cfg = s.cfg := rfl
@[simp] theorem startRead_hc : (startRead s).ports.hc = s.ports.hc := rfl
@[simp] theorem startRead_turns : (startRead s).ports.turns = s.ports.turns := rfl
@[simp] theorem startRead_rx : (startRead s).ports.rx = s.ports.rx := rfl
@[simp] theorem startRead_ports_tx : (startRead s).ports.tx = s.ports.tx := rfl
@[simp] theorem startRead_hr : (startRead s).ports.hr = s.ports.hr := rfl
@[simp] theorem startRead_pulls : (startRead s).ports.pulls = s.ports.pulls := rfl

@[simp] theorem arrive_dec (bs : List Byte) : (arrive bs s).dec = s.dec := rfl
@[simp] theorem arrive_tx (bs : List Byte) : (arrive bs s).tx = s.tx := rfl
@[simp] theorem arrive_arb (bs : List Byte) : (arrive bs s).arb = s.arb := rfl
@[simp] theorem arrive_phase (bs : List Byte) : (arrive bs s).arb.phase = s.arb.phase := rfl
@[simp] theorem arrive_op (bs : List Byte) : (arrive bs s).arb.op = s.arb.op := rfl
@[simp] theorem arrive_cfg (bs : List Byte) : (arrive bs s).cfg = s.cfg := rfl
@[simp] theorem arrive_hc (bs : List Byte) : (arrive bs s).ports.hc = s.ports.hc := rfl
@[simp] theorem arrive_turns (bs : List Byte) : (arrive bs s).ports.turns = s.ports.turns := rfl
@[simp] theorem arrive_rx (bs : List Byte) : (arrive bs s).ports.rx = s.ports.rx ++ bs.map RxEvent.byte := rfl
@[simp] theorem arrive_ports_tx (bs : List Byte) : (arrive bs s).ports.tx = s.ports.tx := rfl
@[simp] theorem arrive_hr (bs : List Byte) : (arrive bs s).ports.hr = s.ports.hr := rfl
@[simp] theorem arrive_pulls (bs : List Byte) : (arrive bs s).ports.pulls = s.ports.pulls := rfl

@[simp] theorem takeTurn_dec : (takeTurn s).dec = s.dec := rfl
@[simp] theorem takeTurn_tx : (takeTurn s).tx = s.tx := rfl
@[simp] theorem takeTurn_arb : (takeTurn s).arb = s.arb := rfl
@[simp] theorem takeTurn_phase : (takeTurn s).arb.phase = s.arb.phase := rfl
@[simp] theorem takeTurn_op : (takeTurn s).arb.op = s.arb.op := rfl
@[simp] theorem takeTurn_cfg : (takeTurn s).cfg = s.cfg := rfl
@[simp] theorem takeTurn_hc : (takeTurn s).ports.hc = s.ports.hc := rfl
@[simp] theorem takeTurn_turns : (takeTurn s).ports.turns = s.ports.turns.tail := rfl
@[simp] theorem takeTurn_rx : (takeTurn s).ports.rx = s.ports.rx := rfl
@[simp] theorem takeTurn_ports_tx : (takeTurn s).ports.tx = s.ports.tx := rfl
@[simp] theorem takeTurn_hr : (takeTurn s).ports.hr = s.ports.hr := rfl
@[simp] theorem takeTurn_pulls : (takeTurn s).ports.pulls = s.ports.pulls := rfl

@[simp] theorem transmit_dec (id command : Byte) (params : List Byte) : (transmit id command params s).dec = s.dec := rfl
@[simp] theorem transmit_tx (id command : Byte) (params : List Byte) : (transmit id command params s).tx = buildFrame id command params := rfl
@[simp] theorem transmit_arb (id command : Byte) (params : List Byte) : (transmit id command params s).arb = s.arb := rfl
@[simp] theorem transmit_phase (id command : Byte) (params : List Byte) : (transmit id command params s).arb.phase = s.arb.phase := rfl
@[simp] theorem transmit_op (id command : Byte) (params : List Byte) : (transmit id command params s).arb.op = s.arb.op := rfl
@[simp] theorem transmit_cfg (id command : Byte) (params : List Byte) : (transmit id command params s).cfg = s.cfg := rfl
@[simp] theorem transmit_hc (id command : Byte) (params : List Byte) : (transmit id command params s).ports.hc = s.ports.hc := rfl
@[simp] theorem transmit_turns (id command : Byte) (params : List Byte) : (transmit id command params s).ports.turns = s.ports.turns := rfl
@[simp] theorem transmit_rx (id command : Byte) (params : List Byte) : (transmit id command params s).ports.rx = s.ports.rx := rfl
@[simp] theorem transmit_ports_tx (id command : Byte) (params : List Byte) : (transmit id command params s).ports.tx = s.ports.tx ++ [(buildFrame id command params).buf] := rfl
@[simp] theorem transmit_hr (id command : Byte) (params : List Byte) : (transmit id command params s).ports.hr = s.ports.hr := rfl
@[simp] theorem transmit_pulls (id command : Byte) (params : List Byte) : (transmit id command params s).ports.pulls = s.ports.pulls := rfl

end Sys2Proof.Machine
end

