-- ==== Sys2Proof/Laws/Ops.lean ====
section
/-! SUPPORT. What each shared operation can do, said once: acceptance, sending, building a frame, pulling. -/

namespace Sys2Proof.Machine

/-! ## Acceptance -/

theorem whenIdle_of_idle {k : State → Out} {s : State} (h : s.arb.phase = .idle) : whenIdle k s = k s := by
  simp [whenIdle, h]

theorem whenIdle_of_await {k : State → Out} {s : State} (h : s.arb.phase = .await) :
    whenIdle k s = .refused .busy := by
  simp [whenIdle, h]

theorem accept_of_idle {op : WireOp} {k : State → Out} {s : State} (h : s.arb.phase = .idle) :
    accept op k s = k { s with arb := { s.arb with op := op } } :=
  whenIdle_of_idle h

theorem accept_of_await {op : WireOp} {k : State → Out} {s : State} (h : s.arb.phase = .await) :
    accept op k s = .refused .busy :=
  whenIdle_of_await h

/-- Everything `whenIdle` can answer as a next state. -/
theorem whenIdle_next {k : State → Out} {s t : State} (h : whenIdle k s = .next t) :
    s.arb.phase = .idle ∧ k s = .next t := by
  unfold whenIdle at h
  split at h
  · cases h
  · exact ⟨‹_›, h⟩

/-- Everything `accept` can answer as a next state. -/
theorem accept_next {op : WireOp} {k : State → Out} {s t : State} (h : accept op k s = .next t) :
    s.arb.phase = .idle ∧ k { s with arb := { s.arb with op := op } } = .next t :=
  whenIdle_next h

/-! ## Sums and frames -/

@[simp] theorem byteSum_nil : byteSum [] = 0 := rfl

@[simp] theorem byteSum_cons (b : Byte) (bs : List Byte) : byteSum (b :: bs) = b.toNat + byteSum bs := by
  simp [byteSum]

@[simp] theorem byteSum_append (a b : List Byte) : byteSum (a ++ b) = byteSum a + byteSum b := by
  simp [byteSum]

/-- Adding bytes modulo 256 keeps the integer sum modulo 256 (R91). -/
theorem foldl_add_byteSum (bs : List Byte) (acc : Byte) :
    bs.foldl (· + ·) acc = BitVec.ofNat 8 (acc.toNat + byteSum bs) := by
  induction bs generalizing acc with
  | nil => simp
  | cons b bs ih =>
    rw [List.foldl_cons, ih, byteSum_cons]
    apply BitVec.eq_of_toNat_eq
    simp [BitVec.toNat_add]
    omega

theorem sumBytes_eq (bs : List Byte) : sumBytes bs = BitVec.ofNat 8 (byteSum bs) := by
  simp [sumBytes, foldl_add_byteSum]

/-- The complement of a sum, as R90 writes it: `255 − (sum mod 256)`. -/
theorem not_ofNat_sum (n : Nat) : ~~~ (BitVec.ofNat 8 n) = BitVec.ofNat 8 (255 - n % 256) := by
  apply BitVec.eq_of_toNat_eq
  simp
  omega

theorem cks_eq (bs : List Byte) : cks bs = BitVec.ofNat 8 (255 - byteSum bs % 256) := by
  rw [cks, sumBytes_eq, not_ofNat_sum]

theorem foldl_txAdd (params : List Byte) (t : TxRegs) :
    params.foldl TxRegs.add t = { buf := t.buf ++ params, sum := params.foldl (· + ·) t.sum } := by
  induction params generalizing t with
  | nil => simp
  | cons p ps ih => simp [ih, TxRegs.add]

/-- The frame the encoder builds byte by byte is the frame of R60, and its running sum the sum of R90. -/
theorem buildFrame_eq (id command : Byte) (params : List Byte) :
    buildFrame id command params =
      { buf := commandFrame id command params
        sum := BitVec.ofNat 8 (byteSum (summedBytes id command params)) } := by
  have hsum : params.foldl (· + ·) (0#8 + id + BitVec.ofNat 8 (params.length + 2) + command) =
      BitVec.ofNat 8 (byteSum (summedBytes id command params)) := by
    rw [foldl_add_byteSum]
    apply BitVec.eq_of_toNat_eq
    simp [summedBytes, BitVec.toNat_add]
    omega
  simp [buildFrame, TxRegs.put, TxRegs.add, foldl_txAdd, commandFrame, Config.preamble]
  rw [show id + BitVec.ofNat 8 (params.length + 2) + command =
      0#8 + id + BitVec.ofNat 8 (params.length + 2) + command by simp, hsum, not_ofNat_sum]
  simp [summedBytes]

theorem ofNat_mod_256 (n : Nat) : BitVec.ofNat 8 (n % 256) = BitVec.ofNat 8 n := by
  apply BitVec.eq_of_toNat_eq; simp

/-! ## Sending -/

theorem sendThen_of_valid {id command : Byte} {params : List Byte} {k : State → Out} {s : State}
    (hid : id ≠ 0xFF#8) (hlen : params.length ≤ 253) :
    sendThen id command params k s = k (transmit id command params s) := by
  simp [sendThen, Config.idInvalid, Config.paramCap, hid, Nat.not_lt.mpr hlen]

theorem sendThen_of_long {id command : Byte} {params : List Byte} {k : State → Out} {s : State}
    (hid : id ≠ 0xFF#8) (hlen : 253 < params.length) :
    sendThen id command params k s = .next (raise .tooMuchData s) := by
  simp [sendThen, Config.idInvalid, Config.paramCap, hid, hlen]

theorem sendThen_of_invalid {command : Byte} {params : List Byte} {k : State → Out} {s : State} :
    sendThen 0xFF#8 command params k s = .refused .invalidId := by
  simp [sendThen, Config.idInvalid]

/-- Everything `sendThen` can answer as a next state. -/
theorem sendThen_next {id command : Byte} {params : List Byte} {k : State → Out} {s t : State}
    (h : sendThen id command params k s = .next t) :
    id ≠ 0xFF#8 ∧
      ((253 < params.length ∧ t = raise .tooMuchData s) ∨
       (params.length ≤ 253 ∧ k (transmit id command params s) = .next t)) := by
  by_cases hid : id = 0xFF#8
  · rw [hid, sendThen_of_invalid] at h; cases h
  · refine ⟨hid, ?_⟩
    by_cases hlen : params.length ≤ 253
    · exact .inr ⟨hlen, sendThen_of_valid (k := k) hid hlen ▸ h⟩
    · rw [sendThen_of_long hid (by omega)] at h
      cases h
      exact .inl ⟨by omega, rfl⟩

/-- The state after acceptance and emission, in the closed form of the claims. -/
theorem transmit_eq_sent (op : WireOp) (id command : Byte) (params : List Byte) (s : State) :
    transmit id command params { s with arb := { s.arb with op := op } } = sent op id command params s := by
  simp [transmit, emit, sent, buildFrame_eq, ofNat_mod_256]

theorem startRead_eq_awaiting (s : State) : startRead s = awaiting s := rfl

theorem deliver_eq_delivered (r : Result) (s : State) : deliver r s = delivered r s := rfl

theorem settle_eq_ended (r : Result) (s : State) : settle r s = ended r s := rfl

theorem raise_of_idle {e : HostError} {s : State} (h : s.arb.phase = .idle) :
    raise e s = delivered (.err e) s := by
  simp [raise, settle, deliver, delivered, ← h]

/-- An accepted operation that a check of the host side ends. -/
theorem raise_accepted {op : WireOp} {e : HostError} {s : State} (h : s.arb.phase = .idle) :
    raise e { s with arb := { s.arb with op := op } } = delivered (.err e) { s with arb := { s.arb with op := op } } :=
  raise_of_idle h

theorem awaitUnlessBroadcast_eq (id : Byte) (s : State) :
    awaitUnlessBroadcast id s = .next (sentUnlessBroadcast id s) := by
  by_cases h : id = 0xFE#8 <;>
    simp [awaitUnlessBroadcast, sentUnlessBroadcast, Config.idBroadcast, h, reportDone, awaitStatus, answer,
      deliver_eq_delivered, startRead_eq_awaiting]

/-! ## Pulling -/

theorem pull_of_cons {s : State} {ev : RxEvent} {rest : List RxEvent} (h : s.ports.rx = ev :: rest) :
    pull s = (ev, { s with ports := { s.ports with rx := rest, pulls := s.ports.pulls + 1 } }) := by
  simp [pull, h]

@[simp] theorem pull_dec (s : State) : (pull s).2.dec = s.dec := by unfold pull; split <;> rfl
@[simp] theorem pull_tx (s : State) : (pull s).2.tx = s.tx := by unfold pull; split <;> rfl
@[simp] theorem pull_arb (s : State) : (pull s).2.arb = s.arb := by unfold pull; split <;> rfl
@[simp] theorem pull_cfg (s : State) : (pull s).2.cfg = s.cfg := by unfold pull; split <;> rfl
@[simp] theorem pull_ports_tx (s : State) : (pull s).2.ports.tx = s.ports.tx := by unfold pull; split <;> rfl
@[simp] theorem pull_hr (s : State) : (pull s).2.ports.hr = s.ports.hr := by unfold pull; split <;> rfl
@[simp] theorem pull_turns (s : State) : (pull s).2.ports.turns = s.ports.turns := by unfold pull; split <;> rfl

end Sys2Proof.Machine
end

