-- ==== Sys2Proof/Laws/Decoder.lean ====
section
/-! SUPPORT. The decoder: its step in each state, streams of bytes, and the invariant of its registers. -/

namespace Sys2Proof.Machine

theorem decByte_of_idle {d : DecRegs} {b : Byte} (h : d.state = .idle) : decByte b d = decIdle b d := by
  simp [decByte, h]

theorem decByte_of_firstFF {d : DecRegs} {b : Byte} (h : d.state = .firstFF) : decByte b d = decFirstFF b d := by
  simp [decByte, h]

theorem decByte_of_secondFF {d : DecRegs} {b : Byte} (h : d.state = .secondFF) : decByte b d = decSecondFF b d := by
  simp [decByte, h]

theorem decByte_of_idRcvd {d : DecRegs} {b : Byte} (h : d.state = .idRcvd) : decByte b d = decIdRcvd b d := by
  simp [decByte, h]

theorem decByte_of_lengthRcvd {d : DecRegs} {b : Byte} (h : d.state = .lengthRcvd) :
    decByte b d = decLengthRcvd b d := by
  simp [decByte, h]

theorem decByte_of_cmdRcvd {d : DecRegs} {b : Byte} (h : d.state = .cmdRcvd) : decByte b d = decCmdRcvd b d := by
  simp [decByte, h]

/-- A parameter byte (R106, second arm). -/
theorem decByte_param {d : DecRegs} {b : Byte} (h : d.state = .cmdRcvd) (hl : d.params.length + 2 < d.length.toNat) :
    decByte b d = (.notDone, { d with params := d.params ++ [b], sum := d.sum + b }) := by
  rw [decByte_of_cmdRcvd h, decCmdRcvd, if_neg (by omega)]

/-- The checksum byte (R106, first arm). -/
theorem decByte_checksum {d : DecRegs} {b : Byte} (h : d.state = .cmdRcvd) (hl : d.length.toNat ≤ d.params.length + 2) :
    decByte b d = (if b = ~~~ d.sum then .none else .checksum, { d with state := .idle }) := by
  rw [decByte_of_cmdRcvd h, decCmdRcvd, if_pos hl]

/-- The comparison of R106 in the words of R90. -/
theorem eq_not_iff (c x : Byte) : c = ~~~ x ↔ c.toNat = 255 - x.toNat := by
  constructor
  · rintro rfl; simp
  · intro h; apply BitVec.eq_of_toNat_eq; simpa using h

theorem add_eq_ofNat (a b : Byte) : a + b = BitVec.ofNat 8 ((a.toNat + b.toNat) % 256) := by
  apply BitVec.eq_of_toNat_eq; simp [BitVec.toNat_add]

/-! ## Streams -/

theorem decBytes_append (a b : List Byte) (d : DecRegs) :
    decBytes (a ++ b) d = ((decBytes a d).1 ++ (decBytes b (decBytes a d).2).1, (decBytes b (decBytes a d).2).2) := by
  induction a generalizing d with
  | nil => rfl
  | cons x a ih => simp [decBytes, ih]

/-- Padding changes nothing, however long (R103, R110). -/
theorem decBytes_padding (n : Nat) (d : DecRegs) (h : d.state = .secondFF) :
    decBytes (List.replicate n 0xFF#8) d = (List.replicate n .notDone, d) := by
  induction n with
  | zero => rfl
  | succ n ih =>
    have hd : decByte 0xFF#8 d = (.notDone, d) := by
      rw [decByte_of_secondFF h]
      simp [decSecondFF, Config.preamble, ← h]
    simp [List.replicate_succ, decBytes, hd, ih]

/-- Parameters are collected until `length − 2` of them are in (R106). -/
theorem decBytes_params (ps : List Byte) (d : DecRegs) (h : d.state = .cmdRcvd)
    (hlen : d.params.length + ps.length + 2 ≤ d.length.toNat ∨ ps = []) :
    decBytes ps d = (List.replicate ps.length .notDone,
      { d with params := d.params ++ ps, sum := BitVec.ofNat 8 (d.sum.toNat + byteSum ps) }) := by
  induction ps generalizing d with
  | nil => simp [decBytes]
  | cons b ps ih =>
    have hl : d.params.length + (ps.length + 1) + 2 ≤ d.length.toNat := by simpa using hlen
    have hsum : BitVec.ofNat 8 ((d.sum + b).toNat + byteSum ps) = BitVec.ofNat 8 (d.sum.toNat + byteSum (b :: ps)) := by
      apply BitVec.eq_of_toNat_eq
      simp [BitVec.toNat_add]
      omega
    have hrest := ih { d with params := d.params ++ [b], sum := d.sum + b } h (by left; simp; omega)
    simp only [hsum] at hrest
    simp [decBytes, decByte_param h (show d.params.length + 2 < d.length.toNat by omega), hrest, List.replicate_succ]

/-- A received frame up to its checksum byte. -/
def statusBody (pad : Nat) (id len err : Byte) (params : List Byte) : List Byte :=
  [0xFF#8, 0xFF#8] ++ (List.replicate pad 0xFF#8 ++ ([id, len, err] ++ params))

theorem statusBytes_eq (pad : Nat) (id len err : Byte) (params : List Byte) (c : Byte) :
    statusBytes pad id len err params c = statusBody pad id len err params ++ [c] := by
  simp [statusBytes, statusBody, Config.preamble]

@[simp] theorem length_statusBody (pad : Nat) (id len err : Byte) (params : List Byte) :
    (statusBody pad id len err params).length = 5 + pad + params.length := by
  simp [statusBody]; omega

/-- From `IDLE` a frame's bytes up to the checksum complete nothing and are summed (R101 to R106). -/
theorem decBytes_statusBody {d : DecRegs} {pad : Nat} {id len err : Byte} {params : List Byte} (hd : d.state = .idle)
    (hid : id ≠ 0xFF#8) (hlen : params.length = len.toNat - 2) :
    decBytes (statusBody pad id len err params) d =
      (List.replicate (5 + pad + params.length) .notDone,
       { state := .cmdRcvd, id := id, length := len, cmd := err, params := params,
         sum := BitVec.ofNat 8 (byteSum ([id, len, err] ++ params) % 256) }) := by
  rcases d with ⟨st, di, dl, dc, dp, ds⟩
  cases (show st = .idle from hd)
  have h1 : decBytes [0xFF#8, 0xFF#8] ⟨.idle, di, dl, dc, dp, ds⟩ =
      (List.replicate 2 .notDone, ⟨.secondFF, 0#8, 0#8, dc, [], ds⟩) := by
    simp [decBytes, decByte, decIdle, decFirstFF, Config.preamble, List.replicate]
  have h2 : decBytes [id, len, err] ⟨.secondFF, 0#8, 0#8, dc, [], ds⟩ =
      (List.replicate 3 .notDone, ⟨.cmdRcvd, id, len, err, [], id + len + err⟩) := by
    simp [decBytes, decByte, decSecondFF, decIdRcvd, decLengthRcvd, Config.preamble, hid, List.replicate]
  have h3 := decBytes_params params ⟨.cmdRcvd, id, len, err, [], id + len + err⟩ rfl (by
    cases params with
    | nil => exact .inr rfl
    | cons p ps => simp only [List.length_cons, List.length_nil] at hlen ⊢; omega)
  have hs : BitVec.ofNat 8 ((id + len + err).toNat + byteSum params) =
      BitVec.ofNat 8 (byteSum ([id, len, err] ++ params) % 256) := by
    apply BitVec.eq_of_toNat_eq
    simp [BitVec.toNat_add]
    omega
  rw [statusBody, decBytes_append, h1, decBytes_append, decBytes_padding _ _ rfl, decBytes_append, h2]
  simp only [h3, List.nil_append, hs]
  rw [show 5 + pad + params.length = 2 + (pad + (3 + params.length)) by omega, List.replicate_add, List.replicate_add,
    List.replicate_add]

/-! ## The invariant of the decoder registers -/

theorem cleared_inv : DecRegs.cleared.Inv := by simp [DecRegs.Inv, DecRegs.cleared]

/-- Every byte keeps the invariant (R101 to R106). -/
theorem decByte_inv {d : DecRegs} (b : Byte) (h : d.Inv) : (decByte b d).2.Inv := by
  rcases d with ⟨st, id, len, cmd, ps, sum⟩
  cases st with
  | idle =>
    by_cases hb : b = 0xFF#8 <;> simp [decByte, decIdle, DecRegs.Inv, Config.preamble, hb]
  | firstFF =>
    simp only [DecRegs.Inv] at h
    by_cases hb : b = 0xFF#8 <;> simp [decByte, decFirstFF, DecRegs.Inv, Config.preamble, hb, h]
  | secondFF =>
    simp only [DecRegs.Inv] at h
    by_cases hb : b = 0xFF#8 <;> simp [decByte, decSecondFF, DecRegs.Inv, Config.preamble, hb, h]
  | idRcvd =>
    simp only [DecRegs.Inv] at h
    simp [decByte, decIdRcvd, DecRegs.Inv, h]
  | lengthRcvd =>
    simp only [DecRegs.Inv] at h
    simp only [decByte, decLengthRcvd, DecRegs.Inv, h]
    refine ⟨h.1, by simp, ?_⟩
    apply BitVec.eq_of_toNat_eq
    simp [BitVec.toNat_add]
    omega
  | cmdRcvd =>
    simp only [DecRegs.Inv] at h
    obtain ⟨hid, hlen, hsum⟩ := h
    simp only [decByte, decCmdRcvd]
    split
    · simp only [DecRegs.Inv]
      omega
    · refine ⟨hid, by simp; omega, ?_⟩
      simp only [hsum]
      apply BitVec.eq_of_toNat_eq
      simp [BitVec.toNat_add]
      omega

end Sys2Proof.Machine
end

