-- ==== Sys2Proof/Laws/Encoding.lean ====
section
/-! SUPPORT. Each operand field read back from what the encoder puts: one lemma per field. -/

namespace Sys2Proof

@[simp] theorem bindGot_ok {α β : Type} (a : α) (rest : List Byte) (f : α → List Byte → Got β) :
    bindGot (.ok (a, rest)) f = f a rest := rfl

@[simp] theorem bindGot_error {α β : Type} (e : DecodeError) (f : α → List Byte → Got β) :
    bindGot (.error e) f = .error e := rfl

/-- Everything `bindGot` can answer as a value. -/
theorem bindGot_eq_ok {α β : Type} {g : Got α} {f : α → List Byte → Got β} {b : β} {rest : List Byte}
    (h : bindGot g f = .ok (b, rest)) : ∃ a mid, g = .ok (a, mid) ∧ f a mid = .ok (b, rest) := by
  cases g with
  | error e => cases h
  | ok p => exact ⟨p.1, p.2, rfl, h⟩

@[simp] theorem getByte_cons (b : Byte) (rest : List Byte) : getByte (b :: rest) = .ok (b, rest) := rfl

@[simp] theorem getBytes_append (l rest : List Byte) : getBytes l.length (l ++ rest) = .ok (l, rest) := by
  induction l with
  | nil => rfl
  | cons b l ih => simp [getBytes, gotten, ih]

theorem getBytes_of_length {n : Nat} {l : List Byte} (rest : List Byte) (h : l.length = n) :
    getBytes n (l ++ rest) = .ok (l, rest) := by
  subst h; exact getBytes_append l rest

theorem getLE_putLE (n v : Nat) (rest : List Byte) (h : v < 256 ^ n) :
    getLE n (putLE n v ++ rest) = .ok (v, rest) := by
  induction n generalizing v with
  | zero => simp [getLE, putLE]; omega
  | succ n ih =>
    have hv : v / 256 < 256 ^ n := by
      rw [Nat.div_lt_iff_lt_mul (by omega), ← Nat.pow_succ]; exact h
    simp [getLE, putLE, gotten, ih _ hv]
    omega

theorem getCount_putCount {n : Nat} (rest : List Byte) (h : n < 65536) :
    getCount (putCount n ++ rest) = .ok (n, rest) := getLE_putLE 2 n rest h

theorem getNat_putNat {n : Nat} (rest : List Byte) (h : n < 2 ^ 64) : getNat (putNat n ++ rest) = .ok (n, rest) :=
  getLE_putLE 8 n rest h

theorem getInt_putInt {i : Int} (rest : List Byte) (h : fitsInt i = true) :
    getInt (putInt i ++ rest) = .ok (i, rest) := by
  simp only [fitsInt, Bool.and_eq_true, decide_eq_true_eq] at h
  rw [getInt, putInt, getNat_putNat _ (by omega)]
  simp only [bindGot_ok, gotten]
  split <;> congr 2 <;> omega

theorem getRat_putRat {q : Rat} (rest : List Byte) (h : fitsRat q = true) :
    getRat (putRat q ++ rest) = .ok (q, rest) := by
  simp only [fitsRat, fitsNat, Bool.and_eq_true, decide_eq_true_eq] at h
  have hd : q.den - 1 + 1 = q.den := Nat.succ_pred_eq_of_pos q.den_pos
  rw [getRat, putRat, List.append_assoc, getInt_putInt _ h.1, bindGot_ok, getNat_putNat _ h.2, bindGot_ok, hd,
    Rat.mkRat_self]
  rfl

theorem getMany_flatMap {α : Type} {get : List Byte → Got α} {put : α → List Byte} {l : List α} (rest : List Byte)
    (h : ∀ a ∈ l, ∀ rest, get (put a ++ rest) = .ok (a, rest)) :
    getMany get l.length (l.flatMap put ++ rest) = .ok (l, rest) := by
  induction l with
  | nil => rfl
  | cons a l ih =>
    simp [getMany, gotten, h a (by simp), ih fun b hb => h b (by simp [hb])]

theorem getSeq_putSeq {α : Type} {get : List Byte → Got α} {put : α → List Byte} {l : List α} (rest : List Byte)
    (hl : fitsCount l = true) (h : ∀ a ∈ l, ∀ rest, get (put a ++ rest) = .ok (a, rest)) :
    getSeq get (putSeq put l ++ rest) = .ok (l, rest) := by
  simp only [fitsCount, decide_eq_true_eq] at hl
  rw [getSeq, putSeq, List.append_assoc, getCount_putCount _ hl, bindGot_ok, getMany_flatMap rest h]

theorem getData_putData {l : List Byte} (rest : List Byte) (hl : fitsCount l = true) :
    getData (putData l ++ rest) = .ok (l, rest) := by
  simp only [fitsCount, decide_eq_true_eq] at hl
  rw [getData, putData, List.append_assoc, getCount_putCount _ hl, bindGot_ok, getBytes_append]

/-- A code field read back, for any code that its reader knows. -/
theorem getCode_cons {α : Type} {e : DecodeError} {of : Byte → Option α} {b : Byte} {a : α} (rest : List Byte)
    (h : of b = some a) : getCode e of (b :: rest) = .ok (a, rest) := by
  simp [getCode, h, gotten]

@[simp] theorem boolOfCode_code (b : Bool) : boolOfCode (boolCode b) = some b := by cases b <;> rfl
@[simp] theorem sizeOfCode_code (s : RegSize) : sizeOfCode (sizeCode s) = some s := by cases s <;> rfl
@[simp] theorem accessOfCode_code (a : Access) : accessOfCode (accessCode a) = some a := by cases a <;> rfl
@[simp] theorem onOffOfCode_code (v : OnOff) : onOffOfCode (onOffCode v) = some v := by cases v <;> rfl
@[simp] theorem levelOfCode_code (v : ReturnLevel) : levelOfCode (levelCode v) = some v := by cases v <;> rfl
@[simp] theorem ofTag_tag (t : RegType) : RegType.ofTag t.tag = some t := by cases t <;> rfl

@[simp] theorem errBitsOfCode_code (e : ErrBits) : errBitsOfCode (errBitsCode e) = e := by
  rcases e with ⟨a, b, c, d, e, f, g, h⟩
  cases a <;> cases b <;> cases c <;> cases d <;> cases e <;> cases f <;> cases g <;> cases h <;> rfl

theorem getBound_putBound {b : Option Int} (rest : List Byte) (h : fitsBound b = true) :
    getBound (putBound b ++ rest) = .ok (b, rest) := by
  cases b with
  | none => rfl
  | some i =>
    rw [getBound, putBound, List.cons_append, getCode_cons (a := true) _ rfl, bindGot_ok]
    simp only
    rw [getInt_putInt _ h, bindGot_ok, gotten]

theorem getReg_putReg {r : RegDesc} (rest : List Byte) (h : r.fits = true) :
    getReg (putReg r ++ rest) = .ok (r, rest) := by
  simp only [RegDesc.fits, Bool.and_eq_true] at h
  simp only [getReg, putReg, List.append_assoc]
  rw [getData_putData _ h.1.1]
  simp only [bindGot_ok, List.cons_append, getByte_cons, List.nil_append]
  rw [getCode_cons _ (sizeOfCode_code r.size), bindGot_ok, getCode_cons _ (accessOfCode_code r.access), bindGot_ok,
    getBound_putBound _ h.1.2, bindGot_ok, getBound_putBound _ h.2, bindGot_ok, getCode_cons _ (ofTag_tag r.type),
    bindGot_ok, gotten]

theorem getLoad_putLoad {v : LoadValue} (rest : List Byte) (h : fitsNat v.magnitude = true) :
    getLoad (putLoad v ++ rest) = .ok (v, rest) := by
  simp only [fitsNat, decide_eq_true_eq] at h
  rw [getLoad, putLoad, List.cons_append, getCode_cons _ (boolOfCode_code v.sign), bindGot_ok, getNat_putNat _ h,
    bindGot_ok, gotten]

/-! ## Frames -/

theorem skipPad_replicate (n : Nat) {id : Byte} (rest : List Byte) (h : id ≠ 0xFF#8) :
    skipPad (List.replicate n 0xFF#8 ++ id :: rest) = (n, id :: rest) := by
  induction n with
  | zero => simp [skipPad, h]
  | succ n ih => simp [List.replicate_succ, skipPad, ih]

theorem getBlock_putBlock {n : Nat} {b : Byte × List Byte} (rest : List Byte) (h : b.2.length = n) :
    getBlock n (putBlock b ++ rest) = .ok (b, rest) := by
  rw [getBlock, putBlock, List.cons_append, getByte_cons, bindGot_ok, getBytes_of_length rest h, bindGot_ok, gotten]

/-- A concatenation as a number: the high part shifted, the low part added. -/
theorem toNat_append_eq {w v : Nat} (x : BitVec w) (y : BitVec v) : (x ++ y).toNat = x.toNat * 2 ^ v + y.toNat := by
  rw [BitVec.toNat_append, ← Nat.shiftLeft_add_eq_or_of_lt y.isLt, Nat.shiftLeft_eq]

/-- Equal concatenations of equal widths have equal parts. -/
theorem append_inj {w v : Nat} {a c : BitVec w} {b d : BitVec v} : a ++ b = c ++ d ↔ a = c ∧ b = d := by
  constructor
  · intro h
    have h := congrArg BitVec.toNat h
    rw [toNat_append_eq, toNat_append_eq] at h
    have hb := b.isLt
    have hd := d.isLt
    have h1 : b.toNat = d.toNat := by
      have := congrArg (· % 2 ^ v) h
      simpa [Nat.add_mod, Nat.mod_eq_of_lt hb, Nat.mod_eq_of_lt hd] using this
    refine ⟨BitVec.eq_of_toNat_eq ?_, BitVec.eq_of_toNat_eq h1⟩
    have h2 : a.toNat * 2 ^ v = c.toNat * 2 ^ v := by omega
    exact Nat.eq_of_mul_eq_mul_right (Nat.two_pow_pos v) h2
  · rintro ⟨rfl, rfl⟩; rfl

/-- Which command a header selects, in terms of its bytes (R70). -/
theorem selects_iff (c : Cmd) (id len cmd : Byte) :
    c.selects (headerWord id len cmd) = true ↔
      cmd = c.code ∧
      match c with
      | .ping | .action | .reset => len = 2#8
      | .read => len = 4#8
      | .write | .deferredWrite => True
      | .syncWrite => id = 0xFE#8 := by
  have key : ∀ mi ml mc vi vl vc : Byte,
      (headerWord id len cmd &&& (0xFF#8 ++ 0xFF#8 ++ mi ++ ml ++ mc) = 0xFF#8 ++ 0xFF#8 ++ vi ++ vl ++ vc) ↔
        (id &&& mi = vi ∧ len &&& ml = vl ∧ cmd &&& mc = vc) := by
    intro mi ml mc vi vl vc
    rw [headerWord, BitVec.and_append, BitVec.and_append, BitVec.and_append, BitVec.and_append, append_inj, append_inj,
      append_inj, append_inj]
    simp [and_assoc]
  have hF : ∀ b : Byte, b &&& 0xFF#8 = b := fun b => by
    rw [show (0xFF#8 : Byte) = BitVec.allOnes 8 by rfl, BitVec.and_allOnes]
  have h0 : ∀ b : Byte, b &&& 0x00#8 = 0x00#8 := fun b => by simp
  cases c <;> simp only [Cmd.selects, Cmd.row, Cmd.code, beq_iff_eq]
  · have := key 0x00#8 0xFF#8 0xFF#8 0x00#8 0x02#8 0x01#8
    rw [hF, hF, h0] at this
    exact this.trans (by simp [and_comm])
  · have := key 0x00#8 0xFF#8 0xFF#8 0x00#8 0x04#8 0x02#8
    rw [hF, hF, h0] at this
    exact this.trans (by simp [and_comm])
  · have := key 0x00#8 0x00#8 0xFF#8 0x00#8 0x00#8 0x03#8
    rw [hF, h0, h0] at this
    exact this.trans (by simp)
  · have := key 0x00#8 0x00#8 0xFF#8 0x00#8 0x00#8 0x04#8
    rw [hF, h0, h0] at this
    exact this.trans (by simp)
  · have := key 0x00#8 0xFF#8 0xFF#8 0x00#8 0x02#8 0x05#8
    rw [hF, hF, h0] at this
    exact this.trans (by simp [and_comm])
  · have := key 0x00#8 0xFF#8 0xFF#8 0x00#8 0x02#8 0x06#8
    rw [hF, hF, h0] at this
    exact this.trans (by simp [and_comm])
  · have := key 0xFF#8 0x00#8 0xFF#8 0xFE#8 0x00#8 0x83#8
    rw [hF, hF, h0] at this
    exact this.trans (by simp [and_comm])

/-- The two frames of decoding: after the preamble a frame, elsewhere a host operation. -/
theorem decode_frame (bs : List Byte) : decode (0xFF#8 :: 0xFF#8 :: bs) = getFrame bs := by simp [decode]

theorem decode_op {sel : Byte} (bs : List Byte) (h : sel ≠ 0xFF#8) : decode (sel :: bs) = getOp sel bs := by
  cases bs <;> simp [decode, h]

/-- The command found for a header is one whose row selects it. -/
theorem selects_of_headerCmd {h : BitVec 40} {c : Cmd} (hc : headerCmd h = some c) : c.selects h = true := by
  simpa using List.find?_some hc

/-- A header that a command's row selects is that command's (R70). -/
theorem headerCmd_of_selects {id len cmd : Byte} {c : Cmd} (h : c.selects (headerWord id len cmd) = true) :
    headerCmd (headerWord id len cmd) = some c := by
  have hcode := ((selects_iff c id len cmd).mp h).1
  have hn : ∀ d : Cmd, d ≠ c → d.selects (headerWord id len cmd) = false := by
    intro d hd
    by_contra hx
    have := ((selects_iff d id len cmd).mp (by simpa using hx)).1
    rw [hcode] at this
    cases c <;> cases d <;> simp_all [Cmd.code]
  unfold headerCmd
  cases c <;> simp [h, hn]

/-- A header no command's row selects. -/
theorem headerCmd_of_not_commandLike {id len cmd : Byte} (h : commandLike id len cmd = false) :
    headerCmd (headerWord id len cmd) = none := by
  unfold headerCmd
  rw [List.find?_eq_none]
  intro c _ hc
  obtain ⟨rfl, hc⟩ := (selects_iff c id len cmd).mp hc
  cases c <;> simp_all [commandLike, Cmd.code, Config.idBroadcast]

/-- A header some command's row selects. -/
theorem commandLike_iff {id len cmd : Byte} :
    commandLike id len cmd = true ↔ ∃ c : Cmd, c.selects (headerWord id len cmd) = true := by
  constructor
  · intro h
    simp only [commandLike, Bool.or_eq_true, decide_eq_true_eq] at h
    rcases h with (((((⟨rfl, rfl⟩ | ⟨rfl, rfl⟩) | rfl) | rfl) | ⟨rfl, rfl⟩) | ⟨rfl, rfl⟩) | ⟨rfl, rfl⟩
    · exact ⟨.ping, (selects_iff _ _ _ _).mpr ⟨rfl, rfl⟩⟩
    · exact ⟨.read, (selects_iff _ _ _ _).mpr ⟨rfl, rfl⟩⟩
    · exact ⟨.write, (selects_iff _ _ _ _).mpr ⟨rfl, trivial⟩⟩
    · exact ⟨.deferredWrite, (selects_iff _ _ _ _).mpr ⟨rfl, trivial⟩⟩
    · exact ⟨.action, (selects_iff _ _ _ _).mpr ⟨rfl, rfl⟩⟩
    · exact ⟨.reset, (selects_iff _ _ _ _).mpr ⟨rfl, rfl⟩⟩
    · exact ⟨.syncWrite, (selects_iff _ _ _ _).mpr ⟨rfl, rfl⟩⟩
  · rintro ⟨c, hc⟩
    by_contra hn
    have := headerCmd_of_not_commandLike (by simpa using hn)
    rw [headerCmd_of_selects hc] at this
    cases this

/-- The frame of a command, decoded as far as its header. -/
theorem decode_putCommand {c : Cmd} {id : Byte} {params : List Byte} (rest : List Byte) (hid : id ≠ 0xFF#8)
    (h : c.selects (headerWord id (BitVec.ofNat 8 (params.length + 2)) c.code) = true) :
    decode (putCommand c id params ++ rest) =
      getCommand c id (BitVec.ofNat 8 (params.length + 2)) (params ++ rest) := by
  have hp := skipPad_replicate 0 (BitVec.ofNat 8 (params.length + 2) :: c.code :: (params ++ rest)) hid
  simp only [List.replicate_zero, List.nil_append] at hp
  simp [putCommand, decode_frame, getFrame, hp, headerCmd_of_selects h]

theorem length_flatMap_putBlock {n : Nat} {blocks : List (Byte × List Byte)} (h : ∀ b ∈ blocks, b.2.length = n) :
    (blocks.flatMap putBlock).length = blocks.length * (n + 1) := by
  induction blocks with
  | nil => simp
  | cons b bs ih =>
    have hb := ih fun x hx => h x (by simp [hx])
    simp only [List.flatMap_cons, List.length_append, hb, putBlock, List.length_cons, h b (by simp)]
    ring

end Sys2Proof
end

