-- ==== Sys2Proof/Laws/Decoding.lean ====
section
/-! SUPPORT. What each reader of an operand field can answer: one lemma per field. -/

namespace Sys2Proof

theorem gotten_eq_ok {α : Type} {a b : α} {bs rest : List Byte} (h : gotten a bs = .ok (b, rest)) :
    a = b ∧ bs = rest := by
  simpa [gotten] using h

theorem bindGot_eq_ok_iff {α β : Type} {g : Got α} {f : α → List Byte → Got β} {b : β} {rest : List Byte} :
    bindGot g f = .ok (b, rest) ↔ ∃ a mid, g = .ok (a, mid) ∧ f a mid = .ok (b, rest) :=
  ⟨bindGot_eq_ok, fun ⟨a, mid, hg, hf⟩ => by rw [hg]; exact hf⟩

theorem gotten_eq_ok_iff {α : Type} {a b : α} {bs rest : List Byte} :
    gotten a bs = .ok (b, rest) ↔ a = b ∧ bs = rest := by
  simp [gotten]

theorem length_of_getBytes {n : Nat} {bs l rest : List Byte} (h : getBytes n bs = .ok (l, rest)) : l.length = n := by
  induction n generalizing bs l rest with
  | zero => simp only [getBytes, Except.ok.injEq, Prod.mk.injEq] at h; simp [← h.1]
  | succ n ih =>
    obtain ⟨b, bs1, -, h⟩ := bindGot_eq_ok h
    obtain ⟨l', bs2, h2, h⟩ := bindGot_eq_ok h
    obtain ⟨rfl, -⟩ := gotten_eq_ok h
    simp [ih h2]

theorem lt_of_getLE {n v : Nat} {bs rest : List Byte} (h : getLE n bs = .ok (v, rest)) : v < 256 ^ n := by
  induction n generalizing bs v rest with
  | zero => simp only [getLE, Except.ok.injEq, Prod.mk.injEq] at h; simp [← h.1]
  | succ n ih =>
    obtain ⟨b, bs1, -, h⟩ := bindGot_eq_ok h
    obtain ⟨u, bs2, h2, h⟩ := bindGot_eq_ok h
    obtain ⟨rfl, -⟩ := gotten_eq_ok h
    have := ih h2
    have := b.isLt
    rw [Nat.pow_succ]
    omega

theorem lt_of_getCount {n : Nat} {bs rest : List Byte} (h : getCount bs = .ok (n, rest)) : n < 65536 := lt_of_getLE h

theorem fits_of_getNat {n : Nat} {bs rest : List Byte} (h : getNat bs = .ok (n, rest)) : fitsNat n = true :=
  decide_eq_true (lt_of_getLE h)

theorem fits_of_getInt {i : Int} {bs rest : List Byte} (h : getInt bs = .ok (i, rest)) : fitsInt i = true := by
  obtain ⟨u, bs1, h1, h⟩ := bindGot_eq_ok h
  obtain ⟨rfl, -⟩ := gotten_eq_ok h
  have hu : u < 2 ^ 64 := lt_of_getLE h1
  simp only [fitsInt, Bool.and_eq_true, decide_eq_true_eq]
  split <;> omega

theorem fits_of_getRat {q : Rat} {bs rest : List Byte} (h : getRat bs = .ok (q, rest)) : fitsRat q = true := by
  obtain ⟨num, bs1, h1, h⟩ := bindGot_eq_ok h
  obtain ⟨d, bs2, h2, h⟩ := bindGot_eq_ok h
  obtain ⟨rfl, -⟩ := gotten_eq_ok h
  have hi := fits_of_getInt h1
  have hn : d < 2 ^ 64 := lt_of_getLE h2
  simp only [fitsInt, Bool.and_eq_true, decide_eq_true_eq] at hi
  simp only [fitsRat, fitsInt, fitsNat, Bool.and_eq_true, decide_eq_true_eq, Rat.num_mkRat, Rat.den_mkRat]
  simp only [Nat.succ_ne_zero, if_false]
  have hg : 0 < (d + 1).gcd num.natAbs := Nat.gcd_pos_of_pos_left _ (by omega)
  have hden : (d + 1) / (d + 1).gcd num.natAbs ≤ d + 1 := Nat.div_le_self _ _
  have hg1 : (1 : Int) ≤ (d + 1).gcd num.natAbs := by exact_mod_cast hg
  refine ⟨⟨?_, ?_⟩, by omega⟩
  · by_cases h0 : 0 ≤ num
    · have := Int.ediv_nonneg h0 (by omega : (0 : Int) ≤ (d + 1).gcd num.natAbs)
      omega
    · have := Int.ediv_le_ediv (by omega : (0 : Int) < (d + 1).gcd num.natAbs) hi.1
      have h2 : (-2 ^ 63 : Int) ≤ (-2 ^ 63 : Int) / ((d + 1).gcd num.natAbs : Int) := by
        rw [Int.le_ediv_iff_mul_le (by omega)]
        nlinarith
      omega
  · by_cases h0 : 0 ≤ num
    · have := Int.ediv_le_self ((d + 1).gcd num.natAbs : Int) h0
      omega
    · have := Int.ediv_neg_of_neg_of_pos (by omega : num < 0) (by omega : (0 : Int) < (d + 1).gcd num.natAbs)
      omega

theorem fits_of_getData {l bs rest : List Byte} (h : getData bs = .ok (l, rest)) : fitsCount l = true := by
  obtain ⟨n, bs1, h1, h⟩ := bindGot_eq_ok h
  have hn := lt_of_getCount h1
  rw [← length_of_getBytes h] at hn
  exact decide_eq_true hn

theorem all_of_getMany {α : Type} {P : α → Prop} {get : List Byte → Got α}
    (hget : ∀ {bs a rest}, get bs = .ok (a, rest) → P a) {n : Nat} {bs rest : List Byte} {l : List α}
    (h : getMany get n bs = .ok (l, rest)) : l.length = n ∧ ∀ a ∈ l, P a := by
  induction n generalizing bs l rest with
  | zero => simp only [getMany, Except.ok.injEq, Prod.mk.injEq] at h; simp [← h.1]
  | succ n ih =>
    obtain ⟨a, bs1, h1, h⟩ := bindGot_eq_ok h
    obtain ⟨l', bs2, h2, h⟩ := bindGot_eq_ok h
    obtain ⟨rfl, -⟩ := gotten_eq_ok h
    obtain ⟨hl, hall⟩ := ih h2
    exact ⟨by simp [hl], by simpa using ⟨hget h1, hall⟩⟩

theorem all_of_getSeq {α : Type} {P : α → Prop} {get : List Byte → Got α}
    (hget : ∀ {bs a rest}, get bs = .ok (a, rest) → P a) {bs rest : List Byte} {l : List α}
    (h : getSeq get bs = .ok (l, rest)) : fitsCount l = true ∧ ∀ a ∈ l, P a := by
  obtain ⟨n, bs1, h1, h⟩ := bindGot_eq_ok h
  have hn := lt_of_getCount h1
  obtain ⟨hl, hall⟩ := all_of_getMany hget h
  exact ⟨decide_eq_true (hl ▸ hn), hall⟩

theorem fits_of_getBound {b : Option Int} {bs rest : List Byte} (h : getBound bs = .ok (b, rest)) :
    fitsBound b = true := by
  obtain ⟨present, bs1, -, h⟩ := bindGot_eq_ok h
  cases present with
  | false => obtain ⟨rfl, -⟩ := gotten_eq_ok h; rfl
  | true =>
    obtain ⟨i, bs2, h2, h⟩ := bindGot_eq_ok h
    obtain ⟨rfl, -⟩ := gotten_eq_ok h
    exact fits_of_getInt h2

theorem fits_of_getReg {r : RegDesc} {bs rest : List Byte} (h : getReg bs = .ok (r, rest)) : r.fits = true := by
  obtain ⟨name, bs1, h1, h⟩ := bindGot_eq_ok h
  obtain ⟨offset, bs2, -, h⟩ := bindGot_eq_ok h
  obtain ⟨size, bs3, -, h⟩ := bindGot_eq_ok h
  obtain ⟨access, bs4, -, h⟩ := bindGot_eq_ok h
  obtain ⟨lo, bs5, h5, h⟩ := bindGot_eq_ok h
  obtain ⟨hi, bs6, h6, h⟩ := bindGot_eq_ok h
  obtain ⟨type, bs7, -, h⟩ := bindGot_eq_ok h
  obtain ⟨rfl, -⟩ := gotten_eq_ok h
  simp [RegDesc.fits, fits_of_getData h1, fits_of_getBound h5, fits_of_getBound h6]

theorem fits_of_getLoad {v : LoadValue} {bs rest : List Byte} (h : getLoad bs = .ok (v, rest)) :
    fitsNat v.magnitude = true := by
  obtain ⟨sign, bs1, -, h⟩ := bindGot_eq_ok h
  obtain ⟨m, bs2, h2, h⟩ := bindGot_eq_ok h
  obtain ⟨rfl, -⟩ := gotten_eq_ok h
  exact fits_of_getNat h2

theorem length_of_getBlock {n : Nat} {b : Byte × List Byte} {bs rest : List Byte}
    (h : getBlock n bs = .ok (b, rest)) : b.2.length = n := by
  obtain ⟨id, bs1, -, h⟩ := bindGot_eq_ok h
  obtain ⟨data, bs2, h2, h⟩ := bindGot_eq_ok h
  obtain ⟨rfl, -⟩ := gotten_eq_ok h
  exact length_of_getBytes h2

/-- The byte that ends the padding is no padding byte. -/
theorem skipPad_ne {bs rest : List Byte} {id : Byte} (h : (skipPad bs).2 = id :: rest) : id ≠ 0xFF#8 := by
  induction bs with
  | nil => simp [skipPad] at h
  | cons b bs ih =>
    unfold skipPad at h
    split at h
    · exact ih h
    · next hb =>
      simp only [List.cons.injEq] at h
      rw [← h.1]; exact hb

end Sys2Proof
end

