-- ==== Sys2Proof/Laws/Transport.lean ====
section
/-! SUPPORT. What the receive side can do, said once: one receive event, and a run of pulls. -/

namespace Sys2Proof.Machine

/-- The result an operation delivers for an error of the bus is that error, but for ping's Timeout (R140). -/
theorem shape_err {op : WireOp} {e : HostError} :
    shape op (.err e) = .ok (if op = .ping ∧ e = .timeout then .ok (.bool false) else .err e) := by
  cases op <;> cases e <;> simp [shape]

/-- A result that is shaped into an error was that error. -/
theorem shape_eq_err {op : WireOp} {r : Result} {e : HostError} (h : shape op r = .ok (.err e)) : r = .err e := by
  cases r with
  | err e' =>
    rw [shape_err] at h
    by_cases hp : op = .ping ∧ e' = .timeout
    · simp [hp] at h
    · simpa [hp] using h
  | ok p =>
    cases op <;> cases p <;> simp [shape] at h
    split at h <;> simp at h

/-- What the receive side leaves alone, and how it ends: nothing is sent and no configuration is written; either the
read goes on and nothing is delivered, or it ends with one result, whose error is one of the bus. -/
structure ReadStep (s t : State) : Prop where
  cfg      : t.cfg = s.cfg
  tx       : t.tx = s.tx
  ports_tx : t.ports.tx = s.ports.tx
  op       : t.arb.op = s.arb.op
  turns    : t.ports.turns = s.ports.turns
  dec      : s.dec.Inv → t.dec.Inv
  ends     : (t.arb.phase = .await ∧ t.ports.hr = s.ports.hr) ∨
             (t.arb.phase = .idle ∧ ∃ r, t.ports.hr = s.ports.hr ++ [r] ∧ ∀ e, r = .err e → e.hostSide = false)

theorem conclude_next {r : Result} {s t : State} (h : conclude r s = .next t) :
    ∃ r', shape s.arb.op r = .ok r' ∧ t = settle r' s := by
  unfold conclude at h
  split at h
  · next r' hr' => cases h; exact ⟨r', hr', rfl⟩
  · cases h

theorem readStep_of_conclude {s u t : State} {r : Result} (hr : ∀ e, r = .err e → e.hostSide = false)
    (hu : u.cfg = s.cfg ∧ u.tx = s.tx ∧ u.ports.tx = s.ports.tx ∧ u.arb.op = s.arb.op ∧
      u.ports.turns = s.ports.turns ∧ u.ports.hr = s.ports.hr ∧ (s.dec.Inv → u.dec.Inv))
    (h : conclude r u = .next t) : ReadStep s t := by
  obtain ⟨r', hr', rfl⟩ := conclude_next h
  obtain ⟨h1, h2, h3, h4, h5, h6, h7⟩ := hu
  refine ⟨h1, h2, h3, h4, h5, h7, .inr ⟨rfl, r', by simp [h6], ?_⟩⟩
  rintro e rfl
  exact hr e (shape_eq_err hr')

theorem frameResult_err {d : DecRegs} {e : HostError} (h : frameResult d = .err e) : e.hostSide = false := by
  unfold frameResult at h
  split at h
  · cases h
  · cases h; rfl

/-- One receive event (R124). -/
theorem receiveStep_next {s t : State} (hs : s.arb.phase = .await) (h : receiveStep s = .next t) : ReadStep s t := by
  unfold receiveStep receive at h
  split at h
  · exact readStep_of_conclude (by rintro e ⟨⟩; rfl) (by simp) h
  · next b _ =>
    simp only [pull_dec] at h
    have hinv : s.dec.Inv → (decByte b s.dec).2.Inv := decByte_inv b
    split at h
    · cases h
      exact ⟨by simp, by simp, by simp, by simp, by simp, hinv, .inl ⟨by simpa using hs, by simp⟩⟩
    · exact readStep_of_conclude (by rintro e ⟨⟩; rfl) (by simpa using hinv) h
    · exact readStep_of_conclude (fun e he => frameResult_err he) (by simpa using hinv) h

theorem receiveSome_of_idle {n : Nat} {s : State} (h : s.arb.phase = .idle) : receiveSome n s = .next s := by
  cases n <;> simp [receiveSome, h]

/-- A run of pulls (R124). -/
theorem receiveSome_next {n : Nat} {s t : State} (hs : s.arb.phase = .await) (h : receiveSome n s = .next t) :
    t = s ∨ ReadStep s t := by
  induction n generalizing s with
  | zero => cases h; exact .inl rfl
  | succ n ih =>
    simp only [receiveSome, hs] at h
    split at h
    · next u hu =>
      have h1 := receiveStep_next hs hu
      rcases h1.ends with ⟨hp, hhr⟩ | ⟨hp, hhr⟩
      · rcases ih hp h with rfl | h2
        · exact .inr h1
        · refine .inr ⟨h2.cfg.trans h1.cfg, h2.tx.trans h1.tx, h2.ports_tx.trans h1.ports_tx, h2.op.trans h1.op,
            h2.turns.trans h1.turns, fun h => h2.dec (h1.dec h), ?_⟩
          simpa [hhr] using h2.ends
      · rw [receiveSome_of_idle hp] at h
        cases h
        exact .inr h1
    · cases h
    · cases h

end Sys2Proof.Machine
end

