-- ==== Sys2Proof/Laws/Run.lean ====
section
/-! SUPPORT. Runs of a serialised host while a status frame is awaited: every step is one receive event, and bytes that
complete no frame are consumed without a result. -/

namespace Sys2Proof.Machine

/-- A run of one step more. -/
theorem steps_succ_of_next {n : Nat} {s t : State} (h : step s = .next t) : steps (n + 1) s = steps n t := by
  simp [steps, h]

theorem steps_one (s : State) : steps 1 s = step s := by
  unfold steps
  cases step s <;> rfl

theorem takeTurn_of_serial {s : State} (h : s.Serial) : takeTurn s = s := by
  rcases s with ⟨dec, tx, arb, cfg, ⟨hc, turns, rx, ptx, hr, pulls⟩⟩
  cases (show turns = [] from h)
  rfl

/-- Under a serialised host a step in `T_AWAIT` is one receive event (R124). -/
theorem step_of_await {s : State} (hser : s.Serial) (hp : s.arb.phase = .await) : step s = receiveStep s := by
  have ha : nextAgent s = .wire := by
    unfold nextAgent
    rw [show s.ports.turns = [] from hser]
    simp [hp]
  simp only [step, ha, takeTurn_of_serial hser, wireMove, hp]

/-- Every end of a read: the block is idle, or `read_reg` was answered with another number of bytes (R143). -/
theorem conclude_ends (r : Result) (s : State) :
    (∃ t, conclude r s = .next t ∧ t.arb.phase = .idle) ∨
      (conclude r s = .refused .responseLengthMismatch ∧ ∃ size, s.arb.op = .readReg size) := by
  cases hs : shape s.arb.op r with
  | ok r' => exact .inl ⟨settle r' s, by simp only [conclude, hs], rfl⟩
  | error e =>
    right
    cases r with
    | err e' => rw [shape_err] at hs; cases hs
    | ok p =>
      unfold conclude
      revert hs
      cases s.arb.op <;> cases p <;> simp only [shape] <;> intro hs <;> first | cases hs | skip
      split at hs
      · cases hs
      · cases hs
        exact ⟨rfl, _, rfl⟩

/-- The state after `bs` have been pulled and none of them completed a frame. -/
def consumed (bs : List Byte) (rest : List RxEvent) (s : State) : State :=
  { s with dec := (decBytes bs s.dec).2, ports := { s.ports with rx := rest, pulls := s.ports.pulls + bs.length } }

theorem consumed_nil {rest : List RxEvent} {s : State} (h : s.ports.rx = rest) : consumed [] rest s = s := by
  subst h; rfl

theorem receiveStep_of_notDone {b : Byte} {rest : List RxEvent} {s : State} (hrx : s.ports.rx = .byte b :: rest)
    (hn : (decByte b s.dec).1 = .notDone) : receiveStep s = .next (consumed [b] rest s) := by
  rw [receiveStep, pull_of_cons hrx]
  simp only [receive, hn]
  rfl

theorem consumed_consumed (b : Byte) (bs : List Byte) (mid rest : List RxEvent) (s : State) :
    consumed bs rest (consumed [b] mid s) = consumed (b :: bs) rest s := by
  simp only [consumed, decBytes, List.length_cons, List.length_nil, Nat.zero_add]
  rw [show s.ports.pulls + 1 + bs.length = s.ports.pulls + (bs.length + 1) by omega]

/-- Pulling bytes that complete no frame (R124, arm NOT_DONE). -/
theorem receiveSome_of_notDone {bs : List Byte} {s : State} (k : Nat) (rest : List RxEvent) (hp : s.arb.phase = .await)
    (hrx : s.ports.rx = bs.map .byte ++ rest) (hn : ∀ st ∈ (decBytes bs s.dec).1, st = .notDone) :
    receiveSome (bs.length + k) s = receiveSome k (consumed bs rest s) := by
  induction bs generalizing s with
  | nil => rw [consumed_nil (by simpa using hrx)]; simp
  | cons b bs ih =>
    simp only [decBytes, List.mem_cons, forall_eq_or_imp] at hn
    have h1 := receiveStep_of_notDone (rest := bs.map RxEvent.byte ++ rest) hrx hn.1
    rw [show (b :: bs).length + k = bs.length + k + 1 by simp; omega, receiveSome]
    simp only [hp, h1]
    rw [ih (s := consumed [b] (bs.map RxEvent.byte ++ rest) s) hp rfl hn.2, consumed_consumed]

/-- Steps on bytes that complete no frame (R124, arm NOT_DONE). -/
theorem steps_of_notDone {bs : List Byte} {s : State} (k : Nat) (rest : List RxEvent) (hser : s.Serial)
    (hp : s.arb.phase = .await) (hrx : s.ports.rx = bs.map .byte ++ rest)
    (hn : ∀ st ∈ (decBytes bs s.dec).1, st = .notDone) :
    steps (bs.length + k) s = steps k (consumed bs rest s) := by
  induction bs generalizing s with
  | nil => rw [consumed_nil (by simpa using hrx)]; simp
  | cons b bs ih =>
    simp only [decBytes, List.mem_cons, forall_eq_or_imp] at hn
    have h1 := receiveStep_of_notDone (rest := bs.map RxEvent.byte ++ rest) hrx hn.1
    rw [show (b :: bs).length + k = bs.length + k + 1 by simp; omega,
      steps_succ_of_next ((step_of_await hser hp).trans h1),
      ih (s := consumed [b] (bs.map RxEvent.byte ++ rest) s) hser hp rfl hn.2, consumed_consumed]

/-- The byte that completes a frame (R106, R124). -/
theorem receiveStep_of_checksumByte {s : State} {b : Byte} {rest : List RxEvent} (hrx : s.ports.rx = .byte b :: rest)
    (hd : s.dec.state = .cmdRcvd) (hl : s.dec.length.toNat ≤ s.dec.params.length + 2) :
    receiveStep s =
      conclude (if b.toNat = 255 - s.dec.sum.toNat then frameResult s.dec else .err .checksumMismatch)
        { s with
          dec   := { s.dec with state := .idle }
          ports := { s.ports with rx := rest, pulls := s.ports.pulls + 1 } } := by
  rw [receiveStep, pull_of_cons hrx]
  simp only [receive]
  rw [decByte_checksum hd hl]
  simp only [eq_not_iff]
  by_cases hb : b.toNat = 255 - s.dec.sum.toNat
  · simp only [hb, if_true]; rfl
  · simp only [hb, if_false]

end Sys2Proof.Machine
end

