-- ==== Sys2Proof/Laws/Step.lean ====
section
/-! SUPPORT. What a step can do, said once: every next state of `exec` and of `step` is one of a few moves. -/

namespace Sys2Proof.Machine

/-- The moves of the machine. -/
inductive Moved (s t : State) : Prop
  /-- A stateless function delivered its result. -/
  | answered (r : Result) (h : t = delivered r s)
  /-- A check of the host side ended an accepted operation. -/
  | rejected (op : WireOp) (e : HostError) (hs : s.arb.phase = .idle) (he : e.hostSide = true)
      (h : t = delivered (.err e) { s with arb := { s.arb with op := op } })
  /-- A command was sent and awaits nothing. -/
  | sentOnly (op : WireOp) (id command : Byte) (params : List Byte) (hs : s.arb.phase = .idle)
      (hid : id ≠ 0xFF#8) (hlen : params.length ≤ 253) (h : t = delivered (.ok .unit) (sent op id command params s))
  /-- A command was sent and a status frame is awaited. -/
  | sentAwaiting (op : WireOp) (id command : Byte) (params : List Byte) (hs : s.arb.phase = .idle)
      (hop : op.awaits = true) (hid : id ≠ 0xFF#8) (hlen : params.length ≤ 253)
      (h : t = awaiting (sent op id command params s))
  /-- `read_status_packet` began. -/
  | readStarted (hs : s.arb.phase = .idle) (h : t = awaiting { s with arb := { s.arb with op := .readStatusPacket } })
  /-- The decoder took a byte, or was reset, outside a transaction. -/
  | decoder (d : DecRegs) (r : Payload) (hs : s.arb.phase = .idle) (hd : s.dec.Inv → d.Inv)
      (h : t = delivered (.ok r) { s with dec := d })
  /-- Bytes arrived on the wire, and in `T_AWAIT` some were pulled. -/
  | arrived (bs : List Byte) (h : t = arrive bs s ∨ (s.arb.phase = .await ∧ ReadStep (arrive bs s) t))

theorem moved_of_answer {r : Result} {s t : State} (h : answer r s = .next t) : Moved s t := by
  cases h; exact .answered r rfl

theorem moved_of_answerOr {why : Refusal} {p : Option Payload} {s t : State} (h : answerOr why p s = .next t) :
    Moved s t := by
  cases p with
  | none => cases h
  | some p => exact moved_of_answer h

/-- An accepted operation that sends a command to be followed by `k`. -/
theorem moved_of_send {op : WireOp} {id command : Byte} {params : List Byte} {k : State → Out} {s t : State}
    (hs : s.arb.phase = .idle)
    (hk : ∀ u, k u = .next t → t = delivered (.ok .unit) u ∨ (op.awaits = true ∧ t = awaiting u))
    (h : sendThen id command params k { s with arb := { s.arb with op := op } } = .next t) : Moved s t := by
  obtain ⟨hid, ⟨-, rfl⟩ | ⟨hlen, h⟩⟩ := sendThen_next h
  · exact .rejected op .tooMuchData hs rfl (raise_of_idle hs)
  · rw [transmit_eq_sent] at h
    rcases hk _ h with rfl | ⟨hop, rfl⟩
    · exact .sentOnly op id command params hs hid hlen rfl
    · exact .sentAwaiting op id command params hs hop hid hlen rfl

theorem reportDone_next {u t : State} (h : reportDone u = .next t) : t = delivered (.ok .unit) u := by
  cases h; rfl

theorem awaitStatus_next {u t : State} (h : awaitStatus u = .next t) : t = awaiting u := by
  cases h; rfl

theorem awaitUnlessBroadcast_next {id : Byte} {u t : State} (h : awaitUnlessBroadcast id u = .next t) :
    t = delivered (.ok .unit) u ∨ t = awaiting u := by
  unfold awaitUnlessBroadcast at h
  split at h
  · exact .inl (reportDone_next h)
  · exact .inr (awaitStatus_next h)

theorem moved_of_quiet {op : WireOp} {id command : Byte} {params : List Byte} {s t : State}
    (h : accept op (sendThen id command params reportDone) s = .next t) : Moved s t :=
  have ⟨hs, h⟩ := accept_next h
  moved_of_send hs (fun _ h => .inl (reportDone_next h)) h

theorem moved_of_awaiting {op : WireOp} {id command : Byte} {params : List Byte} {s t : State} (hop : op.awaits = true)
    (h : accept op (sendThen id command params awaitStatus) s = .next t) : Moved s t :=
  have ⟨hs, h⟩ := accept_next h
  moved_of_send hs (fun _ h => .inr ⟨hop, awaitStatus_next h⟩) h

theorem moved_of_unlessBroadcast {op : WireOp} {id command : Byte} {params : List Byte} {s t : State}
    (hop : op.awaits = true)
    (h : accept op (sendThen id command params (awaitUnlessBroadcast id)) s = .next t) : Moved s t :=
  have ⟨hs, h⟩ := accept_next h
  moved_of_send hs (fun _ h => (awaitUnlessBroadcast_next h).imp (fun h => h) (⟨hop, ·⟩)) h

theorem rangeError_hostSide {reg : RegDesc} {raw : Int} {e : HostError} (h : rangeError reg raw = some e) :
    e.hostSide = true := by
  unfold rangeError at h
  split at h
  · split at h
    · cases h; rfl
    · cases h
  · cases h

theorem moved_of_writeReg {op : WireOp} {id command : Byte} {reg : RegDesc} {raw : Int} {s t : State}
    (hop : op.awaits = true)
    (h : accept op (validated reg raw fun data =>
      sendThen id command (writeParams reg.offset data) (awaitUnlessBroadcast id)) s = .next t) : Moved s t := by
  obtain ⟨hs, h⟩ := accept_next h
  unfold validated at h
  split at h
  · next e he => cases h; exact .rejected op e hs (rangeError_hostSide he) (raise_of_idle hs)
  · split at h
    · exact moved_of_send hs (fun _ h => (awaitUnlessBroadcast_next h).imp (fun h => h) (⟨hop, ·⟩)) h
    · cases h

/-- An error that ends the encoding of a sync write's values is a range error. -/
theorem valueBytes_err {r : RegDesc} {v : Int} {e : HostError} (h : valueBytes r v = .error (.err e)) :
    e.hostSide = true := by
  unfold valueBytes at h
  split at h
  · next e' he' => cases h; exact rangeError_hostSide he'
  · split at h <;> cases h

theorem laneBytes_err {rs : List RegDesc} {vs : List Int} {e : HostError} (h : laneBytes rs vs = .error (.err e)) :
    e.hostSide = true := by
  induction rs generalizing vs with
  | nil => simp [laneBytes] at h
  | cons r rs ih =>
    cases vs with
    | nil => simp [laneBytes] at h
    | cons v vs =>
      simp only [laneBytes] at h
      split at h
      · next h' hv => cases h; exact valueBytes_err hv
      · split at h
        · next h' hl => cases h; exact ih hl
        · cases h

theorem laneBlocks_err {run : List RegDesc} {ids : List Byte} {values : List (List Int)} {e : HostError}
    (h : laneBlocks run ids values = .error (.err e)) : e.hostSide = true := by
  induction ids generalizing values with
  | nil => simp [laneBlocks] at h
  | cons i ids ih =>
    cases values with
    | nil => simp [laneBlocks] at h
    | cons v vs =>
      simp only [laneBlocks] at h
      split at h
      · next h' hv => cases h; exact laneBytes_err hv
      · split at h
        · next h' hl => cases h; exact ih hl
        · cases h

theorem moved_of_syncWrite {ids : List Byte} {run : List RegDesc} {values : List (List Int)} {s t : State}
    (h : execSyncWrite ids run values s = .next t) : Moved s t := by
  obtain ⟨hs, h⟩ := accept_next h
  dsimp only at h
  split at h
  · cases h
  · unfold syncEncode at h
    split at h
    · cases h; exact .rejected .syncWrite _ hs rfl (raise_of_idle hs)
    · split at h
      · cases h; exact .rejected .syncWrite _ hs rfl (raise_of_idle hs)
      · split at h
        · next e he => cases h; exact .rejected .syncWrite e hs (laneBlocks_err he) (raise_of_idle hs)
        · cases h
        · exact moved_of_send hs (fun _ h => .inl (reportDone_next h)) h

theorem moved_of_status {pad : Nat} {id len err : Byte} {params : List Byte} {c : Byte} {s t : State}
    (h : execFrameStatus pad id len err params c s = .next t) : Moved s t := by
  unfold execFrameStatus at h
  cases hp : s.arb.phase with
  | idle =>
    rw [receiveSome_of_idle (by simpa using hp)] at h
    cases h
    exact .arrived _ (.inl rfl)
  | await =>
    rcases receiveSome_next (by simpa using hp) h with rfl | h
    · exact .arrived _ (.inl rfl)
    · exact .arrived _ (.inr ⟨hp, h⟩)

/-- Every next state of `exec` is one of the moves. -/
theorem exec_moved {i : Instr} {s t : State} (h : exec i s = .next t) : Moved s t := by
  cases i <;> simp only [exec] at h
  case framePing => exact moved_of_awaiting rfl h
  case frameRead => exact moved_of_awaiting rfl h
  case frameWrite => exact moved_of_unlessBroadcast rfl h
  case frameDeferredWrite => exact moved_of_unlessBroadcast rfl h
  case frameAction => exact moved_of_quiet h
  case frameReset => exact moved_of_unlessBroadcast rfl h
  case frameSyncWrite => exact moved_of_quiet h
  case frameStatus => exact moved_of_status h
  case ping => exact moved_of_awaiting rfl h
  case read => exact moved_of_awaiting rfl h
  case write => exact moved_of_unlessBroadcast rfl h
  case writeDeferred => exact moved_of_unlessBroadcast rfl h
  case action => exact moved_of_quiet h
  case reset => exact moved_of_unlessBroadcast rfl h
  case readReg => exact moved_of_awaiting rfl h
  case writeReg => exact moved_of_writeReg rfl h
  case writeRegDeferred => exact moved_of_writeReg rfl h
  case syncWrite => exact moved_of_syncWrite h
  case sendCommand => exact moved_of_quiet h
  case readStatusPacket =>
    obtain ⟨hs, h⟩ := accept_next h
    exact .readStarted hs (awaitStatus_next h)
  case decStep b =>
    obtain ⟨hs, h⟩ := whenIdle_next h
    cases h
    exact .decoder _ _ hs (decByte_inv b) rfl
  case decReset =>
    obtain ⟨hs, h⟩ := whenIdle_next h
    cases h
    exact .decoder _ _ hs (fun _ => cleared_inv) rfl
  case checkRange reg raw =>
    unfold execCheckRange at h
    split at h <;> exact moved_of_answer h
  case valueToRawBaudRate =>
    unfold execValueToRawBaudRate at h
    split at h
    · exact moved_of_answer h
    · cases h
  case valueToRawLoad =>
    unfold execValueToRawLoad at h
    split at h
    · exact moved_of_answer h
    · cases h
  all_goals first | exact moved_of_answer h | exact moved_of_answerOr h

/-- Every next state of `step`: the block waited, the host's operation moved it, or the wire did. -/
theorem step_next {s t : State} (h : step s = .next t) :
    t = takeTurn s ∨
    (nextAgent s = .host ∧ ∃ rest, Moved { takeTurn s with ports := { (takeTurn s).ports with hc := rest } } t) ∨
    (nextAgent s = .wire ∧ s.arb.phase = .await ∧ ReadStep (takeTurn s) t) := by
  unfold step at h
  split at h
  · next ha =>
    unfold wireMove at h
    split at h
    · next hp => exact .inr (.inr ⟨ha, by simpa using hp, receiveStep_next hp h⟩)
    · cases h; exact .inl rfl
  · next ha =>
    split at h
    · cases h; exact .inl rfl
    · next i s' hf =>
      refine .inr (.inl ⟨ha, ?_⟩)
      unfold fetch at hf
      split at hf <;> cases hf
      exact ⟨_, exec_moved h⟩
    · cases h

end Sys2Proof.Machine
end

