-- ==== Sys2Proof/Laws/SyncWrite.lean ====
section
/-! SUPPORT. The sync-write encoder: its checks and its lanes, in the terms of the claims. -/

namespace Sys2Proof.Machine

theorem syncShape_of_shape {ids : List Byte} {run : List RegDesc} {values : List (List Int)}
    (h : SyncShape ids run values) : syncShape ids run values = none := by
  obtain ⟨hids, hrun, hlen, hlens, hid⟩ := h
  unfold syncShape
  rw [if_neg (by simp [hids, hrun]), if_neg (by push Not; exact ⟨hlen, hlens⟩), if_neg (by push Not; exact hid)]

/-! ## The contiguity check (R201) -/

theorem gapAfter_eq_none {j : Nat} {prev : RegDesc} {rs : List RegDesc} :
    gapAfter j prev rs = none ↔ Contiguous (prev :: rs) := by
  induction rs generalizing j prev with
  | nil => simp [gapAfter, Contiguous]
  | cons r rs ih =>
    simp only [gapAfter]
    constructor
    · intro h k hk
      split at h
      · next hr =>
        cases k with
        | zero => simpa using hr
        | succ k => exact ih.mp h k (by simpa using hk)
      · cases h
    · intro h
      rw [if_pos (by simpa using h 0 (by simp))]
      exact ih.mpr fun k hk => h (k + 1) (by simpa using hk)

theorem runGap_eq_none {run : List RegDesc} : runGap run = none ↔ Contiguous run := by
  cases run with
  | nil => simp [runGap, Contiguous]
  | cons r rs => exact gapAfter_eq_none

theorem gapAfter_eq_some {i j : Nat} {prev : RegDesc} {rs : List RegDesc} (h : gapAfter i prev rs = some j) :
    ∃ k, j = i + k ∧ ∃ hk : k + 1 < (prev :: rs).length,
      (prev :: rs)[k + 1].offset.toNat ≠ (prev :: rs)[k].offset.toNat + (prev :: rs)[k].size.bytes ∧
      Contiguous ((prev :: rs).take (k + 1)) := by
  induction rs generalizing i prev with
  | nil => simp [gapAfter] at h
  | cons r rs ih =>
    simp only [gapAfter] at h
    split at h
    · next hr =>
      obtain ⟨k, hj, hk, hgap, hrest⟩ := ih h
      refine ⟨k + 1, by omega, by simpa using hk, hgap, fun m hm => ?_⟩
      cases m with
      | zero => simpa using hr
      | succ m => simpa using hrest m (by simpa using hm)
    · next hr =>
      cases h
      exact ⟨0, rfl, by simp, hr, fun m hm => by simp at hm⟩

/-- The index the check reports is the first register that does not start where the one before it ends. -/
theorem runGap_eq_some {j : Nat} {run : List RegDesc} (h : runGap run = some j) :
    ∃ k, j = k + 1 ∧ ∃ hk : k + 1 < run.length,
      run[k + 1].offset.toNat ≠ run[k].offset.toNat + run[k].size.bytes ∧ Contiguous (run.take (k + 1)) := by
  cases run with
  | nil => simp [runGap] at h
  | cons r rs =>
    obtain ⟨k, hj, h⟩ := gapAfter_eq_some h
    exact ⟨k, by omega, h⟩

/-! ## The lanes (R202, R204) -/

/-- Every value passes its checks. -/
def GoodFields (fields : List (RegDesc × Int)) : Prop := ∀ f ∈ fields, InBounds f.1 f.2 ∧ Fits f.1 f.2

theorem laneBytes_of_good {run : List RegDesc} {vs : List Int} (h : GoodFields (run.zip vs)) :
    laneBytes run vs = .ok ((run.zip vs).flatMap fun f => wireBytes f.1 f.2) := by
  induction run generalizing vs with
  | nil => cases vs <;> rfl
  | cons r rs ih =>
    cases vs with
    | nil => rfl
    | cons v vs =>
      have hv := h (r, v) (by simp)
      simp only [laneBytes, valueBytes_of_good hv.1 hv.2]
      rw [ih fun f hf => h f (by simp [hf])]
      simp

theorem laneBlocks_of_good {run : List RegDesc} {ids : List Byte} {values : List (List Int)}
    (h : ∀ vs ∈ values, GoodFields (run.zip vs)) :
    laneBlocks run ids values =
      .ok ((ids.zip values).map fun l => (l.1, (run.zip l.2).flatMap fun f => wireBytes f.1 f.2)) := by
  induction ids generalizing values with
  | nil => cases values <;> rfl
  | cons i ids ih =>
    cases values with
    | nil => rfl
    | cons v vs =>
      simp only [laneBlocks, laneBytes_of_good (h v (by simp))]
      rw [ih fun f hf => h f (by simp [hf])]
      simp

/-- The lane ends at its first bad value, with what that value's check says. -/
theorem laneBytes_of_bad {run : List RegDesc} {vs : List Int} {pre post : List (RegDesc × Int)} {f : RegDesc × Int}
    {e : Halt} (hz : run.zip vs = pre ++ f :: post) (hpre : GoodFields pre) (hf : valueBytes f.1 f.2 = .error e) :
    laneBytes run vs = .error e := by
  induction run generalizing vs pre with
  | nil => simp at hz
  | cons r rs ih =>
    cases vs with
    | nil => simp at hz
    | cons v vs =>
      cases pre with
      | nil =>
        obtain ⟨rfl, -⟩ : (r, v) = f ∧ rs.zip vs = post := by simpa using hz
        simp [laneBytes, hf]
      | cons g pre =>
        obtain ⟨rfl, hrest⟩ : (r, v) = g ∧ rs.zip vs = pre ++ f :: post := by simpa using hz
        have hv := hpre (r, v) (by simp)
        simp only [laneBytes, valueBytes_of_good hv.1 hv.2]
        rw [ih hrest fun g hg => hpre g (by simp [hg])]

/-- The encoding ends at the first bad value, device by device. -/
theorem laneBlocks_of_bad {run : List RegDesc} {ids : List Byte} {values : List (List Int)}
    {pre post : List (RegDesc × Int)} {f : RegDesc × Int} {e : Halt} (hlen : values.length = ids.length)
    (hz : values.flatMap (fun vs => run.zip vs) = pre ++ f :: post) (hpre : GoodFields pre)
    (hf : valueBytes f.1 f.2 = .error e) : laneBlocks run ids values = .error e := by
  induction ids generalizing values pre with
  | nil =>
    cases values with
    | nil => simp at hz
    | cons v vs => simp at hlen
  | cons i ids ih =>
    cases values with
    | nil => simp at hlen
    | cons v vs =>
      rw [List.flatMap_cons] at hz
      rcases List.append_eq_append_iff.mp hz with ⟨mid, hmid, hrest⟩ | ⟨mid, hmid, hrest⟩
      · have hgood : GoodFields (run.zip v) := fun g hg => hpre g (by simp [hmid, hg])
        simp only [laneBlocks, laneBytes_of_good hgood]
        rw [ih (by simpa using hlen) hrest fun g hg => hpre g (by simp [hmid, hg])]
      · cases mid with
        | nil =>
          have hgood : GoodFields (run.zip v) := fun g hg => hpre g (by simpa [hmid] using hg)
          simp only [laneBlocks, laneBytes_of_good hgood]
          rw [ih (pre := []) (by simpa using hlen) (by simpa using hrest.symm) fun g hg => by simp at hg]
        | cons g mid =>
          obtain ⟨rfl, -⟩ : f = g ∧ post = mid ++ vs.flatMap (fun vs => run.zip vs) := by simpa using hrest
          simp [laneBlocks, laneBytes_of_bad hmid hpre hf]

/-! ## Sizes (R203) -/

theorem length_lane {run : List RegDesc} {vs : List Int} (h : vs.length = run.length) :
    ((run.zip vs).flatMap fun f => wireBytes f.1 f.2).length = (run.map fun r => r.size.bytes).sum := by
  induction run generalizing vs with
  | nil => simp
  | cons r rs ih =>
    cases vs with
    | nil => simp at h
    | cons v vs =>
      simp only [List.length_cons, Nat.add_right_cancel_iff] at h
      simp [ih h]

theorem length_lanes {run : List RegDesc} {ids : List Byte} {values : List (List Int)}
    (h : values.length = ids.length) (hv : ∀ vs ∈ values, vs.length = run.length) :
    ((ids.zip values).flatMap fun lane => lane.1 :: (run.zip lane.2).flatMap fun f => wireBytes f.1 f.2).length =
      ids.length * ((run.map fun r => r.size.bytes).sum + 1) := by
  induction ids generalizing values with
  | nil => simp
  | cons i ids ih =>
    cases values with
    | nil => simp at h
    | cons v vs =>
      have hrest := ih (values := vs) (by simpa using h) fun x hx => hv x (by simp [hx])
      simp only [List.zip_cons_cons, List.flatMap_cons, List.length_append, hrest, List.length_cons,
        length_lane (hv v (by simp))]
      ring

theorem length_syncWriteParams {ids : List Byte} {run : List RegDesc} {values : List (List Int)}
    (h : SyncShape ids run values) : (syncWriteParams ids run values).length = syncSize ids run := by
  simp only [syncWriteParams, List.length_append, length_lanes h.2.2.1 h.2.2.2.1, syncSize]
  rfl

/-- The encoder's parameters are those of the claims. -/
theorem syncParams_eq (ids : List Byte) (run : List RegDesc) (values : List (List Int)) :
    syncParams (runStart run) (BitVec.ofNat 8 (runBytes run))
        ((ids.zip values).map fun l => (l.1, (run.zip l.2).flatMap fun f => wireBytes f.1 f.2)) =
      syncWriteParams ids run values := by
  simp only [syncParams, syncWriteParams, runBytes, List.flatMap_map]
  cases run <;> simp [runStart]

end Sys2Proof.Machine
end

