-- ==== Sys2Proof/Tests/Slice0.lean ====
section
/-! SUPPORT. Tests: ill-formed terms that the check refuses, words written out from the spec's encodings, one step of
each instruction with the result 95_test_vectors.md gives, and for each statement with hypotheses a state that meets
them. -/

namespace Sys2Proof.Tests

set_option Elab.async false

open Sys2Proof.Machine

/-! ## Helpers -/

def bytes (l : List Nat) : List Byte := l.map (BitVec.ofNat 8)

def onWire (l : List Nat) : List RxEvent := (bytes l).map .byte

/-- The bytes decode to the instruction and nothing is left. -/
def decodes (l : List Nat) (i : Instr) : Bool := decide (decode (bytes l) = .ok (i, []))

/-- The instruction is the table word's and is the next to run after reset. -/
def selects (nbits w : Nat) (i : Instr) : Bool := decide (decodeTableWord nbits w = some i)

/-- A step that delivers one result and changes nothing else on the wire. -/
def gives (i : Instr) (r : Result) : Bool :=
  match exec i State.reset with
  | .next t => decide (t.ports.hr = [r] ∧ t.ports.tx = [] ∧ t.ports.rx = [] ∧ t.arb.phase = .idle)
  | _       => false

def givesOk (i : Instr) (p : Payload) : Bool := gives i (.ok p)

/-- A step that emits one burst, after which a status frame is awaited or the operation has succeeded. -/
def emits (i : Instr) (burst : List Nat) (awaits : Bool) : Bool :=
  match exec i State.reset with
  | .next t => decide (t.ports.tx = [bytes burst] ∧ t.tx.buf = bytes burst ∧
      (if awaits then t.arb.phase = .await ∧ t.ports.hr = [] else t.arb.phase = .idle ∧ t.ports.hr = [.ok .unit]))
  | _       => false

def refuses (i : Instr) (r : Refusal) : Bool :=
  match exec i State.reset with
  | .refused r' => decide (r' = r)
  | _           => false

/-- The block with operations offered on the host port. -/
def offered (l : List Nat) : State := { State.reset with ports := { State.reset.ports with hc := bytes l } }

/-- The block while it awaits a status frame. -/
def waiting (op : WireOp) (d : DecRegs) (rx : List RxEvent) : State :=
  { State.reset with
    dec   := d
    arb   := { phase := .await, op := op }
    ports := { State.reset.ports with rx := rx } }

/-- The decoder registers in a state of the framer. -/
def decIn (st : DecState) : DecRegs := { DecRegs.cleared with state := st }

/-- The decoder registers before the checksum byte of a frame from device 1. -/
def atChecksum (err : Nat) (params : List Nat) : DecRegs :=
  { state := .cmdRcvd, id := 1#8, length := BitVec.ofNat 8 (params.length + 2), cmd := BitVec.ofNat 8 err
    params := bytes params, sum := BitVec.ofNat 8 (1 + (params.length + 2) + err + params.sum) }

def nd (n : Nat) : List DecStatus := List.replicate n .notDone

/-- The statuses of a stream after `dec_reset`, and the registers at its end. -/
def streams (l : List Nat) (statuses : List DecStatus) (d : DecRegs) : Bool :=
  decide (decBytes (bytes l) DecRegs.cleared = (statuses, d))

/-- A step that ends the read with a result. -/
def ends (s : State) (r : Result) : Bool :=
  match step s with
  | .next t => decide (t.ports.hr = [r] ∧ t.arb.phase = .idle ∧ t.ports.pulls = 1)
  | _       => false

def stops (s : State) (r : Refusal) : Bool :=
  match step s with
  | .refused r' => decide (r' = r)
  | _           => false

def isNext : Out → Bool
  | .next _    => true
  | .fault _   => false
  | .refused _ => false

theorem exists_next {o : Out} (h : isNext o = true) : ∃ t, o = .next t := by
  cases o <;> first | exact ⟨_, rfl⟩ | cases h

/-- The descriptors of 95_test_vectors.md: `model`, `version`, `goal`, `speed`; and one of size 1 without bounds. -/
def model : RegDesc := { name := [], offset := 0x00#8, size := .two, access := .ro, min := none, max := none, type := .temperature }
def version : RegDesc := { model with offset := 0x02#8, size := .one }
def goal : RegDesc := { name := [], offset := 0x1E#8, size := .two, access := .rw, min := some 0, max := some 1023, type := .angle }
def speed : RegDesc := { goal with offset := 0x20#8, type := .angularVelocity }
def led : RegDesc := { name := [], offset := 0x19#8, size := .one, access := .rw, min := none, max := none, type := .onOff }

def noError : ErrBits := errBitsOf 0x00#8

/-! ## The error names (R17) -/

def letters (t : Text) : List Char := t.map fun b => Char.ofNat b.toNat

/-- The names of R17 in the order of the table, as it spells them. -/
theorem test_error_names_spelled : (errTable.map fun row => letters row.1.text) =
    ["INPUT_VOLTAGE".toList, "ANGLE_LIMIT".toList, "OVERHEATING".toList, "RANGE".toList, "CHECKSUM".toList,
     "OVERLOAD".toList, "INSTRUCTION".toList, "RESERVED".toList, "NONE".toList, "NOT_DONE".toList, "TIMEOUT".toList,
     "TOO_MUCH_DATA".toList] := by decide +kernel

/-! ## Well-formedness: an ill-formed term for each check -/

theorem test_wf_frame_id : Instr.wf (.framePing 0xFF#8) = false ∧ Instr.wf (.framePing 0xFE#8) = true := by decide
theorem test_wf_frame_data :
    Instr.wf (.frameWrite 1#8 0#8 (List.replicate 253 0#8)) = false ∧
    Instr.wf (.frameWrite 1#8 0#8 (List.replicate 252 0#8)) = true := by decide +kernel
theorem test_wf_sync_blocks_length : Instr.wf (.frameSyncWrite 0#8 2#8 [(1#8, [0#8])]) = false := by decide
theorem test_wf_sync_blocks_size :
    Instr.wf (.frameSyncWrite 0#8 2#8 (List.replicate 84 (1#8, [0#8, 0#8]))) = false ∧
    Instr.wf (.frameSyncWrite 0#8 2#8 (List.replicate 83 (1#8, [0#8, 0#8]))) = true := by decide +kernel
theorem test_wf_status_length : Instr.wf (.frameStatus 0 1#8 3#8 0#8 [] 0#8) = false := by decide
theorem test_wf_status_command : Instr.wf (.frameStatus 0 1#8 2#8 1#8 [] 0#8) = false ∧
    Instr.wf (.frameStatus 1 1#8 2#8 1#8 [] 0#8) = true := by decide
theorem test_wf_count : Instr.wf (.cks (List.replicate 65536 0#8)) = false := by
  have h : ∀ n : Nat, 65536 ≤ n → Instr.wf (.cks (List.replicate n 0#8)) = false := fun n hn =>
    decide_eq_false (by rw [List.length_replicate]; omega)
  exact h _ (Nat.le_refl _)
theorem test_wf_nat : Instr.wf (.rawToValueRDT (2 ^ 64)) = false := by decide
theorem test_wf_int : Instr.wf (.checkRange model (2 ^ 63)) = false ∧
    Instr.wf (.checkRange model (-(2 ^ 63) - 1)) = false ∧ Instr.wf (.checkRange model (-(2 ^ 63))) = true := by decide
theorem test_wf_rat : Instr.wf (.valueToRawRDT (2 ^ 63)) = false ∧ Instr.wf (.valueToRawRDT (1 / (2 ^ 64 + 1))) = false := by
  decide +kernel
theorem test_wf_bound : Instr.wf (.readReg 1#8 { model with min := some (2 ^ 63) }) = false ∧
    Instr.wf (.readReg 1#8 { model with max := some (2 ^ 63) }) = false := by decide
theorem test_wf_name : Instr.wf (.readReg 1#8 { model with name := List.replicate 65536 0#8 }) = false := by
  have h : ∀ n : Nat, 65536 ≤ n → Instr.wf (.readReg 1#8 { model with name := List.replicate n 0#8 }) = false := by
    intro n hn
    have hf : fitsCount (List.replicate n (0#8 : Byte)) = false :=
      decide_eq_false (by rw [List.length_replicate]; omega)
    simp only [Instr.wf, RegDesc.fits, hf, Bool.false_and]
  exact h _ (Nat.le_refl _)
theorem test_wf_sync_values : Instr.wf (.syncWrite [1#8] [model] [[2 ^ 63]]) = false := by decide
theorem test_wf_load : Instr.wf (.valueToRawLoad { sign := true, magnitude := 2 ^ 64 }) = false := by decide

/-! ## Decoding: words written out from R60, R66, R67, R70, R77, R78 -/

theorem test_decode_wire_commands :
    decodes [0xFF, 0xFF, 0x0F, 0x02, 0x01] (.framePing 15#8) = true ∧
    decodes [0xFF, 0xFF, 0x01, 0x04, 0x02, 0x00, 0x03] (.frameRead 1#8 0#8 3#8) = true ∧
    decodes [0xFF, 0xFF, 0x01, 0x04, 0x03, 0x19, 0x01] (.frameWrite 1#8 0x19#8 [1#8]) = true ∧
    decodes [0xFF, 0xFF, 0x02, 0x05, 0x04, 0x1E, 0x00, 0x02] (.frameDeferredWrite 2#8 0x1E#8 [0#8, 2#8]) = true ∧
    decodes [0xFF, 0xFF, 0xFE, 0x02, 0x05] (.frameAction 0xFE#8) = true ∧
    decodes [0xFF, 0xFF, 0x01, 0x02, 0x06] (.frameReset 1#8) = true ∧
    decodes [0xFF, 0xFF, 0xFE, 0x0A, 0x83, 0x1E, 0x02, 0x01, 0x05, 0x00, 0x02, 0x06, 0x00]
      (.frameSyncWrite 0x1E#8 2#8 [(1#8, [5#8, 0#8]), (2#8, [6#8, 0#8])]) = true := by decide +kernel

theorem test_decode_status :
    decodes [0xFF, 0xFF, 0x01, 0x05, 0x00, 0x0C, 0x00, 0x16, 0xD7]
      (.frameStatus 0 1#8 5#8 0#8 [0x0C#8, 0#8, 0x16#8] 0xD7#8) = true ∧
    decodes [0xFF, 0xFF, 0xFF, 0x01, 0x02, 0x01, 0xFB] (.frameStatus 1 1#8 2#8 1#8 [] 0xFB#8) = true := by decide +kernel

theorem test_decode_device_operations :
    decodes [0x01, 0x0F] (.ping 15#8) = true ∧ decodes [0x02, 1, 0, 3] (.read 1#8 0#8 3#8) = true ∧
    decodes [0x03, 1, 0x19, 1, 0, 7] (.write 1#8 0x19#8 [7#8]) = true ∧
    decodes [0x04, 1, 0x1E, 2, 0, 0, 2] (.writeDeferred 1#8 0x1E#8 [0#8, 2#8]) = true ∧
    decodes [0x05, 0xFE] (.action 0xFE#8) = true ∧ decodes [0x06, 1] (.reset 1#8) = true ∧
    decodes [0x12, 1, 0, 0, 0x02, 0, 0, 0, 0, 4] (.readReg 1#8 version) = true ∧
    decodes [0x13, 1, 0, 0, 0x19, 0, 1, 0, 0, 7, 1, 0, 0, 0, 0, 0, 0, 0] (.writeReg 1#8 led 1) = true ∧
    decodes ([0x14, 1, 0, 0, 0x1E, 1, 1, 1, 0, 0, 0, 0, 0, 0, 0, 0, 1, 0xFF, 3, 0, 0, 0, 0, 0, 0, 2] ++
      [0, 2, 0, 0, 0, 0, 0, 0]) (.writeRegDeferred 1#8 goal 512) = true := by decide +kernel

theorem test_decode_transport_and_decoder :
    decodes [0x20, 1, 0x77, 1, 0, 0xAA] (.sendCommand 1#8 0x77#8 [0xAA#8]) = true ∧
    decodes [0x21] .readStatusPacket = true ∧ decodes [0x22, 0xFF] (.decStep 0xFF#8) = true ∧
    decodes [0x23, 2, 0, 0x80, 0x80] (.cks [0x80#8, 0x80#8]) = true ∧ decodes [0x24] .decReset = true := by
  decide +kernel

theorem test_decode_sync_write :
    decodes ([0x83, 2, 0, 1, 2, 1, 0] ++ [0, 0, 0x19, 0, 1, 0, 0, 7] ++ [2, 0] ++
      [1, 0, 1, 0, 0, 0, 0, 0, 0, 0] ++ [1, 0, 0xFF, 0xFF, 0xFF, 0xFF, 0xFF, 0xFF, 0xFF, 0xFF])
      (.syncWrite [1#8, 2#8] [led] [[1], [-1]]) = true := by decide +kernel

theorem test_decode_check_range :
    decodes [0x3F, 0, 0, 0x19, 0, 1, 0, 0, 7, 5, 0, 0, 0, 0, 0, 0, 0] (.checkRange led 5) = true := by decide +kernel

theorem test_decode_raw_to_value :
    decodes [0x40, 5, 1, 0, 0, 0, 0, 0, 0] (.rawToValueBaudRate 261) = true ∧
    decodes [0x41, 5, 1, 0, 0, 0, 0, 0, 0] (.rawToValueRDT 261) = true ∧
    decodes [0x42, 5, 1, 0, 0, 0, 0, 0, 0] (.rawToValueAngle 261) = true ∧
    decodes [0x43, 5, 1, 0, 0, 0, 0, 0, 0] (.rawToValueVoltage 261) = true ∧
    decodes [0x44, 5, 1, 0, 0, 0, 0, 0, 0] (.rawToValueTemperature 261) = true ∧
    decodes [0x45, 5, 1, 0, 0, 0, 0, 0, 0] (.rawToValueAngularVelocity 261) = true ∧
    decodes [0x46, 5, 1, 0, 0, 0, 0, 0, 0] (.rawToValueLoad 261) = true ∧
    decodes [0x47, 5, 1, 0, 0, 0, 0, 0, 0] (.rawToValueOnOff 261) = true ∧
    decodes [0x48, 5, 1, 0, 0, 0, 0, 0, 0] (.rawToValueStatusReturnLevel 261) = true ∧
    decodes [0x49, 5, 1, 0, 0, 0, 0, 0, 0] (.rawToValueAlarm 261) = true := by decide +kernel

theorem test_decode_value_to_raw :
    decodes [0x50, 3, 0, 0, 0, 0, 0, 0, 0, 1, 0, 0, 0, 0, 0, 0, 0] (.valueToRawBaudRate (3 / 2)) = true ∧
    decodes [0x51, 3, 0, 0, 0, 0, 0, 0, 0, 1, 0, 0, 0, 0, 0, 0, 0] (.valueToRawRDT (3 / 2)) = true ∧
    decodes [0x52, 3, 0, 0, 0, 0, 0, 0, 0, 1, 0, 0, 0, 0, 0, 0, 0] (.valueToRawAngle (3 / 2)) = true ∧
    decodes [0x53, 3, 0, 0, 0, 0, 0, 0, 0, 1, 0, 0, 0, 0, 0, 0, 0] (.valueToRawVoltage (3 / 2)) = true ∧
    decodes [0x54, 3, 0, 0, 0, 0, 0, 0, 0, 1, 0, 0, 0, 0, 0, 0, 0] (.valueToRawTemperature (3 / 2)) = true ∧
    decodes [0x55, 3, 0, 0, 0, 0, 0, 0, 0, 1, 0, 0, 0, 0, 0, 0, 0] (.valueToRawAngularVelocity (3 / 2)) = true ∧
    decodes [0x56, 1, 0x20, 0, 0, 0, 0, 0, 0, 0] (.valueToRawLoad { sign := true, magnitude := 32 }) = true ∧
    decodes [0x57, 1] (.valueToRawOnOff .on) = true ∧
    decodes [0x58, 2] (.valueToRawStatusReturnLevel .all) = true ∧
    decodes [0x59, 0x24] (.valueToRawAlarm { noError with overheating := true, overload := true }) = true := by decide +kernel

theorem test_decode_raw_to_str :
    decodes [0x60, 1, 0, 0, 0, 0, 0, 0, 0] (.rawToStrBaudRate 1) = true ∧
    decodes [0x61, 1, 0, 0, 0, 0, 0, 0, 0] (.rawToStrRDT 1) = true ∧
    decodes [0x62, 1, 0, 0, 0, 0, 0, 0, 0] (.rawToStrAngle 1) = true ∧
    decodes [0x63, 1, 0, 0, 0, 0, 0, 0, 0] (.rawToStrVoltage 1) = true ∧
    decodes [0x64, 1, 0, 0, 0, 0, 0, 0, 0] (.rawToStrTemperature 1) = true ∧
    decodes [0x65, 1, 0, 0, 0, 0, 0, 0, 0] (.rawToStrAngularVelocity 1) = true ∧
    decodes [0x66, 1, 0, 0, 0, 0, 0, 0, 0] (.rawToStrLoad 1) = true ∧
    decodes [0x67, 1, 0, 0, 0, 0, 0, 0, 0] (.rawToStrOnOff 1) = true ∧
    decodes [0x68, 1, 0, 0, 0, 0, 0, 0, 0] (.rawToStrStatusReturnLevel 1) = true ∧
    decodes [0x69, 1, 0, 0, 0, 0, 0, 0, 0] (.rawToStrAlarm 1) = true := by decide +kernel

theorem test_decode_str_to_raw :
    decodes [0x70, 2, 0, 0x6F, 0x6E] (.strToRawBaudRate [0x6F#8, 0x6E#8]) = true ∧
    decodes [0x71, 2, 0, 0x6F, 0x6E] (.strToRawRDT [0x6F#8, 0x6E#8]) = true ∧
    decodes [0x72, 2, 0, 0x6F, 0x6E] (.strToRawAngle [0x6F#8, 0x6E#8]) = true ∧
    decodes [0x73, 2, 0, 0x6F, 0x6E] (.strToRawVoltage [0x6F#8, 0x6E#8]) = true ∧
    decodes [0x74, 2, 0, 0x6F, 0x6E] (.strToRawTemperature [0x6F#8, 0x6E#8]) = true ∧
    decodes [0x75, 2, 0, 0x6F, 0x6E] (.strToRawAngularVelocity [0x6F#8, 0x6E#8]) = true ∧
    decodes [0x76, 2, 0, 0x6F, 0x6E] (.strToRawLoad [0x6F#8, 0x6E#8]) = true ∧
    decodes [0x77, 2, 0, 0x6F, 0x6E] (.strToRawOnOff [0x6F#8, 0x6E#8]) = true ∧
    decodes [0x78, 2, 0, 0x6F, 0x6E] (.strToRawStatusReturnLevel [0x6F#8, 0x6E#8]) = true ∧
    decodes [0x79, 2, 0, 0x6F, 0x6E] (.strToRawAlarm [0x6F#8, 0x6E#8]) = true := by decide +kernel

/-- Rows of spec/opcode_table.json as the table numbers their bits, all operands zero. -/
theorem test_table_words :
    selects 40 0xFFFF0F0201 (.framePing 15#8) = true ∧ selects 40 0xFFFF010402 (.frameRead 1#8 0#8 0#8) = true ∧
    selects 40 0xFFFF000003 (.frameWrite 0#8 0#8 []) = true ∧ selects 40 0xFFFFFE0083 (.frameSyncWrite 0#8 0#8 []) = true ∧
    selects 40 0xFFFF000000 (.frameStatus 0 0#8 0#8 0#8 [] 0#8) = true ∧ selects 8 0x21 .readStatusPacket = true ∧
    selects 8 0x79 (.strToRawAlarm []) = true := by decide +kernel

/-- Bytes that encode no operation: an unlisted selector (R77), a truncated one, codes that stand for nothing. -/
theorem test_decode_refuses :
    decode (bytes [0x07, 0]) = .error .unknownOperation ∧ decode (bytes [0xFF, 0x01]) = .error .unknownOperation ∧
    decode (bytes [0x02, 1, 0]) = .error .truncated ∧ decode (bytes [0xFF, 0xFF, 0x0F]) = .error .truncated ∧
    decode (bytes [0x57, 2]) = .error .badOperand ∧
    decode (bytes [0x12, 1, 0, 0, 2, 2, 0, 0, 0, 4]) = .error .badRegister ∧
    decode (bytes [0x12, 1, 0, 0, 2, 0, 0, 0, 0, 10]) = .error .badRegister ∧
    decode (bytes [0xFF, 0xFF, 0xFE, 0x07, 0x83, 0, 1, 1, 1, 1]) = .error .badSyncLayout := by decide +kernel

/-! ## One step of each instruction (95_test_vectors.md sections 2 to 7; 43_device_ops.md R153) -/

theorem test_frames_emit :
    emits (.framePing 15#8) [0xFF, 0xFF, 0x0F, 0x02, 0x01, 0xED] true = true ∧
    emits (.frameRead 1#8 0#8 3#8) [0xFF, 0xFF, 0x01, 0x04, 0x02, 0x00, 0x03, 0xF5] true = true ∧
    emits (.frameWrite 0xFE#8 0x19#8 [1#8]) [0xFF, 0xFF, 0xFE, 0x04, 0x03, 0x19, 0x01, 0xE0] false = true ∧
    emits (.frameDeferredWrite 2#8 0x1E#8 [0#8, 2#8]) [0xFF, 0xFF, 0x02, 0x05, 0x04, 0x1E, 0x00, 0x02, 0xD4] true = true ∧
    emits (.frameAction 0xFE#8) [0xFF, 0xFF, 0xFE, 0x02, 0x05, 0xFA] false = true ∧
    emits (.frameReset 0xFE#8) [0xFF, 0xFF, 0xFE, 0x02, 0x06, 0xF9] false = true ∧
    emits (.frameSyncWrite 0x1E#8 2#8 [(1#8, [5#8, 0#8]), (1#8, [6#8, 0#8])])
      [0xFF, 0xFF, 0xFE, 0x0A, 0x83, 0x1E, 0x02, 0x01, 0x05, 0x00, 0x01, 0x06, 0x00, 0x47] false = true := by
  decide +kernel

theorem test_operations_emit :
    emits (.ping 0xFE#8) [0xFF, 0xFF, 0xFE, 0x02, 0x01, 0xFE] true = true ∧
    emits (.read 0xFE#8 0#8 1#8) [0xFF, 0xFF, 0xFE, 0x04, 0x02, 0x00, 0x01, 0xFA] true = true ∧
    emits (.write 1#8 0x1E#8 []) [0xFF, 0xFF, 0x01, 0x03, 0x03, 0x1E, 0xDA] true = true ∧
    emits (.writeDeferred 1#8 0x1E#8 [0#8, 2#8]) [0xFF, 0xFF, 0x01, 0x05, 0x04, 0x1E, 0x00, 0x02, 0xD5] true = true ∧
    emits (.action 1#8) [0xFF, 0xFF, 0x01, 0x02, 0x05, 0xF7] false = true ∧
    emits (.reset 1#8) [0xFF, 0xFF, 0x01, 0x02, 0x06, 0xF6] true = true ∧
    emits (.readReg 1#8 version) [0xFF, 0xFF, 0x01, 0x04, 0x02, 0x02, 0x01, 0xF5] true = true ∧
    emits (.writeReg 1#8 goal 512) [0xFF, 0xFF, 0x01, 0x05, 0x03, 0x1E, 0x00, 0x02, 0xD6] true = true ∧
    emits (.writeRegDeferred 2#8 goal 205) [0xFF, 0xFF, 0x02, 0x05, 0x04, 0x1E, 0xCD, 0x00, 0x09] true = true ∧
    emits (.sendCommand 1#8 0x77#8 [0xAA#8]) [0xFF, 0xFF, 0x01, 0x03, 0x77, 0xAA, 0xDA] false = true := by
  decide +kernel

theorem test_operations_refuse :
    refuses (.sendCommand 0xFF#8 1#8 []) .invalidId = true ∧ refuses (.reset 0xFF#8) .invalidId = true ∧
    gives (.sendCommand 1#8 3#8 (List.replicate 254 0#8)) (.err .tooMuchData) = true ∧
    refuses (.writeReg 1#8 led 256) .rawDoesNotFit = true := by decide +kernel

theorem test_sync_write_emits :
    emits (.syncWrite [1#8, 2#8] [goal, speed] [[512, 100], [256, 200]])
      ([0xFF, 0xFF, 0xFE, 0x0E, 0x83, 0x1E, 0x04, 0x01, 0x00, 0x02, 0x64, 0x00, 0x02, 0x00, 0x01, 0xC8, 0x00, 0x1C])
      false = true := by decide +kernel

theorem test_sync_write_rejects :
    refuses (.syncWrite [] [goal] []) .emptySyncWrite = true ∧
    refuses (.syncWrite [1#8, 2#8] [goal] [[5]]) .shapeMismatch = true ∧
    refuses (.syncWrite [1#8, 0xFE#8] [goal] [[5], [6]]) .invalidId = true ∧
    gives (.syncWrite [1#8] [goal, { speed with offset := 0x22#8 }] [[512, 5000]]) (.err (.nonContiguousRun 1)) = true ∧
    gives (.syncWrite (List.replicate 84 1#8) [goal] (List.replicate 84 [5])) (.err .tooMuchData) = true := by
  decide +kernel

/-- What each operation delivers when its read ends (R153; 95 section 5). -/
theorem test_reads_end :
    ends (waiting .ping DecRegs.cleared [.noByte]) (.ok (.bool false)) = true ∧
    ends (waiting .ping (atChecksum 0 []) (onWire [0xFC])) (.ok (.bool true)) = true ∧
    ends (waiting .read (atChecksum 0 [0x0C, 0x00, 0x16]) (onWire [0xD7])) (.ok (.bytes (bytes [0x0C, 0x00, 0x16]))) = true ∧
    ends (waiting (.readReg .two) (atChecksum 0 [0x0C, 0x00]) (onWire [0xEE])) (.ok (.rawInt 12)) = true ∧
    ends (waiting .write (atChecksum 8 []) (onWire [0xF4])) (.err (.deviceFault 8#8)) = true ∧
    ends (waiting .reset DecRegs.cleared [.noByte]) (.err .timeout) = true ∧
    stops (waiting (.readReg .two) (atChecksum 0 [0x0C]) (onWire [0xEF])) .responseLengthMismatch = true := by
  decide +kernel

theorem test_status_packet_ends :
    ends (waiting .readStatusPacket (atChecksum 0 []) (onWire [0xFD])) (.err .checksumMismatch) = true ∧
    ends (waiting .readStatusPacket (atChecksum 0x24 []) (onWire [0xD9])) (.err .checksumMismatch) = true ∧
    ends (waiting .readStatusPacket (atChecksum 0x80 []) (onWire [0x7C])) (.err (.deviceFault 0x80#8)) = true ∧
    ends (waiting .readStatusPacket (atChecksum 0 []) (onWire [0xFC]))
      (.ok (.frame { id := 1#8, length := 2#8, cmd := 0#8, params := [] })) = true := by decide +kernel

/-- The decoder rows of 95 section 3: statuses and end state. -/
theorem test_decoder_streams :
    streams [0xFF, 0xFF, 0x0F, 0x02, 0x00, 0xEE] (nd 5 ++ [.none])
      { state := .idle, id := 0x0F#8, length := 2#8, cmd := 0#8, params := [], sum := 0x11#8 } = true ∧
    streams [0xFF, 0xFF, 0x01, 0x05, 0x00, 0x0C, 0xFF, 0xFF, 0x01, 0x02, 0x00, 0xFC] (nd 8 ++ [.checksum] ++ nd 3)
      { state := .idle, id := 0#8, length := 0#8, cmd := 0#8, params := [], sum := 0x10#8 } = true ∧
    streams [0xFF, 0xFF, 0x01, 0x00, 0x00, 0xFE] (nd 5 ++ [.none])
      { state := .idle, id := 1#8, length := 0#8, cmd := 0#8, params := [], sum := 1#8 } = true ∧
    streams [0xFF, 0x00, 0xFF, 0xFF, 0x02, 0x02, 0x00, 0xFB] (nd 7 ++ [.none])
      { state := .idle, id := 2#8, length := 2#8, cmd := 0#8, params := [], sum := 4#8 } = true := by decide +kernel

theorem test_dec_step : givesOk (.decStep 0x37#8) (.status .notDone) = true := by decide +kernel

theorem test_cks :
    givesOk (.cks []) (.byte 0xFF#8) = true ∧ givesOk (.cks (bytes [0xFE, 0x02, 0x05])) (.byte 0xFA#8) = true ∧
    givesOk (.cks (bytes [0x80, 0x80])) (.byte 0xFF#8) = true ∧
    givesOk (.cks (bytes [0x01, 0x02, 0xFC])) (.byte 0x00#8) = true := by decide +kernel

theorem test_raw_to_value_numeric :
    givesOk (.rawToValueBaudRate 207) (.number (125000 / 13)) = true ∧ givesOk (.rawToValueRDT 250) (.number 500) = true ∧
    givesOk (.rawToValueAngle 512) (.number (51200 / 341)) = true ∧
    givesOk (.rawToValueVoltage 95) (.number (19 / 2)) = true ∧ givesOk (.rawToValueTemperature 85) (.number 85) = true ∧
    givesOk (.rawToValueAngularVelocity 512) (.number (19456 / 341)) = true := by decide +kernel

theorem test_raw_to_value_tables :
    givesOk (.rawToValueLoad 0xFC20) (.load { sign := true, magnitude := 32 }) = true ∧
    givesOk (.rawToValueOnOff 1) (.onOff .on) = true ∧ refuses (.rawToValueOnOff 2) .unmappedRaw = true ∧
    givesOk (.rawToValueStatusReturnLevel 2) (.returnLevel .all) = true ∧
    givesOk (.rawToValueAlarm 0x24) (.alarm { noError with overheating := true, overload := true }) = true ∧
    refuses (.rawToValueAlarm 0x100) .unmappedRaw = true := by decide +kernel

theorem test_value_to_raw_numeric :
    givesOk (.valueToRawBaudRate 9600) (.rawInt 207) = true ∧ givesOk (.valueToRawBaudRate 5000000) (.rawInt (-1)) = true ∧
    refuses (.valueToRawBaudRate 0) .valueOutOfDomain = true ∧ givesOk (.valueToRawRDT 501) (.rawInt 251) = true ∧
    givesOk (.valueToRawAngle 150) (.rawInt 512) = true ∧ givesOk (.valueToRawAngle (-1)) (.rawInt (-3)) = true ∧
    givesOk (.valueToRawVoltage (955 / 100)) (.rawInt 96) = true ∧
    givesOk (.valueToRawTemperature (141 / 2)) (.rawInt 71) = true ∧
    givesOk (.valueToRawAngularVelocity (1 / 2)) (.rawInt 4) = true := by decide +kernel

theorem test_value_to_raw_tables :
    givesOk (.valueToRawLoad { sign := true, magnitude := 1023 }) (.rawInt 0x7FF) = true ∧
    refuses (.valueToRawLoad { sign := false, magnitude := 1024 }) .valueOutOfDomain = true ∧
    givesOk (.valueToRawOnOff .on) (.rawInt 1) = true ∧ givesOk (.valueToRawStatusReturnLevel .read) (.rawInt 1) = true ∧
    givesOk (.valueToRawAlarm { noError with overheating := true, overload := true }) (.rawInt 0x24) = true ∧
    givesOk (.valueToRawAlarm { noError with reserved := true }) (.rawInt 0x80) = true := by decide +kernel

theorem test_lookup_strings :
    givesOk (.rawToStrOnOff 0) (.text (bytes [0x6F, 0x66, 0x66])) = true ∧ refuses (.rawToStrOnOff 2) .unmappedRaw = true ∧
    givesOk (.rawToStrStatusReturnLevel 2) (.text (bytes [0x61, 0x6C, 0x6C])) = true ∧
    givesOk (.strToRawOnOff (bytes [0x6F, 0x6E])) (.rawInt 1) = true ∧
    gives (.strToRawOnOff (bytes [0x4F, 0x6E])) (.err (.malformedLiteral (bytes [0x4F, 0x6E]))) = true ∧
    givesOk (.strToRawStatusReturnLevel (bytes [0x72, 0x65, 0x61, 0x64])) (.rawInt 1) = true := by decide +kernel

/-- The display of a numeric raw value is the open display function at the value the formula gives. -/
theorem test_raw_to_str_numeric :
    exec (.rawToStrRDT 250) State.reset = .next (delivered (.ok (.text (Config.fmt .rdt 500))) State.reset) ∧
    exec (.rawToStrAngle 1023) State.reset = .next (delivered (.ok (.text (Config.fmt .angle 300))) State.reset) := by
  have hr : rdtOf 250 = 500 := by decide +kernel
  have ha : angleOf 1023 = 300 := by decide +kernel
  constructor
  · simp [exec, execRawToStrRDT, answer, deliver, delivered, hr]
  · simp [exec, execRawToStrAngle, answer, deliver, delivered, ha]

theorem test_check_range :
    givesOk (.checkRange goal 0) .unit = true ∧ givesOk (.checkRange goal 1023) .unit = true ∧
    (rangeError goal (-1)).isSome = true ∧ (rangeError goal 1024).isSome = true ∧
    givesOk (.checkRange { goal with min := none } 5000) .unit = true ∧
    (rangeError { goal with min := some 10, max := some 5 } 7).isSome = true := by decide +kernel

theorem test_byte_form :
    bytesOf 205 .two = some (bytes [0xCD, 0x00]) ∧ bytesOf 65536 .two = none ∧ bytesOf (-1) .one = none ∧
    rawOf .two (bytes [0xFF, 0x03]) = some 1023 := by decide +kernel

/-- The two lookups of R22. -/
theorem test_lookups :
    regByOffset { name := [], model := 12, regs := [model, version, goal] } 0x1E#8 = some goal ∧
    regByName { name := [], model := 12, regs := [model, { version with name := bytes [0x76] }] } (bytes [0x76]) =
      some { version with name := bytes [0x76] } ∧
    disjointRegs [model, version, goal, speed] = true ∧ disjointRegs [model, { version with offset := 1#8 }] = false := by
  decide +kernel

/-! ## Each statement's hypotheses are met -/

/-- A transaction in progress: PING to device 15 was sent, and nothing answers. -/
def pinging : State :=
  { awaiting (sent .ping 0x0F#8 0x01#8 [] State.reset) with
    ports := { (sent .ping 0x0F#8 0x01#8 [] State.reset).ports with rx := [.noByte] } }

theorem pinging_inv : pinging.Inv where
  dec := rfl
  tx :=
    ⟨fun burst h => ⟨0x0F#8, 0x01#8, [], by decide, by decide, List.mem_singleton.mp h⟩,
     .inr ⟨rfl, 0x0F#8, 0x01#8, [], by decide, by decide, rfl, by decide⟩⟩
  arb := fun _ => rfl

theorem witness_StepKeepsInv : ∃ s t : State, s.Inv ∧ step s = .next t :=
  ⟨pinging, (exists_next (by decide +kernel)).imp fun _ h => ⟨pinging_inv, h⟩⟩

theorem witness_StepNeverWritesConfig : ∃ s t : State, step s = .next t :=
  ⟨pinging, exists_next (by decide +kernel)⟩

theorem witness_StepIsHalfDuplex :
    (∃ s t : State, step s = .next t ∧ s.arb.phase = .await) ∧
    (∃ s t : State, step s = .next t ∧ s.arb.phase = .idle) :=
  ⟨⟨pinging, (exists_next (by decide +kernel)).imp fun _ h => ⟨h, rfl⟩⟩,
   ⟨offered [0x05, 0xFE], (exists_next (by decide +kernel)).imp fun _ h => ⟨h, rfl⟩⟩⟩

theorem witness_EveryBurstSumsToFF :
    ∃ (s t : State) (burst : List Byte), step s = .next t ∧ t.ports.tx = s.ports.tx ++ [burst] :=
  ⟨offered [0x05, 0xFE], _, _, rfl, rfl⟩

theorem witness_ErrorsLeaveTheBlockReady :
    (∃ (s t : State) (e : HostError), s.Serial ∧ step s = .next t ∧ t.ports.hr = s.ports.hr ++ [.err e] ∧
      e.hostSide = true) ∧
    (∃ (s t : State) (e : HostError), s.Serial ∧ step s = .next t ∧ t.ports.hr = s.ports.hr ++ [.err e] ∧
      e.hostSide = false) :=
  ⟨⟨offered [0x77, 1, 0, 0x31], _, .malformedLiteral (bytes [0x31]), rfl, rfl, rfl, rfl⟩,
   ⟨waiting .read DecRegs.cleared [.noByte], _, .timeout, rfl, rfl, rfl, rfl⟩⟩

theorem witness_BusyOperationsAreRefused :
    ∃ (i : Instr) (s : State), needsIdle i = true ∧ s.arb.phase = .await :=
  ⟨.decStep 0xFF#8, pinging, rfl, rfl⟩

theorem witness_DecodeUndoesEncode :
    Instr.wf (.frameSyncWrite 0xFF#8 0xFA#8 [(0xFF#8, List.replicate 250 0xFF#8)]) = true ∧
    Instr.wf (.frameStatus 0 0xFE#8 0#8 0xFF#8 [] 0xFF#8) = true ∧
    Instr.wf (.writeReg 0xFF#8 { goal with min := some (-(2 ^ 63)) } (2 ^ 63 - 1)) = true ∧
    Instr.wf (.rawToValueRDT (2 ^ 64 - 1)) = true := by decide +kernel

theorem witness_DecodedIsWellFormed :
    ∃ (bs rest : List Byte) (i : Instr), decode bs = .ok (i, rest) :=
  ⟨bytes [0xFF, 0xFF, 0x01, 0x02, 0x03, 0x00, 0x09], [9#8], .frameWrite 1#8 0#8 [], by decide +kernel⟩

theorem witness_HeaderRowsNeverOverlap :
    ∃ (h : BitVec 40) (c d : Cmd), c.selects h = true ∧ d.selects h = true :=
  ⟨0xFFFFFEFF83#40, .syncWrite, .syncWrite, by decide +kernel, by decide +kernel⟩

/-- The selectors next to the listed ones, and 0xFF before another byte. -/
theorem witness_UnlistedSelectorIsRefused :
    ∀ sel ∈ [0x00#8, 0x07#8, 0x11#8, 0x15#8, 0x1F#8, 0x25#8, 0x3E#8, 0x4A#8, 0x5A#8, 0x6A#8, 0x7A#8, 0x82#8, 0x84#8,
      0xFF#8],
    ∃ (s : State) (bs : List Byte), nextAgent s = .host ∧ s.ports.hc = sel :: bs ∧
      ¬ (sel = 0xFF#8 ∧ bs.head? = some 0xFF#8) ∧
      sel ∉ [0x01#8, 0x02#8, 0x03#8, 0x04#8, 0x05#8, 0x06#8, 0x12#8, 0x13#8, 0x14#8, 0x83#8, 0x20#8, 0x21#8, 0x22#8,
             0x23#8, 0x24#8, 0x3F#8] ∧
      (∀ k, k < 10 → sel ≠ BitVec.ofNat 8 (0x40 + k) ∧ sel ≠ BitVec.ofNat 8 (0x50 + k) ∧
                      sel ≠ BitVec.ofNat 8 (0x60 + k) ∧ sel ≠ BitVec.ofNat 8 (0x70 + k)) := by
  intro sel h
  refine ⟨{ State.reset with ports := { State.reset.ports with hc := [sel, 0xFE#8] } }, [0xFE#8], rfl, rfl, fun hn => absurd hn.2 (by decide), ?_⟩
  revert sel
  decide +kernel

theorem witness_StepRunsDecodedInstruction :
    ∃ (s : State) (i : Instr) (rest : List Byte), nextAgent s = .host ∧ decode s.ports.hc = .ok (i, rest) :=
  ⟨offered [0x22, 0xFF, 0x24], .decStep 0xFF#8, [0x24#8], rfl, by decide +kernel⟩

theorem witness_FetchWordRunsNext : ∃ (nbits w : Nat) (i : Instr), decodeTableWord nbits w = some i :=
  ⟨40, 0xFFFF0F0201, .framePing 0x0F#8, by decide +kernel⟩

/-- The block outside a transaction with the decoder in a state of the framer. -/
def decoding (d : DecRegs) : State := { State.reset with dec := d }

theorem witness_DecStepInIdle : ∃ s : State, s.arb.phase = .idle ∧ s.dec.state = .idle := ⟨State.reset, rfl, rfl⟩

theorem witness_DecStepInFirstFF : ∃ s : State, s.arb.phase = .idle ∧ s.dec.state = .firstFF :=
  ⟨decoding (decIn .firstFF), rfl, rfl⟩

theorem witness_DecStepInSecondFF : ∃ s : State, s.arb.phase = .idle ∧ s.dec.state = .secondFF :=
  ⟨decoding (decIn .secondFF), rfl, rfl⟩

theorem witness_DecStepInIdAndLengthRcvd :
    (∃ s : State, s.arb.phase = .idle ∧ s.dec.state = .idRcvd) ∧
    (∃ s : State, s.arb.phase = .idle ∧ s.dec.state = .lengthRcvd) :=
  ⟨⟨decoding (decIn .idRcvd), rfl, rfl⟩, ⟨decoding (decIn .lengthRcvd), rfl, rfl⟩⟩

/-- Both arms of `CMD_RCVD` where they meet: a length of 3 with no parameter and with one, and a length of 0. -/
theorem witness_DecStepInCmdRcvd :
    (∃ s : State, s.arb.phase = .idle ∧ s.dec.state = .cmdRcvd ∧ s.dec.params.length + 2 < s.dec.length.toNat) ∧
    (∃ s : State, s.arb.phase = .idle ∧ s.dec.state = .cmdRcvd ∧ s.dec.params.length + 2 ≥ s.dec.length.toNat) ∧
    (∃ s : State, s.arb.phase = .idle ∧ s.dec.state = .cmdRcvd ∧ s.dec.length = 0#8 ∧
      s.dec.params.length + 2 ≥ s.dec.length.toNat) :=
  ⟨⟨decoding { decIn .cmdRcvd with length := 3#8 }, by decide⟩,
   ⟨decoding { decIn .cmdRcvd with length := 3#8, params := [0#8] }, by decide⟩,
   ⟨decoding (decIn .cmdRcvd), by decide⟩⟩

theorem witness_DecResetClearsDecoder : ∃ s : State, s.arb.phase = .idle ∧ s.dec.state = .cmdRcvd :=
  ⟨decoding (atChecksum 0xFF [1]), rfl, rfl⟩

/-- Frames of every extreme length byte. -/
theorem witness_WholeFrameVerdict :
    ∀ n ∈ [(0, 0), (1, 0), (2, 0), (3, 1), (255, 253)], ∃ (d : DecRegs) (id len : Byte) (params : List Byte),
      d.state = .idle ∧ id ≠ 0xFF#8 ∧ len = BitVec.ofNat 8 n.1 ∧ params.length = n.2 ∧
      params.length = len.toNat - 2 := by
  intro n h
  refine ⟨DecRegs.cleared, 0xFE#8, BitVec.ofNat 8 n.1, List.replicate n.2 0xFF#8, rfl, by decide, rfl, by simp, ?_⟩
  rw [List.length_replicate]
  revert n
  decide

theorem witness_EmittedFrameDecodesBack :
    ∃ (s : State) (d : DecRegs) (id : Byte) (params : List Byte),
      s.arb.phase = .idle ∧ d.state = .idle ∧ id ≠ 0xFF#8 ∧ params.length ≤ 253 ∧ params.length = 253 :=
  ⟨State.reset, DecRegs.cleared, 0xFE#8, List.replicate 253 0xFF#8, by decide +kernel⟩

theorem witness_NoVerdictWithoutPreamble :
    (∃ (bs : List Byte) (d : DecRegs), noPairFF bs = true ∧ d.state = .idle) ∧
    (∃ (bs : List Byte) (d : DecRegs), noPairFF bs = true ∧ d.state = .firstFF ∧ bs.head? ≠ some 0xFF#8) :=
  ⟨⟨bytes [0xFF, 0x00, 0xFF], DecRegs.cleared, by decide⟩, ⟨bytes [0x00, 0xFF], decIn .firstFF, by decide⟩⟩

theorem witness_SingleBitErrorIsDetected :
    (∃ (d : DecRegs) (id len b : Byte) (params p q : List Byte) (k : Nat),
      d.state = .idle ∧ id ≠ 0xFF#8 ∧ k < 8 ∧ params.length = len.toNat - 2 ∧ params = p ++ b :: q ∧
      id ^^^ BitVec.ofNat 8 (2 ^ k) ≠ 0xFF#8 ∧ k = 7) ∧
    (∃ (d : DecRegs) (id len : Byte) (params : List Byte) (k : Nat),
      d.state = .idle ∧ id ≠ 0xFF#8 ∧ k < 8 ∧ params.length = len.toNat - 2 ∧
      id ^^^ BitVec.ofNat 8 (2 ^ k) ≠ 0xFF#8 ∧ params = []) :=
  ⟨⟨DecRegs.cleared, 0xFE#8, 5#8, 0#8, [0xFF#8, 0#8, 0xFF#8], [0xFF#8], [0xFF#8], 7, by decide⟩,
   ⟨DecRegs.cleared, 1#8, 2#8, [], 0, by decide⟩⟩

/-- A destination at the end of its range, and parameters at the end of theirs. -/
theorem witness_SendCommandEmitsFrame :
    ∃ (id : Byte) (params : List Byte) (s : State), s.arb.phase = .idle ∧ id ≠ 0xFF#8 ∧ params.length ≤ 253 ∧
      params.length = 253 :=
  ⟨0xFE#8, List.replicate 253 0#8, State.reset, by decide +kernel⟩

theorem witness_SendCommandChecks :
    (∃ (id : Byte) (s : State), s.arb.phase = .idle ∧ id = 0xFF#8) ∧
    (∃ (id : Byte) (params : List Byte) (s : State), s.arb.phase = .idle ∧ id ≠ 0xFF#8 ∧ 253 < params.length ∧
      params.length = 254) :=
  ⟨⟨0xFF#8, State.reset, rfl, rfl⟩, ⟨0xFE#8, List.replicate 254 0#8, State.reset, by decide +kernel⟩⟩

theorem witness_InvalidIdIsRefused :
    ∃ (reg : RegDesc) (raw : Int) (s : State), s.arb.phase = .idle ∧ InBounds reg raw ∧ Fits reg raw :=
  ⟨goal, 1023, State.reset, rfl, by intro lo hi hlo hhi; cases hlo; cases hhi; decide, by decide⟩

theorem witness_ReadStatusPacketStarts : ∃ s : State, s.arb.phase = .idle := ⟨State.reset, rfl⟩

/-- Each arm of R124. -/
theorem witness_ReceiveEventClassified :
    (∃ (s : State) (rest : List RxEvent), s.Serial ∧ s.arb.phase = .await ∧ s.arb.op = .readStatusPacket ∧
      s.ports.rx = .noByte :: rest) ∧
    (∀ st : DecStatus, ∃ (s : State) (b : Byte) (rest : List RxEvent), s.Serial ∧ s.arb.phase = .await ∧
      s.arb.op = .readStatusPacket ∧ s.ports.rx = .byte b :: rest ∧ (decByte b s.dec).1 = st ∧
      (decByte b s.dec).2.cmd = 0#8) ∧
    (∃ (s : State) (b : Byte) (rest : List RxEvent), s.Serial ∧ s.arb.phase = .await ∧
      s.arb.op = .readStatusPacket ∧ s.ports.rx = .byte b :: rest ∧ (decByte b s.dec).1 = .none ∧
      (decByte b s.dec).2.cmd ≠ 0#8) := by
  refine ⟨⟨waiting .readStatusPacket DecRegs.cleared [.noByte], [], rfl, rfl, rfl, rfl⟩, fun st => ?_,
    ⟨waiting .readStatusPacket (atChecksum 0xFF []) (onWire [0xFD]), 0xFD#8, [], rfl, rfl, rfl, rfl, by decide, by decide⟩⟩
  cases st with
  | notDone => exact ⟨waiting .readStatusPacket DecRegs.cleared (onWire [0]), 0#8, [], rfl, rfl, rfl, rfl, by decide, by decide⟩
  | none =>
    exact ⟨waiting .readStatusPacket (atChecksum 0 []) (onWire [0xFC]), 0xFC#8, [], rfl, rfl, rfl, rfl, by decide, by decide⟩
  | checksum =>
    exact ⟨waiting .readStatusPacket (atChecksum 0 []) (onWire [0xFD]), 0xFD#8, [], rfl, rfl, rfl, rfl, by decide, by decide⟩

theorem witness_ReadEndsByNoByte :
    ∃ (s : State) (bs : List Byte) (rest : List RxEvent),
      s.Serial ∧ s.arb.phase = .await ∧ s.ports.rx = bs.map .byte ++ .noByte :: rest :=
  ⟨waiting .write DecRegs.cleared (onWire [0xFF, 0xFF, 1] ++ [.noByte]), bytes [0xFF, 0xFF, 1], [], rfl, rfl, rfl⟩

theorem witness_PaddingNeverEndsARead :
    ∀ x ∈ [(DecState.secondFF, 0), (.firstFF, 1), (.idle, 1), (.idle, 2)], ∃ (s : State) (rest : List RxEvent),
      s.Serial ∧ s.arb.phase = .await ∧ s.dec.state = x.1 ∧
      s.ports.rx = List.replicate x.2 (.byte 0xFF#8) ++ rest := fun x _ =>
  ⟨waiting .read (decIn x.1) (List.replicate x.2 (.byte 0xFF#8)), [], rfl, rfl, rfl, (List.append_nil _).symm⟩

theorem witness_StatusFrameArrives :
    (∃ s : State, s.arb.phase = .idle) ∧
    (∃ (id len : Byte) (params : List Byte) (s : State), s.arb.phase = .await ∧ s.arb.op = .readStatusPacket ∧
      s.dec.state = .idle ∧ s.ports.rx = [] ∧ id ≠ 0xFF#8 ∧ params.length = len.toNat - 2) :=
  ⟨⟨State.reset, rfl⟩,
   ⟨0xFE#8, 3#8, [0xFF#8], waiting .readStatusPacket DecRegs.cleared [], rfl, rfl, rfl, rfl, by decide, rfl⟩⟩

theorem witness_PingAndReadSendAndAwait : ∃ (id : Byte) (s : State), s.arb.phase = .idle ∧ id ≠ 0xFF#8 :=
  ⟨0xFE#8, State.reset, rfl, by decide⟩

/-- Both clauses of the write statement where they meet, to a normal id and to BROADCAST. -/
theorem witness_WriteSendsAndAwaitsUnlessBroadcast :
    (∃ (id : Byte) (data : List Byte) (s : State), s.arb.phase = .idle ∧ id ≠ 0xFF#8 ∧ data.length ≤ 252 ∧
      data.length = 252) ∧
    (∃ (id : Byte) (data : List Byte) (s : State), s.arb.phase = .idle ∧ id ≠ 0xFF#8 ∧ 252 < data.length ∧
      data.length = 253) :=
  ⟨⟨0xFE#8, List.replicate 252 0#8, State.reset, by decide +kernel⟩,
   ⟨0xFD#8, List.replicate 253 0#8, State.reset, by decide +kernel⟩⟩

theorem witness_ResetAndActionSend :
    (∃ (id : Byte) (s : State), s.arb.phase = .idle ∧ id ≠ 0xFF#8 ∧ id = 0xFE#8) ∧
    (∃ (id : Byte) (s : State), s.arb.phase = .idle ∧ id ≠ 0xFF#8 ∧ id ≠ 0xFE#8) :=
  ⟨⟨0xFE#8, State.reset, rfl, by decide, rfl⟩, ⟨0xFD#8, State.reset, rfl, by decide, by decide⟩⟩

theorem witness_ReadRegSendsOneRead :
    ∃ (id : Byte) (reg : RegDesc) (s : State), s.arb.phase = .idle ∧ id ≠ 0xFF#8 ∧ reg.size = .two :=
  ⟨0xFE#8, model, State.reset, rfl, by decide, rfl⟩

theorem goal_inBounds {raw : Int} : InBounds goal raw ↔ 0 ≤ raw ∧ raw ≤ 1023 :=
  ⟨fun h => h 0 1023 rfl rfl, fun h _ _ hlo hhi => by cases hlo; cases hhi; exact h⟩

theorem led_inBounds (raw : Int) : InBounds led raw := fun _ _ hlo => by cases hlo

/-- A value at a bound, and the widest value of a register without bounds. -/
theorem witness_WriteRegSendsTheBytes :
    (∃ (id : Byte) (reg : RegDesc) (raw : Int) (s : State), s.arb.phase = .idle ∧ id ≠ 0xFF#8 ∧ reg = goal ∧ raw = 1023 ∧
      InBounds reg raw ∧ Fits reg raw) ∧
    (∃ (id : Byte) (reg : RegDesc) (raw : Int) (s : State), s.arb.phase = .idle ∧ id ≠ 0xFF#8 ∧ reg = led ∧ raw = 255 ∧
      InBounds reg raw ∧ Fits reg raw) :=
  ⟨⟨0xFE#8, goal, 1023, State.reset, rfl, by decide, rfl, rfl, goal_inBounds.mpr (by decide), by decide⟩,
   ⟨1#8, led, 255, State.reset, rfl, by decide, rfl, rfl, led_inBounds _, by decide⟩⟩

/-- Values just outside the bounds, and just too wide for a register without bounds. -/
theorem witness_WriteRegValidatesFirst :
    (∃ (reg : RegDesc) (raw : Int) (s : State), s.arb.phase = .idle ∧ ¬ InBounds reg raw ∧ raw = 1024) ∧
    (∃ (reg : RegDesc) (raw : Int) (s : State), s.arb.phase = .idle ∧ ¬ InBounds reg raw ∧ raw = -1) ∧
    (∃ (reg : RegDesc) (raw : Int) (s : State), s.arb.phase = .idle ∧ InBounds reg raw ∧ ¬ Fits reg raw ∧ raw = 256) ∧
    (∃ (reg : RegDesc) (raw : Int) (s : State), s.arb.phase = .idle ∧ InBounds reg raw ∧ ¬ Fits reg raw ∧ raw = -1) :=
  ⟨⟨goal, 1024, State.reset, rfl, fun h => absurd (goal_inBounds.mp h) (by decide), rfl⟩,
   ⟨goal, -1, State.reset, rfl, fun h => absurd (goal_inBounds.mp h) (by decide), rfl⟩,
   ⟨led, 256, State.reset, rfl, led_inBounds _, by decide, rfl⟩, ⟨led, -1, State.reset, rfl, led_inBounds _, by decide, rfl⟩⟩

/-- What a read that completes a frame meets, for a status byte, parameters and a checksum byte of the wire. -/
def Completes (s : State) (b : Byte) (op : WireOp) : Prop :=
  s.Serial ∧ s.arb.phase = .await ∧ s.arb.op = op ∧ s.ports.rx = [.byte b] ∧ s.dec.state = .cmdRcvd ∧
    s.dec.length.toNat ≤ s.dec.params.length + 2

/-- The byte that completes a frame, for each operation that awaits one and for each result. -/
theorem witness_CompletedFrameIsShaped :
    (∃ (s : State) (b : Byte), Completes s b .ping ∧ b.toNat ≠ 255 - s.dec.sum.toNat) ∧
    (∃ (s : State) (b : Byte), Completes s b .ping ∧ b.toNat = 255 - s.dec.sum.toNat ∧ s.dec.cmd ≠ 0#8) ∧
    (∀ op, op.awaits = true → ∃ (s : State) (b : Byte), Completes s b op ∧ b.toNat = 255 - s.dec.sum.toNat ∧
      s.dec.cmd = 0#8) ∧
    (∃ (s : State) (b : Byte), Completes s b (.readReg .one) ∧ b.toNat = 255 - s.dec.sum.toNat ∧ s.dec.cmd = 0#8 ∧
      s.dec.params = [0x16#8]) ∧
    (∃ (s : State) (b : Byte), Completes s b (.readReg .two) ∧ b.toNat = 255 - s.dec.sum.toNat ∧ s.dec.cmd = 0#8 ∧
      s.dec.params = [0x0C#8, 0x00#8]) ∧
    (∃ (s : State) (b : Byte), Completes s b (.readReg .two) ∧ b.toNat = 255 - s.dec.sum.toNat ∧ s.dec.cmd = 0#8 ∧
      s.dec.params.length ≠ RegSize.two.bytes) :=
  ⟨⟨waiting .ping (atChecksum 0 []) (onWire [0xFD]), 0xFD#8, ⟨rfl, rfl, rfl, rfl, rfl, Nat.le_refl 2⟩, by decide⟩,
   ⟨waiting .ping (atChecksum 0x80 []) (onWire [0x7C]), 0x7C#8, ⟨rfl, rfl, rfl, rfl, rfl, Nat.le_refl 2⟩, rfl, by decide⟩,
   fun op _ => ⟨waiting op (atChecksum 0 []) (onWire [0xFC]), 0xFC#8, ⟨rfl, rfl, rfl, rfl, rfl, Nat.le_refl 2⟩, rfl, rfl⟩,
   ⟨waiting (.readReg .one) (atChecksum 0 [0x16]) (onWire [0xE5]), 0xE5#8, ⟨rfl, rfl, rfl, rfl, rfl, Nat.le_refl 3⟩, rfl,
     rfl, rfl⟩,
   ⟨waiting (.readReg .two) (atChecksum 0 [0x0C, 0x00]) (onWire [0xEE]), 0xEE#8, ⟨rfl, rfl, rfl, rfl, rfl, Nat.le_refl 4⟩,
     rfl, rfl, rfl⟩,
   ⟨waiting (.readReg .two) (atChecksum 0 [0x0C]) (onWire [0xEF]), 0xEF#8, ⟨rfl, rfl, rfl, rfl, rfl, Nat.le_refl 3⟩, rfl,
     rfl, by decide⟩⟩

theorem witness_NoByteIsTimeoutOrFalse (op : WireOp) :
    ∃ (s : State) (rest : List RxEvent), s.Serial ∧ s.arb.phase = .await ∧ s.arb.op = op ∧ s.ports.rx = .noByte :: rest :=
  ⟨waiting op (decIn .idRcvd) [.noByte], [], rfl, rfl, rfl, rfl⟩

theorem witness_ReadTransactionReturnsParameters :
    ∃ (s : State) (id rid len err : Byte) (pad : Nat) (params : List Byte) (rest : List RxEvent),
      s.Serial ∧ s.arb.phase = .idle ∧ id ≠ 0xFF#8 ∧ rid ≠ 0xFF#8 ∧ params.length = len.toNat - 2 ∧
      s.ports.rx = (goodStatus pad rid len err params).map .byte ++ rest :=
  ⟨{ State.reset with ports := { State.reset.ports with
      rx := (goodStatus 1 1#8 5#8 0#8 (bytes [0x0C, 0x00, 0x16])).map .byte ++ [.noByte] } },
   1#8, 1#8, 5#8, 0#8, 1, bytes [0x0C, 0x00, 0x16], [.noByte], rfl, rfl, by decide, by decide, rfl, rfl⟩

theorem witness_StaleReplyAnswersNextPing :
    ∃ (s : State) (id other : Byte), s.Serial ∧ s.arb.phase = .idle ∧ s.ports.rx = [] ∧ id ≠ 0xFF#8 ∧ other ≠ 0xFF#8 :=
  ⟨State.reset, 1#8, 2#8, rfl, rfl, rfl, by decide, by decide⟩

/-- The largest SYNC_WRITE frame of two-byte lanes: 83 devices, 251 parameters; and of one-byte lanes. -/
theorem witness_SyncWriteFrameSends :
    ∃ (blocks : List (Byte × List Byte)) (s : State), s.arb.phase = .idle ∧
      2 + (blocks.map fun b => b.2.length + 1).sum ≤ 253 ∧ blocks.length = 83 :=
  ⟨List.replicate 83 (1#8, [0#8, 0#8]), State.reset, by decide +kernel⟩

theorem goal_speed_contiguous : Contiguous [goal, speed] := by
  intro j h
  simp only [List.length_cons, List.length_nil] at h
  cases (show j = 0 by omega)
  rfl

theorem shape_one : SyncShape [1#8] [goal] [[512]] := ⟨by decide, by decide, rfl, by decide, by decide⟩

theorem witness_SyncWriteEmitsOneFrame :
    ∃ (ids : List Byte) (run : List RegDesc) (values : List (List Int)) (s : State), s.arb.phase = .idle ∧
      SyncShape ids run values ∧ Contiguous run ∧ syncSize ids run ≤ 253 ∧
      (∀ vs ∈ values, ∀ p ∈ run.zip vs, InBounds p.1 p.2 ∧ Fits p.1 p.2) := by
  refine ⟨[1#8, 2#8], [goal, speed], [[512, 1023], [0, 0]], State.reset, rfl,
    ⟨by decide, by decide, rfl, by decide, by decide⟩, goal_speed_contiguous, by decide, ?_⟩
  have hs : ∀ raw : Int, 0 ≤ raw → raw ≤ 1023 → InBounds speed raw := fun raw h h' _ _ hlo hhi => by
    cases hlo; cases hhi; exact ⟨h, h'⟩
  have hg : ∀ raw : Int, 0 ≤ raw → raw ≤ 1023 → InBounds goal raw := fun raw h h' => goal_inBounds.mpr ⟨h, h'⟩
  simp only [List.mem_cons, List.not_mem_nil, or_false, forall_eq_or_imp, forall_eq, List.zip_cons_cons, List.zip_nil_right]
  exact ⟨⟨⟨hg _ (by decide) (by decide), by decide⟩, ⟨hs _ (by decide) (by decide), by decide⟩⟩,
    ⟨⟨hg _ (by decide) (by decide), by decide⟩, ⟨hs _ (by decide) (by decide), by decide⟩⟩⟩

/-- Each check of R203, R201 and R202, the sizes on both sides of 253. -/
theorem witness_SyncWriteRejectsInOrder :
    (∃ (ids : List Byte) (run : List RegDesc), ids = [] ∨ run = []) ∧
    (∃ (ids : List Byte) (run : List RegDesc) (values : List (List Int)), ids ≠ [] ∧ run ≠ [] ∧
      (values.length ≠ ids.length ∨ (∃ vs ∈ values, vs.length ≠ run.length))) ∧
    (∃ (ids : List Byte) (run : List RegDesc) (values : List (List Int)), ids ≠ [] ∧ run ≠ [] ∧
      values.length = ids.length ∧ (∀ vs ∈ values, vs.length = run.length) ∧
      (∃ id ∈ ids, id = 0xFE#8 ∨ id = 0xFF#8)) ∧
    (∃ (ids : List Byte) (run : List RegDesc) (values : List (List Int)), SyncShape ids run values ∧ ¬ Contiguous run) ∧
    (∃ (ids : List Byte) (run : List RegDesc) (values : List (List Int)), SyncShape ids run values ∧ Contiguous run ∧
      253 < syncSize ids run ∧ ids.length = 84) ∧
    (∃ (ids : List Byte) (run : List RegDesc) (values : List (List Int)) (field : RegDesc × Int), SyncShape ids run values ∧
      Contiguous run ∧ syncSize ids run ≤ 253 ∧ values.flatMap (fun vs => run.zip vs) = [] ++ field :: [] ∧
      ¬ InBounds field.1 field.2) ∧
    (∃ (ids : List Byte) (run : List RegDesc) (values : List (List Int)) (field : RegDesc × Int), SyncShape ids run values ∧
      Contiguous run ∧ syncSize ids run ≤ 253 ∧ values.flatMap (fun vs => run.zip vs) = [] ++ field :: [] ∧
      InBounds field.1 field.2 ∧ ¬ Fits field.1 field.2) := by
  have hone : ∀ r : RegDesc, Contiguous [r] := fun r j h => by simp at h
  refine ⟨⟨[], [goal], .inl rfl⟩, ⟨[1#8, 2#8], [goal], [[5]], by decide, by decide, by decide⟩,
    ⟨[1#8, 0xFE#8], [goal], [[5], [6]], by decide, by decide, rfl, by decide, by decide⟩,
    ⟨[1#8], [goal, { speed with offset := 0x22#8 }], [[512, 100]], ⟨by decide, by decide, rfl, by decide, by decide⟩,
      fun h => absurd (h 0 (by decide)) (by decide)⟩,
    ⟨List.replicate 84 1#8, [goal], List.replicate 84 [5],
      ⟨by simp, by decide, by simp, fun vs h => by rw [List.eq_of_mem_replicate h]; rfl,
        fun id h => by rw [List.eq_of_mem_replicate h]; decide⟩, hone _, by decide +kernel, by simp⟩,
    ⟨[1#8], [goal], [[1024]], (goal, 1024), ⟨by decide, by decide, rfl, by decide, by decide⟩, hone _, by decide, rfl,
      fun h => absurd (goal_inBounds.mp h) (by decide)⟩,
    ⟨[1#8], [led], [[256]], (led, 256), ⟨by decide, by decide, rfl, by decide, by decide⟩, hone _, by decide, rfl,
      led_inBounds _, by decide⟩⟩

/-- Raw values at the edges of the tables. -/
theorem witness_TableRawToValue :
    (∃ raw : Nat, 1 < raw ∧ raw = 2) ∧ (∃ raw : Nat, 2 < raw ∧ raw = 3) ∧ (∃ raw : Nat, raw ≤ 255 ∧ raw = 255) ∧
    (∃ raw : Nat, 255 < raw ∧ raw = 256) :=
  ⟨⟨2, by decide⟩, ⟨3, by decide⟩, ⟨255, by decide⟩, ⟨256, by decide⟩⟩

theorem witness_NumericValueToRaw : (∃ v : Rat, 0 < v) ∧ (∃ v : Rat, v ≤ 0 ∧ v = 0) :=
  ⟨⟨1 / 1000, by decide +kernel⟩, ⟨0, by decide +kernel⟩⟩

theorem witness_TableValueToRaw :
    (∃ v : LoadValue, v.magnitude ≤ 1023 ∧ v.magnitude = 1023) ∧ (∃ v : LoadValue, 1023 < v.magnitude ∧ v.magnitude = 1024) :=
  ⟨⟨{ sign := true, magnitude := 1023 }, by decide⟩, ⟨{ sign := true, magnitude := 1024 }, by decide⟩⟩

theorem witness_DisplayOfValue : (∃ raw : Nat, raw ≤ 255 ∧ raw = 255) ∧ (∃ raw : Nat, 255 < raw ∧ raw = 256) :=
  ⟨⟨255, by decide⟩, ⟨256, by decide⟩⟩

theorem witness_LookupStrings :
    (∃ raw : Nat, 1 < raw ∧ raw = 2) ∧ (∃ raw : Nat, 2 < raw ∧ raw = 3) ∧
    (∃ text : Text, text ≠ [111#8, 102#8, 102#8] ∧ text ≠ [111#8, 110#8]) ∧
    (∃ text : Text, text ≠ [110#8, 111#8, 110#8, 101#8] ∧ text ≠ [114#8, 101#8, 97#8, 100#8] ∧
      text ≠ [97#8, 108#8, 108#8]) :=
  ⟨⟨2, by decide⟩, ⟨3, by decide⟩, ⟨[0x4F#8, 0x6E#8], by decide⟩, ⟨[0x73#8, 0x6F#8, 0x6D#8, 0x65#8], by decide⟩⟩

theorem witness_CheckRangeRaisesIffOutside :
    (∃ (reg : RegDesc) (raw lo hi : Int), reg.min = some lo ∧ reg.max = some hi ∧ hi < raw) ∧
    (∃ (reg : RegDesc) (raw lo hi : Int), reg.min = some lo ∧ reg.max = some hi ∧ raw < lo) ∧
    (InBounds goal 0 ∧ InBounds goal 1023) ∧ InBounds { goal with min := none } 5000 :=
  ⟨⟨goal, 1024, 0, 1023, rfl, rfl, by decide⟩, ⟨goal, -1, 0, 1023, rfl, rfl, by decide⟩,
   ⟨goal_inBounds.mpr (by decide), goal_inBounds.mpr (by decide)⟩, fun _ _ hlo => by cases hlo⟩

theorem witness_CodecRoundTripIsExact : 0x7FF ≤ 0x7FF ∧ 1 < 2 ∧ 2 < 3 ∧ 255 ≤ 255 := by decide

theorem witness_NumericConversionsAreMonotone : 0 < 1 ∧ 1023 ≤ 1023 ∧ 255 ≤ 255 := by decide

theorem witness_ByteFormComposesBack :
    bytesOf 255 .one = some [0xFF#8] ∧ bytesOf 65535 .two = some [0xFF#8, 0xFF#8] := by decide

theorem witness_LookupByOffsetFindsEachRegister :
    ∃ (t : DeviceType) (r : RegDesc) (offset : Byte), disjointRegs t.regs = true ∧ r ∈ t.regs ∧
      regByOffset t offset = some r :=
  ⟨{ name := [], model := 12, regs := [model, version, goal, speed] }, speed, 0x20#8, by decide⟩

end Sys2Proof.Tests
end

/-! SUPPORT. The statements on the state: the invariant and the configuration across a step, the instruction a step
runs, the error bits and the lookup by offset. -/

namespace Sys2Proof.Machine

/-! ## The invariant of the block -/

/-- The transmit invariant speaks of the transmit registers and the bursts only. -/
theorem State.TxInv.congr {s t : State} (h : s.TxInv) (htx : t.tx = s.tx) (hports : t.ports.tx = s.ports.tx) :
    t.TxInv := by
  unfold State.TxInv at h ⊢
  rwa [htx, hports]

/-- A state that differs only in what the invariant does not speak of keeps it. -/
theorem State.Inv.congr {s t : State} (h : s.Inv) (hdec : t.dec = s.dec) (htx : t.tx = s.tx) (harb : t.arb = s.arb)
    (hports : t.ports.tx = s.ports.tx) : t.Inv where
  dec := hdec ▸ h.dec
  tx  := h.tx.congr htx hports
  arb := harb ▸ h.arb

/-- After an emission the transmit buffer is the last burst, whatever was sent before (R121, R232). -/
theorem State.TxInv.sent {s : State} (h : s.TxInv) (op : WireOp) {id : Byte} (command : Byte) {params : List Byte}
    (hid : id ≠ 0xFF#8) (hlen : params.length ≤ 253) : (Machine.sent op id command params s).TxInv := by
  obtain ⟨hbursts, -⟩ := h
  refine ⟨fun burst hb => ?_, .inr ⟨List.getLast?_concat, id, command, params, hid, hlen, rfl, ofNat_mod_256 _⟩⟩
  rcases List.mem_append.mp hb with hb | hb
  · exact hbursts burst hb
  · exact ⟨id, command, params, hid, hlen, List.mem_singleton.mp hb⟩

/-- Receiving keeps the invariant: nothing is sent and the operation in progress stays (R124). -/
theorem ReadStep.inv {s t : State} (h : ReadStep s t) (hs : s.arb.phase = .await) (hi : s.Inv) : t.Inv where
  dec := h.dec hi.dec
  tx  := hi.tx.congr h.tx h.ports_tx
  arb := fun _ => h.op ▸ hi.arb hs

/-- Every move keeps the invariant. -/
theorem Moved.inv {s t : State} (h : Moved s t) (hi : s.Inv) : t.Inv := by
  have idle {a : ArbRegs} (ha : a.phase = .idle) : a.phase = .await → a.op.awaits = true := by simp [ha]
  cases h with
  | answered r h => subst h; exact hi.congr rfl rfl rfl rfl
  | rejected op e hs he h => subst h; exact ⟨hi.dec, hi.tx.congr rfl rfl, idle hs⟩
  | sentOnly op id command params hs hid hlen h =>
    subst h
    exact ⟨hi.dec, (hi.tx.sent op command hid hlen).congr rfl rfl, idle hs⟩
  | sentAwaiting op id command params hs hop hid hlen h =>
    subst h
    exact ⟨cleared_inv, (hi.tx.sent op command hid hlen).congr rfl rfl, fun _ => hop⟩
  | readStarted hs h => subst h; exact ⟨cleared_inv, hi.tx.congr rfl rfl, fun _ => rfl⟩
  | decoder d r hs hd h => subst h; exact ⟨hd hi.dec, hi.tx.congr rfl rfl, hi.arb⟩
  | arrived bs h =>
    have harrive : (arrive bs s).Inv := hi.congr rfl rfl rfl rfl
    rcases h with rfl | ⟨hs, hread⟩
    · exact harrive
    · exact hread.inv hs harrive

/-- Settles O3: the turn and the host port are no part of the invariant, and each kind of step keeps it. -/
theorem stepKeepsInv : Obligations.StepKeepsInv := by
  intro s t hi h
  have hturn : (takeTurn s).Inv := hi.congr rfl rfl rfl rfl
  rcases step_next h with rfl | ⟨-, rest, hmoved⟩ | ⟨-, hs, hread⟩
  · exact hturn
  · exact hmoved.inv (hturn.congr rfl rfl rfl rfl)
  · exact hread.inv hs hturn

/-- Settles O2: the framer is cleared, nothing was sent and no status frame is awaited (R27). -/
theorem resetSatisfiesInv : Obligations.ResetSatisfiesInv where
  dec := cleared_inv
  tx  := ⟨fun _ hb => absurd hb List.not_mem_nil, .inl ⟨rfl, rfl, rfl⟩⟩
  arb := fun h => nomatch h

/-- Settles O1: R27's power-on column, read off the definition of the reset state. -/
theorem resetHoldsPowerOnValues : Obligations.ResetHoldsPowerOnValues :=
  ⟨rfl, rfl, rfl, rfl, rfl, rfl, rfl, rfl, rfl⟩

/-! ## The configuration -/

/-- No move writes the configuration (R20). -/
theorem Moved.cfg {s t : State} (h : Moved s t) : t.cfg = s.cfg := by
  cases h with
  | arrived bs h =>
    rcases h with rfl | ⟨-, hread⟩
    · rfl
    · exact hread.cfg
  | _ => subst t; rfl

/-- Settles O4: each kind of step leaves the configuration alone. -/
theorem stepNeverWritesConfig : Obligations.StepNeverWritesConfig := by
  intro s t h
  rcases step_next h with rfl | ⟨-, rest, hmoved⟩ | ⟨-, -, hread⟩
  · rfl
  · exact hmoved.cfg
  · exact hread.cfg

/-! ## The instruction a step runs -/

theorem fetch_of_decode {s : State} {i : Instr} {rest : List Byte} (h : decode s.ports.hc = .ok (i, rest)) :
    fetch s = .operation i { s with ports := { s.ports with hc := rest } } := by
  simp only [fetch, h]

theorem step_of_fetch {s s' : State} {i : Instr} (hagent : nextAgent s = .host)
    (h : fetch (takeTurn s) = .operation i s') : step s = exec i s' := by
  simp only [step, hagent, h]

/-- Settles O14: the host's move takes the decoded bytes and the turn. -/
theorem stepRunsDecodedInstruction : Obligations.StepRunsDecodedInstruction :=
  fun s _ _ hagent hdecode => step_of_fetch hagent (fetch_of_decode (s := takeTurn s) hdecode)

theorem decode_of_decodeTableWord {nbits w : Nat} {i : Instr} (h : decodeTableWord nbits w = some i) :
    ∃ rest, decode (tableBytes nbits w) = .ok (i, rest) := by
  unfold decodeTableWord at h
  split at h
  · next rest hdecode => cases h; exact ⟨rest, hdecode⟩
  · cases h

/-- Settles O15: the offered word stands on the host port and the listed turn is the host's, so the step runs it. -/
theorem fetchWordRunsNext : Obligations.FetchWordRunsNext := by
  intro s nbits w i h
  obtain ⟨rest, hdecode⟩ := decode_of_decodeTableWord h
  exact ⟨rest, stepRunsDecodedInstruction (s.withFetchWord nbits w) i rest rfl hdecode⟩

/-! ## Error bits -/

/-- The bits of the byte of a set are the members of the set (R17, R183). -/
theorem errBitsOf_errByteOf (e : ErrBits) : errBitsOf (errByteOf e) = e := by
  rcases e with ⟨a, b, c, d, e, f, g, h⟩
  revert a b c d e f g h; decide +kernel

/-- A wire byte is determined by its bits, each of which is the presence of a name. -/
theorem errBitsOf_injective : Function.Injective errBitsOf := by
  intro a b h
  simp only [errBitsOf_eq, ErrBits.mk.injEq] at h
  apply BitVec.eq_of_getLsbD_eq
  intro k hk
  interval_cases k <;> simp only [h]

theorem errByteOf_errBitsOf (b : Byte) : errByteOf (errBitsOf b) = b :=
  errBitsOf_injective (errBitsOf_errByteOf _)

/-- Settles O59: the names are the bits (`errBitsOf_eq`), so byte and set determine each other; the codes and the
table are read off their definitions. -/
theorem errorBitsAreFaithful : Obligations.ErrorBitsAreFaithful :=
  ⟨errByteOf_errBitsOf, errBitsOf_errByteOf, fun b => by simp [errBitsOf_eq], rfl, rfl, rfl, mem_names_errBitsOf, rfl⟩

/-! ## The lookup by offset -/

theorem regSize_bytes_pos (size : RegSize) : 0 < size.bytes := by cases size <;> decide

/-- Registers whose byte ranges do not intersect start at different offsets: no range is empty. -/
theorem offset_ne_of_apart {a b : RegDesc} (h : apart a b = true) : a.offset ≠ b.offset := by
  intro hab
  have ha := regSize_bytes_pos a.size
  have hb := regSize_bytes_pos b.size
  simp only [apart, hab, Bool.or_eq_true, decide_eq_true_eq] at h
  omega

theorem find?_offset_of_disjointRegs {regs : List RegDesc} {r : RegDesc} (hd : disjointRegs regs = true)
    (hr : r ∈ regs) : (regs.find? fun q => q.offset == r.offset) = some r := by
  induction regs with
  | nil => cases hr
  | cons q qs ih =>
    simp only [disjointRegs, Bool.and_eq_true, List.all_eq_true] at hd
    obtain ⟨hapart, hrest⟩ := hd
    rcases List.mem_cons.mp hr with rfl | hr
    · simp
    · rw [List.find?_cons_of_neg (by simpa using offset_ne_of_apart (hapart r hr))]
      exact ih hrest hr

theorem mem_of_regByOffset {t : DeviceType} {offset : Byte} {r : RegDesc} (h : regByOffset t offset = some r) :
    r ∈ t.regs ∧ r.offset = offset :=
  ⟨List.mem_of_find?_eq_some h, by simpa using List.find?_some h⟩

/-- Settles O60: by induction on the registers each is found before any other of its offset, and `find?` answers
members that pass its test only. -/
theorem lookupByOffsetFindsEachRegister : Obligations.LookupByOffsetFindsEachRegister :=
  fun _ hd => ⟨fun _ hr => find?_offset_of_disjointRegs hd hr, fun _ _ h => mem_of_regByOffset h⟩

end Sys2Proof.Machine

/-! SUPPORT. The statement on memory: the byte form of a raw value and its composition back (20_memory.md). -/

namespace Sys2Proof.Machine

/-! ## The byte form and its composition -/

/-- Composing the low and the high byte of a value of two bytes gives the value (R40, R41). -/
theorem le16_ofNat_div (n : Nat) (h : n < 256 ^ 2) : le16 (BitVec.ofNat 8 n) (BitVec.ofNat 8 (n / 256)) = n := by
  simp only [le16, BitVec.toNat_ofNat]
  omega

/-- The byte form of a value that fits composes back to it. -/
theorem rawOf_wireBytes {reg : RegDesc} {raw : Int} (h : Fits reg raw) :
    rawOf reg.size (wireBytes reg raw) = some raw.toNat := by
  obtain ⟨-, hlt⟩ := h
  unfold wireBytes
  cases hs : reg.size <;> rw [hs] at hlt <;> simp only [RegSize.bytes] at hlt ⊢
  case one =>
    have hbyte : (BitVec.ofNat 8 raw.toNat).toNat = raw.toNat := by simp only [BitVec.toNat_ofNat]; omega
    simpa [rawOf] using hbyte
  case two => simpa [rawOf, List.range_succ] using le16_ofNat_div raw.toNat (by omega)

/-- A raw value has a byte form exactly where it fits (R41). -/
theorem bytesOf_eq_some_iff {reg : RegDesc} {raw : Int} {bs : List Byte} :
    bytesOf raw reg.size = some bs ↔ Fits reg raw ∧ wireBytes reg raw = bs := by
  by_cases h : Fits reg raw
  · rw [bytesOf_of_fits h, Option.some.injEq, and_iff_right h]
  · simp only [bytesOf_of_not_fits h, reduceCtorEq, h, false_and]

/-- Every size is the size of a register, so that the laws of a register's byte form speak of every size. -/
theorem exists_regDesc_of_size (size : RegSize) : ∃ reg : RegDesc, reg.size = size :=
  ⟨{ name := [], offset := 0#8, size, access := .ro, min := none, max := none, type := .rdt }, rfl⟩

/-- Settles O58: the byte form is `wireBytes`, given exactly where the value fits, and `rawOf` composes it back; the
two compositions are read off their definition. -/
theorem byteFormComposesBack : Obligations.ByteFormComposesBack := by
  intro raw size
  obtain ⟨reg, rfl⟩ := exists_regDesc_of_size size
  refine ⟨fun bs hbs => ?_, ?_, fun _ _ => rfl, fun _ => rfl⟩
  · obtain ⟨hfits, rfl⟩ := bytesOf_eq_some_iff.mp hbs
    exact ⟨length_wireBytes reg raw, by simpa [rawOf_wireBytes hfits] using hfits.1⟩
  · simp [Option.isSome_iff_exists, bytesOf_eq_some_iff]

end Sys2Proof.Machine

/-! SUPPORT. The statements on encodings: decoding and encoding of the host's operations, the header rows, the selectors
and the frames of R60 as they arrive (30_encoding.md). -/

namespace Sys2Proof

/-! ## A wire frame decodes to its instruction -/

theorem frameId_iff {id : Byte} : frameId id = true ↔ id ≠ 0xFF#8 := decide_eq_true_iff

theorem frameData_iff {data : List Byte} : frameData data = true ↔ data.length + 1 ≤ 253 :=
  decide_eq_true_iff

theorem syncBlocks_iff {bytesPer : Byte} {blocks : List (Byte × List Byte)} :
    syncBlocks bytesPer blocks = true ↔
      (∀ b ∈ blocks, b.2.length = bytesPer.toNat) ∧ 2 + blocks.length * (bytesPer.toNat + 1) ≤ 253 := by
  simp only [syncBlocks, Bool.and_eq_true, List.all_eq_true, decide_eq_true_iff]
  rfl

theorem statusShape_iff {pad : Nat} {id len err : Byte} {params : List Byte} :
    statusShape pad id len err params = true ↔
      params.length = len.toNat - 2 ∧ (0 < pad ∨ commandLike id len err = false) := by
  simp [statusShape]

/-- The `len` byte of at most 253 parameters does not wrap (R62). -/
theorem toNat_lenByte {n : Nat} (h : n ≤ 253) : (BitVec.ofNat 8 (n + 2)).toNat = n + 2 := by
  rw [BitVec.toNat_ofNat]; omega

/-- A frame of a command without parameters: PING, ACTION and RESET. -/
theorem decode_bareFrame {c : Cmd} {id : Byte} {i : Instr} (rest : List Byte) (hid : frameId id = true)
    (hc : c = .ping ∨ c = .action ∨ c = .reset)
    (hget : ∀ len bs, getCommand c id len bs = gotten i bs) :
    decode (putCommand c id [] ++ rest) = .ok (i, rest) := by
  have hsel : c.selects (headerWord id (BitVec.ofNat 8 (([] : List Byte).length + 2)) c.code) = true := by
    rcases hc with rfl | rfl | rfl <;> exact (selects_iff ..).mpr ⟨rfl, rfl⟩
  rw [decode_putCommand rest (frameId_iff.mp hid) hsel, hget, List.nil_append, gotten]

/-- A frame of a command that carries data: WRITE and DEFERRED_WRITE. Its `len` announces the data (R66). -/
theorem decode_dataFrame {c : Cmd} {id offset : Byte} {data : List Byte} {mk : Byte → List Byte → Instr}
    (rest : List Byte) (h : (frameId id && frameData data) = true) (hc : c = .write ∨ c = .deferredWrite)
    (hget : ∀ len bs, getCommand c id len bs =
      bindGot (getByte bs) fun offset bs => bindGot (getBytes (len.toNat - 3) bs) fun data bs =>
        gotten (mk offset data) bs) :
    decode (putCommand c id (offset :: data) ++ rest) = .ok (mk offset data, rest) := by
  obtain ⟨hid, hdata⟩ := Bool.and_eq_true_iff.mp h
  have hsel (len : Byte) : c.selects (headerWord id len c.code) = true := by
    rcases hc with rfl | rfl <;> exact (selects_iff ..).mpr ⟨rfl, trivial⟩
  have hlen : data.length = (BitVec.ofNat 8 ((offset :: data).length + 2)).toNat - 3 := by
    rw [List.length_cons, toNat_lenByte (frameData_iff.mp hdata)]; omega
  rw [decode_putCommand rest (frameId_iff.mp hid) (hsel _), hget, List.cons_append, getByte_cons, bindGot_ok,
    getBytes_of_length rest hlen, bindGot_ok, gotten]

theorem decode_frameRead {id : Byte} (offset length : Byte) (rest : List Byte) (hid : frameId id = true) :
    decode (putCommand .read id [offset, length] ++ rest) = .ok (.frameRead id offset length, rest) :=
  decode_putCommand rest (frameId_iff.mp hid) ((selects_iff ..).mpr ⟨rfl, rfl⟩)

/-- The `len` of a SYNC_WRITE frame gives the number of its blocks back (R67). -/
theorem decode_frameSyncWrite {bytesPer : Byte} {blocks : List (Byte × List Byte)} (start : Byte) (rest : List Byte)
    (h : syncBlocks bytesPer blocks = true) :
    decode (putCommand .syncWrite Config.idBroadcast (start :: bytesPer :: blocks.flatMap putBlock) ++ rest) =
      .ok (.frameSyncWrite start bytesPer blocks, rest) := by
  obtain ⟨hblocks, hsize⟩ := syncBlocks_iff.mp h
  have hcount : (start :: bytesPer :: blocks.flatMap putBlock).length = blocks.length * (bytesPer.toNat + 1) + 2 := by
    simp [length_flatMap_putBlock hblocks]
  have hlen : (BitVec.ofNat 8 ((start :: bytesPer :: blocks.flatMap putBlock).length + 2)).toNat - 4 =
      blocks.length * (bytesPer.toNat + 1) := by
    rw [hcount, toNat_lenByte (by omega)]; omega
  have hmany := getMany_flatMap rest fun b hb rest => getBlock_putBlock rest (hblocks b hb)
  rw [decode_putCommand rest (by decide) ((selects_iff ..).mpr ⟨rfl, rfl⟩)]
  simp only [getCommand, List.cons_append, getByte_cons, bindGot_ok, hlen, Nat.mul_mod_left, if_true,
    Nat.mul_div_cancel _ (Nat.succ_pos _), hmany, gotten]

/-- A received frame is told from a command frame by its padding or its header (R65, R70). -/
theorem decode_frameStatus {pad : Nat} {id len err : Byte} {params : List Byte} (checksum : Byte) (rest : List Byte)
    (h : (frameId id && statusShape pad id len err params) = true) :
    decode (encode (.frameStatus pad id len err params checksum) ++ rest) =
      .ok (.frameStatus pad id len err params checksum, rest) := by
  obtain ⟨hid, hshape⟩ := Bool.and_eq_true_iff.mp h
  obtain ⟨hlen, hdirection⟩ := statusShape_iff.mp hshape
  have hskip := skipPad_replicate pad (len :: err :: (params ++ checksum :: rest)) (frameId_iff.mp hid)
  have hcmd : (if pad = 0 then headerCmd (headerWord id len err) else none) = none := by
    rcases hdirection with hpad | hheader
    · rw [if_neg (by omega)]
    · rw [headerCmd_of_not_commandLike hheader, ite_self]
  simp [encode, decode_frame, getFrame, hskip, hcmd, getStatus, getBytes_of_length _ hlen, gotten]

/-! ## A host operation decodes to its instruction -/

/-- A selector with one operand field, read back as the field is. -/
theorem decode_operand {α : Type} {get : List Byte → Got α} {mk : α → Instr} {sel : Byte} {put rest : List Byte}
    {a : α} (hsel : sel ≠ 0xFF#8) (hop : ∀ bs, getOp sel bs = bindGot (get bs) fun a bs => gotten (mk a) bs)
    (hget : get (put ++ rest) = .ok (a, rest)) : decode (sel :: put ++ rest) = .ok (mk a, rest) := by
  rw [List.cons_append, decode_op _ hsel, hop, hget, bindGot_ok, gotten]

/-- Settles O9: one case for each kind of operand; a frame is found again by its header row, and an operand field by the
law of its reader. -/
theorem decodeUndoesEncode : Obligations.DecodeUndoesEncode := by
  intro i rest h
  cases i
  case framePing | frameAction | frameReset => exact decode_bareFrame rest h (by simp) fun _ _ => rfl
  case frameRead => exact decode_frameRead _ _ rest h
  case frameWrite | frameDeferredWrite => exact decode_dataFrame rest h (by simp) fun _ _ => rfl
  case frameSyncWrite => exact decode_frameSyncWrite _ rest h
  case frameStatus => exact decode_frameStatus _ rest h
  case ping | read | action | reset | decStep | readStatusPacket | decReset => exact decode_op _ (by decide)
  case rawToValueBaudRate | rawToValueRDT | rawToValueAngle | rawToValueVoltage | rawToValueTemperature |
      rawToValueAngularVelocity | rawToValueLoad | rawToValueOnOff | rawToValueStatusReturnLevel | rawToValueAlarm |
      rawToStrBaudRate | rawToStrRDT | rawToStrAngle | rawToStrVoltage | rawToStrTemperature |
      rawToStrAngularVelocity | rawToStrLoad | rawToStrOnOff | rawToStrStatusReturnLevel | rawToStrAlarm =>
    exact decode_operand (by decide) (fun _ => rfl) (getNat_putNat rest (of_decide_eq_true h))
  case valueToRawBaudRate | valueToRawRDT | valueToRawAngle | valueToRawVoltage | valueToRawTemperature |
      valueToRawAngularVelocity =>
    exact decode_operand (by decide) (fun _ => rfl) (getRat_putRat rest h)
  case strToRawBaudRate | strToRawRDT | strToRawAngle | strToRawVoltage | strToRawTemperature |
      strToRawAngularVelocity | strToRawLoad | strToRawOnOff | strToRawStatusReturnLevel | strToRawAlarm | cks =>
    exact decode_operand (by decide) (fun _ => rfl) (getData_putData rest h)
  case valueToRawLoad => exact decode_operand (by decide) (fun _ => rfl) (getLoad_putLoad rest h)
  case valueToRawOnOff => exact decode_operand (by decide) (fun _ => rfl) (getCode_cons rest (onOffOfCode_code _))
  case valueToRawStatusReturnLevel =>
    exact decode_operand (by decide) (fun _ => rfl) (getCode_cons rest (levelOfCode_code _))
  case valueToRawAlarm => simp [encode, decode_op, getOp, gotten]
  case write | writeDeferred | sendCommand =>
    simp [encode, decode_op, getOp, getData_putData rest h, gotten]
  case readReg => simp [encode, decode_op, getOp, getReg_putReg rest h, gotten]
  case writeReg | writeRegDeferred | checkRange =>
    obtain ⟨hreg, hraw⟩ := Bool.and_eq_true_iff.mp h
    simp [encode, decode_op, getOp, getReg_putReg _ hreg, getInt_putInt rest hraw, gotten]
  case syncWrite =>
    simp only [Instr.wf, Bool.and_eq_true, List.all_eq_true] at h
    obtain ⟨⟨hids, hrun, hregs⟩, hvalues, hlanes⟩ := h
    have hreadRun := fun rest => getSeq_putSeq rest hrun fun r hr rest => getReg_putReg rest (hregs r hr)
    have hreadValues := getSeq_putSeq rest hvalues fun vs hvs rest =>
      getSeq_putSeq rest (hlanes vs hvs).1 fun v hv rest => getInt_putInt rest ((hlanes vs hvs).2 v hv)
    simp [encode, decode_op, getOp, getData_putData _ hids, hreadRun, hreadValues, gotten]

/-- Settles O12: each worked encoding is the encoding of its instruction, so it decodes to it. -/
theorem specWordsDecode : Obligations.SpecWordsDecode :=
  ⟨decodeUndoesEncode (.framePing 15#8) [] rfl, decodeUndoesEncode (.frameRead 1#8 0#8 3#8) [] rfl,
   decodeUndoesEncode (.frameAction 0xFE#8) [] rfl,
   decodeUndoesEncode (.frameStatus 0 1#8 5#8 0#8 [0x0C#8, 0x00#8, 0x16#8] 0xD7#8) [] rfl,
   decodeUndoesEncode (.ping 15#8) [] rfl, decodeUndoesEncode .readStatusPacket [] rfl,
   decodeUndoesEncode (.decStep 0x37#8) [] rfl⟩

/-! ## What decodes is well formed -/

/-- The decoder reads a frame after the preamble and an operation elsewhere. -/
theorem decode_eq_ok {bs rest : List Byte} {i : Instr} (h : decode bs = .ok (i, rest)) :
    (∃ body, getFrame body = .ok (i, rest)) ∨ ∃ sel body, getOp sel body = .ok (i, rest) := by
  unfold decode at h
  split at h
  · cases h
  · split at h
    · exact .inr ⟨_, _, h⟩
    · split at h
      · exact .inl ⟨_, h⟩
      · exact .inr ⟨_, _, h⟩

/-- The data that a `len` byte announces is at most 252 bytes. -/
theorem frameData_of_getBytes {len : Byte} {bs data rest : List Byte}
    (h : getBytes (len.toNat - 3) bs = .ok (data, rest)) : frameData data = true := by
  have := len.isLt
  rw [frameData_iff, length_of_getBytes h]
  omega

theorem syncBlocks_of_getMany {len bytesPer : Byte} {bs rest : List Byte} {blocks : List (Byte × List Byte)}
    (h : getMany (getBlock bytesPer.toNat) ((len.toNat - 4) / (bytesPer.toNat + 1)) bs = .ok (blocks, rest)) :
    syncBlocks bytesPer blocks = true := by
  obtain ⟨hcount, hblocks⟩ := all_of_getMany length_of_getBlock h
  have hsize := Nat.div_mul_le_self (len.toNat - 4) (bytesPer.toNat + 1)
  have := len.isLt
  exact syncBlocks_iff.mpr ⟨hblocks, by rw [hcount]; omega⟩

theorem wf_of_getCommand {c : Cmd} {id len : Byte} {bs rest : List Byte} {i : Instr} (hid : frameId id = true)
    (h : getCommand c id len bs = .ok (i, rest)) : i.wf = true := by
  cases c <;> simp only [getCommand, bindGot_eq_ok_iff, gotten_eq_ok_iff] at h
  case ping | action | reset => obtain ⟨rfl, -⟩ := h; exact hid
  case read => obtain ⟨offset, _, -, length, _, -, rfl, -⟩ := h; exact hid
  case write | deferredWrite =>
    obtain ⟨offset, _, -, data, _, hdata, rfl, -⟩ := h
    exact Bool.and_eq_true_iff.mpr ⟨hid, frameData_of_getBytes hdata⟩
  case syncWrite =>
    obtain ⟨start, _, -, bytesPer, _, -, h⟩ := h
    split at h
    · obtain ⟨blocks, _, hblocks, h⟩ := bindGot_eq_ok h
      obtain ⟨rfl, -⟩ := gotten_eq_ok h
      exact syncBlocks_of_getMany hblocks
    · cases h

/-- A frame read as STATUS has padding or a header that is no command's (R64, R65). -/
theorem wf_of_getFrame {bs rest : List Byte} {i : Instr} (h : getFrame bs = .ok (i, rest)) : i.wf = true := by
  unfold getFrame at h
  split at h
  · next id len cmd body hskip =>
    have hid : frameId id = true := frameId_iff.mpr (skipPad_ne hskip)
    split at h
    · exact wf_of_getCommand hid h
    · next hcmd =>
      obtain ⟨params, _, hparams, h⟩ := bindGot_eq_ok h
      obtain ⟨checksum, _, -, h⟩ := bindGot_eq_ok h
      obtain ⟨rfl, -⟩ := gotten_eq_ok h
      refine Bool.and_eq_true_iff.mpr ⟨hid, statusShape_iff.mpr ⟨length_of_getBytes hparams, ?_⟩⟩
      by_contra hdirection
      obtain ⟨hpad, hlike⟩ := not_or.mp hdirection
      obtain ⟨c, hc⟩ := commandLike_iff.mp (Bool.not_eq_false _ ▸ hlike)
      rw [if_pos (by omega), headerCmd_of_selects hc] at hcmd
      cases hcmd
  · cases h

/-- The operands of an operation fit their fields: its selectors in the order of `getOp`. -/
theorem wf_of_getOp {sel : Byte} {bs rest : List Byte} {i : Instr} (h : getOp sel bs = .ok (i, rest)) :
    i.wf = true := by
  unfold getOp at h
  split at h <;> simp only [bindGot_eq_ok_iff, gotten_eq_ok_iff, reduceCtorEq] at h
  -- `ping`, `read`, `write`, `action`, `reset`
  · obtain ⟨id, _, -, rfl, -⟩ := h; rfl
  · obtain ⟨id, _, -, offset, _, -, length, _, -, rfl, -⟩ := h; rfl
  iterate 2
    obtain ⟨id, _, -, offset, _, -, data, _, hdata, rfl, -⟩ := h
    exact fits_of_getData hdata
  iterate 2 obtain ⟨id, _, -, rfl, -⟩ := h; rfl
  -- `read_reg`, `write_reg`, `sync_write`
  · obtain ⟨id, _, -, reg, _, hreg, rfl, -⟩ := h
    exact fits_of_getReg hreg
  iterate 2
    obtain ⟨id, _, -, reg, _, hreg, raw, _, hraw, rfl, -⟩ := h
    exact Bool.and_eq_true_iff.mpr ⟨fits_of_getReg hreg, fits_of_getInt hraw⟩
  · obtain ⟨ids, _, hids, run, _, hrun, values, _, hvalues, rfl, -⟩ := h
    have hrun := all_of_getSeq fits_of_getReg hrun
    have hvalues := all_of_getSeq (all_of_getSeq fits_of_getInt) hvalues
    simpa only [Instr.wf, Bool.and_eq_true, List.all_eq_true] using ⟨⟨fits_of_getData hids, hrun⟩, hvalues⟩
  -- `send_command`, `read_status_packet`, `dec_step`, `cks`, `dec_reset`, `check_range`
  · obtain ⟨id, _, -, command, _, -, params, _, hparams, rfl, -⟩ := h
    exact fits_of_getData hparams
  · obtain ⟨rfl, -⟩ := h; rfl
  · obtain ⟨b, _, -, rfl, -⟩ := h; rfl
  · obtain ⟨bytes, _, hbytes, rfl, -⟩ := h
    exact fits_of_getData hbytes
  · obtain ⟨rfl, -⟩ := h; rfl
  · obtain ⟨reg, _, hreg, raw, _, hraw, rfl, -⟩ := h
    exact Bool.and_eq_true_iff.mpr ⟨fits_of_getReg hreg, fits_of_getInt hraw⟩
  -- `raw_to_value`
  iterate 10
    obtain ⟨raw, _, hraw, rfl, -⟩ := h
    exact fits_of_getNat hraw
  -- `value_to_raw`
  iterate 6
    obtain ⟨value, _, hvalue, rfl, -⟩ := h
    exact fits_of_getRat hvalue
  · obtain ⟨value, _, hvalue, rfl, -⟩ := h
    exact fits_of_getLoad hvalue
  iterate 3 obtain ⟨value, _, -, rfl, -⟩ := h; rfl
  -- `raw_to_str`
  iterate 10
    obtain ⟨raw, _, hraw, rfl, -⟩ := h
    exact fits_of_getNat hraw
  -- `str_to_raw`
  iterate 10
    obtain ⟨text, _, htext, rfl, -⟩ := h
    exact fits_of_getData htext

/-- Settles O10: a frame and an operation each have the shape their readers check. -/
theorem decodedIsWellFormed : Obligations.DecodedIsWellFormed := by
  intro bs rest i h
  obtain ⟨body, h⟩ | ⟨sel, body, h⟩ := decode_eq_ok h
  · exact wf_of_getFrame h
  · exact wf_of_getOp h

/-! ## Header rows and selectors -/

theorem Cmd.code_injective : Function.Injective Cmd.code := by
  intro c d
  cases c <;> cases d <;> decide

/-- Every row of R70 fixes the last byte of the header word: it is the command's code. -/
theorem setWidth_of_selects {c : Cmd} {h : BitVec 40} (hsel : c.selects h = true) : h.setWidth 8 = c.code := by
  have hrow : (h &&& c.row.1).setWidth 8 = c.row.2.setWidth 8 := congrArg _ (beq_iff_eq.mp hsel)
  have hmask : c.row.1.setWidth 8 = BitVec.allOnes 8 := by cases c <;> rfl
  have hmatch : c.row.2.setWidth 8 = c.code := by cases c <;> rfl
  rwa [BitVec.setWidth_and, hmask, BitVec.and_allOnes, hmatch] at hrow

/-- Settles O11: rows that select one header have one code, its last byte. -/
theorem headerRowsNeverOverlap : Obligations.HeaderRowsNeverOverlap :=
  fun _ _ _ hc hd => Cmd.code_injective ((setWidth_of_selects hc).symm.trans (setWidth_of_selects hd))

/-- The selectors of R77. -/
def selectors : List Nat :=
  [0x01, 0x02, 0x03, 0x04, 0x05, 0x06, 0x12, 0x13, 0x14, 0x83, 0x20, 0x21, 0x22, 0x23, 0x24, 0x3F] ++
    [0x40, 0x50, 0x60, 0x70].flatMap fun base => (List.range 10).map (base + ·)

theorem getOp_of_unlisted {sel : Byte} (bs : List Byte) (h : sel.toNat ∉ selectors) :
    getOp sel bs = .error .unknownOperation := by
  unfold getOp
  split
  case h_57 => rfl
  all_goals next hsel => exact absurd (hsel ▸ by decide) h

/-- Outside a frame the operation is looked up by the first byte. -/
theorem decode_of_no_preamble {sel : Byte} {bs : List Byte} (h : ¬ (sel = 0xFF#8 ∧ bs.head? = some 0xFF#8)) :
    decode (sel :: bs) = getOp sel bs := by
  cases bs with
  | nil => rfl
  | cons b bs => exact if_neg (by simpa using h)

end Sys2Proof

namespace Sys2Proof.Machine

/-! ## Selectors the host may not offer -/

theorem step_of_unknownOperation {s : State} (hagent : nextAgent s = .host)
    (h : decode s.ports.hc = .error .unknownOperation) : step s = .refused .unknownOperation := by
  simp only [step, hagent, fetch, takeTurn_hc, h]

theorem not_mem_selectors {sel : Byte}
    (hsingle : sel ∉ [0x01#8, 0x02#8, 0x03#8, 0x04#8, 0x05#8, 0x06#8, 0x12#8, 0x13#8, 0x14#8, 0x83#8, 0x20#8, 0x21#8,
      0x22#8, 0x23#8, 0x24#8, 0x3F#8])
    (hcodec : ∀ k, k < 10 → sel ≠ BitVec.ofNat 8 (0x40 + k) ∧ sel ≠ BitVec.ofNat 8 (0x50 + k) ∧
      sel ≠ BitVec.ofNat 8 (0x60 + k) ∧ sel ≠ BitVec.ofNat 8 (0x70 + k)) : sel.toNat ∉ selectors := by
  intro hmem
  have hsel : BitVec.ofNat 8 sel.toNat = sel := by simp
  rcases List.mem_append.mp hmem with hmem | hmem
  · exact hsingle (hsel ▸ List.mem_map_of_mem (f := BitVec.ofNat 8) hmem)
  · obtain ⟨base, hbase, hmem⟩ := List.mem_flatMap.mp hmem
    obtain ⟨k, hk, heq⟩ := List.mem_map.mp hmem
    obtain ⟨hvalue, hraw, hstr, hparse⟩ := hcodec k (List.mem_range.mp hk)
    rw [← heq] at hsel
    simp only [List.mem_cons, List.not_mem_nil, or_false] at hbase
    rcases hbase with rfl | rfl | rfl | rfl <;> simp_all

/-- Settles O13: the lookup of an unlisted selector fails, and the step refuses by that name. -/
theorem unlistedSelectorIsRefused : Obligations.UnlistedSelectorIsRefused := by
  intro s sel bs hagent hhc hpreamble hsingle hcodec
  apply step_of_unknownOperation hagent
  rw [hhc, decode_of_no_preamble hpreamble, getOp_of_unlisted bs (not_mem_selectors hsingle hcodec)]

/-! ## A frame of R60 at the decoder -/

/-- A frame of R60 ends with the verdict of its checksum byte, its fields in the registers (R101 to R106). -/
theorem decBytes_statusBytes {d : DecRegs} {pad : Nat} {id len err : Byte} {params : List Byte} (c : Byte)
    (hd : d.state = .idle) (hid : id ≠ 0xFF#8) (hlen : params.length = len.toNat - 2) :
    decBytes (statusBytes pad id len err params c) d =
      (List.replicate (5 + pad + params.length) .notDone ++
        [if c = BitVec.ofNat 8 (255 - byteSum ([id, len, err] ++ params) % 256) then .none else .checksum],
       { state := .idle, id := id, length := len, cmd := err, params := params,
         sum := BitVec.ofNat 8 (byteSum ([id, len, err] ++ params) % 256) }) := by
  rw [statusBytes_eq, decBytes_append, decBytes_statusBody hd hid hlen]
  simp only [decBytes]
  rw [decByte_checksum rfl (by simp only; omega), ofNat_mod_256, not_ofNat_sum]

/-- A command frame is a frame of R60 without padding (R65). -/
theorem commandFrame_eq_goodStatus (id command : Byte) (params : List Byte) :
    commandFrame id command params = goodStatus 0 id (BitVec.ofNat 8 (params.length + 2)) command params := by
  simp [commandFrame, summedBytes, goodStatus, statusBytes, Config.preamble]

theorem exec_sendCommand {id command : Byte} {params : List Byte} {s : State} (hs : s.arb.phase = .idle)
    (hid : id ≠ 0xFF#8) (hlen : params.length ≤ 253) :
    exec (.sendCommand id command params) s =
      .next (delivered (.ok .unit) (sent .sendCommand id command params s)) := by
  rw [exec, execSendCommand, accept_of_idle hs, sendThen_of_valid hid hlen, transmit_eq_sent]
  rfl

/-- Settles O24: the burst is a frame of R60 whose checksum byte is right, so the decoder ends it with `NONE`. -/
theorem emittedFrameDecodesBack : Obligations.EmittedFrameDecodesBack := by
  intro s d id command params hs hd hid hlen
  have hlenByte : params.length = (BitVec.ofNat 8 (params.length + 2)).toNat - 2 := by
    rw [toNat_lenByte hlen, Nat.add_sub_cancel]
  refine ⟨_, commandFrame id command params, exec_sendCommand hs hid hlen, rfl, ?_⟩
  rw [commandFrame_eq_goodStatus, goodStatus, decBytes_statusBytes _ hd hid hlenByte]
  simp [statusBytes_eq]

/-! ## A STATUS frame at the block -/

/-- `read_status_packet` delivers the result of the frame as it is (R124). -/
theorem conclude_readStatusPacket {r : Result} {s : State} (h : s.arb.op = .readStatusPacket) :
    conclude r s = .next (ended r s) := by
  rw [conclude, h]
  cases r <;> rfl

theorem receiveSome_one {s : State} (h : s.arb.phase = .await) : receiveSome 1 s = receiveStep s := by
  simp only [receiveSome, h]
  cases receiveStep s <;> rfl

/-- A frame that arrives while nothing older is unread is pulled to its checksum byte, which ends the read (R124). -/
theorem exec_frameStatus_of_await {pad : Nat} {id len err : Byte} {params : List Byte} (c : Byte) {s : State}
    (hawait : s.arb.phase = .await) (hd : s.dec.state = .idle) (hrx : s.ports.rx = []) (hid : id ≠ 0xFF#8)
    (hlen : params.length = len.toNat - 2) :
    exec (.frameStatus pad id len err params c) s =
      receiveStep (consumed (statusBody pad id len err params) [.byte c] s) := by
  have hbytes : (arrive (statusBytes pad id len err params c) s).ports.rx =
      (statusBody pad id len err params).map .byte ++ [.byte c] := by
    simp [hrx, statusBytes_eq]
  have hquiet : ∀ st ∈ (decBytes (statusBody pad id len err params) s.dec).1, st = .notDone := by
    rw [decBytes_statusBody hd hid hlen]
    exact fun _ => List.eq_of_mem_replicate
  rw [exec, execFrameStatus, hbytes, List.length_append, List.length_map]
  exact (receiveSome_of_notDone (s := arrive _ s) 1 [.byte c] hawait hbytes hquiet).trans (receiveSome_one hawait)

/-- The frame's bytes up to the checksum leave its fields in the decoder registers (R101 to R106). -/
theorem consumed_statusBody {pad : Nat} {id len err : Byte} {params : List Byte} {s : State} (rest : List RxEvent)
    (hd : s.dec.state = .idle) (hid : id ≠ 0xFF#8) (hlen : params.length = len.toNat - 2) :
    consumed (statusBody pad id len err params) rest s =
      { s with
        dec := { state := .cmdRcvd, id := id, length := len, cmd := err, params := params,
                 sum := BitVec.ofNat 8 (byteSum ([id, len, err] ++ params) % 256) }
        ports := { s.ports with rx := rest, pulls := s.ports.pulls + (5 + pad + params.length) } } := by
  simp only [consumed, decBytes_statusBody hd hid hlen, length_statusBody]

/-- Settles O34: outside a transaction nothing is pulled; in one, the body leaves the fields in the registers and the
checksum byte ends the read. -/
theorem statusFrameArrives : Obligations.StatusFrameArrives := by
  intro pad id len err params c s
  refine ⟨fun hidle => receiveSome_of_idle hidle, fun hawait hop hd hrx hid hlen => ?_⟩
  rw [exec_frameStatus_of_await c hawait hd hrx hid hlen, consumed_statusBody _ hd hid hlen,
    receiveStep_of_checksumByte rfl rfl (by simp only; omega), conclude_readStatusPacket (by exact hop)]
  have hpulls : s.ports.pulls + (5 + pad + params.length) + 1 = s.ports.pulls + (6 + pad + params.length) := by omega
  simp only [BitVec.toNat_ofNat, Nat.mod_mod, frameResult, DecRegs.frame, ne_eq, ite_not, hrx, hpulls]

end Sys2Proof.Machine

/-! SUPPORT. The statements on the checksum (40_checksum.md): the function, the sum of an emitted frame, and the
detection of a single-bit error. -/

namespace Sys2Proof.Machine

/-! ## The checksum function -/

/-- Settles O16: the answer is the model's `cks`, which is the integer form of R90 (`cks_eq`). -/
theorem cksDeliversChecksum : Obligations.CksDeliversChecksum := by
  intro bytes s
  rw [exec, execCks, cks_eq, answer, deliver_eq_delivered]

/-! ## The sum of an emitted frame -/

/-- Bytes followed by their checksum sum to 0xFF (R92). -/
theorem byteSum_append_checksum (bs : List Byte) :
    byteSum (bs ++ [BitVec.ofNat 8 (255 - byteSum bs % 256)]) % 256 = 255 := by
  simp only [byteSum_append, byteSum_cons, byteSum_nil, BitVec.toNat_ofNat]
  omega

/-- After its preamble a command frame is the summed bytes and their checksum (R60, R90). -/
theorem IsCommandFrame.byteSum_drop_two {burst : List Byte} (h : IsCommandFrame burst) :
    byteSum (burst.drop 2) % 256 = 255 := by
  obtain ⟨id, command, params, -, -, rfl⟩ := h
  exact byteSum_append_checksum (summedBytes id command params)

/-- A move sends nothing, or one whole command frame as a burst (R121). -/
theorem Moved.ports_tx {s t : State} (h : Moved s t) :
    t.ports.tx = s.ports.tx ∨ ∃ burst, IsCommandFrame burst ∧ t.ports.tx = s.ports.tx ++ [burst] := by
  cases h with
  | answered r h => exact .inl (h ▸ rfl)
  | rejected op e hs he h => exact .inl (h ▸ rfl)
  | sentOnly op id command params hs hid hlen h => exact .inr ⟨_, ⟨id, command, params, hid, hlen, rfl⟩, h ▸ rfl⟩
  | sentAwaiting op id command params hs hop hid hlen h =>
    exact .inr ⟨_, ⟨id, command, params, hid, hlen, rfl⟩, h ▸ rfl⟩
  | readStarted hs h => exact .inl (h ▸ rfl)
  | decoder d r hs hd h => exact .inl (h ▸ rfl)
  | arrived bs h =>
    rcases h with rfl | ⟨-, hread⟩
    · exact .inl rfl
    · exact .inl hread.ports_tx

/-- A step sends nothing, or one whole command frame as a burst. -/
theorem step_ports_tx {s t : State} (h : step s = .next t) :
    t.ports.tx = s.ports.tx ∨ ∃ burst, IsCommandFrame burst ∧ t.ports.tx = s.ports.tx ++ [burst] := by
  rcases step_next h with rfl | ⟨-, rest, hmoved⟩ | ⟨-, -, hread⟩
  · exact .inl rfl
  · exact hmoved.ports_tx
  · exact .inl hread.ports_tx

/-- Settles O6: the burst a step appends is a command frame, and a command frame has that sum. -/
theorem everyBurstSumsToFF : Obligations.EveryBurstSumsToFF := by
  intro s t burst hstep htx
  rcases step_ports_tx hstep with hsame | ⟨sentBurst, hframe, hsent⟩
  · exact absurd (htx.symm.trans hsame) (by simp)
  · have hburst : sentBurst = burst := by simpa [htx] using hsent.symm
    exact hburst ▸ hframe.byteSum_drop_two

/-! ## Single-bit errors -/

/-- Changing one byte changes the checksum: the sum changes by less than 256 (R91, R93). -/
theorem cks_ne_of_ne {a b : Byte} (p q : List Byte) (h : a ≠ b) : cks (p ++ a :: q) ≠ cks (p ++ b :: q) := by
  intro heq
  have hcks : 255 - (byteSum p + (a.toNat + byteSum q)) % 256 = 255 - (byteSum p + (b.toNat + byteSum q)) % 256 := by
    simpa [cks, sumBytes_eq, ← BitVec.toNat_inj] using heq
  exact h (BitVec.eq_of_toNat_eq (by omega))

/-- A flipped bit makes another byte. -/
theorem xor_bit_ne {k : Nat} (hk : k < 8) (b : Byte) : b ^^^ BitVec.ofNat 8 (2 ^ k) ≠ b := by
  have hbit : BitVec.ofNat 8 (2 ^ k) ≠ 0#8 := by
    revert k
    decide
  intro h
  exact hbit (by simpa using h)

/-- A frame whose checksum byte is not the checksum of its bytes ends with `CHECKSUM` (R106). -/
theorem getLast?_decBytes_of_ne_cks {d : DecRegs} {pad : Nat} {id len cmd : Byte} {params : List Byte} {c : Byte}
    (hd : d.state = .idle) (hid : id ≠ 0xFF#8) (hlen : params.length = len.toNat - 2)
    (hc : c ≠ cks ([id, len, cmd] ++ params)) :
    (decBytes (statusBytes pad id len cmd params c) d).1.getLast? = some .checksum := by
  rw [decBytes_statusBytes c hd hid hlen, ← cks_eq, if_neg hc]
  exact List.getLast?_concat

/-- Settles O26: the flipped byte is one of those the checksum covers, so the checksum of the frame received is not
the byte sent; or it is the checksum byte itself. -/
theorem singleBitErrorIsDetected : Obligations.SingleBitErrorIsDetected := by
  intro d pad id len cmd params k hd hid hk hlen
  simp only [← cks_eq]
  refine ⟨fun p q b hparams => ?_, fun hflip => ?_, ?_, ?_⟩
  · subst hparams
    exact getLast?_decBytes_of_ne_cks hd hid (by simpa using hlen)
      (cks_ne_of_ne ([id, len, cmd] ++ p) q (xor_bit_ne hk b).symm)
  · exact getLast?_decBytes_of_ne_cks hd hflip hlen (cks_ne_of_ne [] (len :: cmd :: params) (xor_bit_ne hk id).symm)
  · exact getLast?_decBytes_of_ne_cks hd hid hlen (cks_ne_of_ne [id, len] params (xor_bit_ne hk cmd).symm)
  · exact getLast?_decBytes_of_ne_cks hd hid hlen (xor_bit_ne hk _)

end Sys2Proof.Machine

/-! SUPPORT. The statements on the packet decoder (41_decoder.md): its step in each state, whole frames, streams without
a preamble, and padding while a status frame is awaited. -/

namespace Sys2Proof.Machine

/-! ## The step in each state -/

theorem decByte_preamble_of_idle {d : DecRegs} (h : d.state = .idle) :
    decByte 0xFF#8 d = (.notDone, { d with id := 0#8, length := 0#8, params := [], state := .firstFF }) :=
  decByte_of_idle h

theorem decByte_preamble_of_firstFF {d : DecRegs} (h : d.state = .firstFF) :
    decByte 0xFF#8 d = (.notDone, { d with state := .secondFF }) :=
  decByte_of_firstFF h

theorem decByte_preamble_of_secondFF {d : DecRegs} (h : d.state = .secondFF) : decByte 0xFF#8 d = (.notDone, d) := by
  rw [decByte_of_secondFF h, decSecondFF, Config.preamble, if_pos rfl, ← h]

theorem decByte_id_of_secondFF {b : Byte} {d : DecRegs} (h : d.state = .secondFF) (hb : b ≠ 0xFF#8) :
    decByte b d = (.notDone, { d with id := b, sum := b, state := .idRcvd }) := by
  rw [decByte_of_secondFF h, decSecondFF, Config.preamble, if_neg hb]

/-- A stand-alone `dec_step` delivers the status of the byte and moves the decoder only (R100). -/
theorem exec_decStep {b : Byte} {s : State} {st : DecStatus} {d : DecRegs} (hs : s.arb.phase = .idle)
    (h : decByte b s.dec = (st, d)) :
    exec (.decStep b) s = .next (delivered (.ok (.status st)) { s with dec := d }) := by
  rw [exec, execDecStep, whenIdle_of_idle hs, h]
  rfl

/-- Settles O17: R101 is the decoder's clause for `IDLE`. -/
theorem decStepInIdle : Obligations.DecStepInIdle :=
  fun _ _ hs hd => exec_decStep hs (decByte_of_idle hd)

/-- Settles O18: R102 is the decoder's clause for `FIRST_FF`. -/
theorem decStepInFirstFF : Obligations.DecStepInFirstFF :=
  fun _ _ hs hd => exec_decStep hs (decByte_of_firstFF hd)

/-- Settles O19: padding writes the state it finds, and any other byte is the id (R103). -/
theorem decStepInSecondFF : Obligations.DecStepInSecondFF := by
  intro b s hs hd
  apply exec_decStep hs
  by_cases hb : b = 0xFF#8
  · rw [if_pos hb, hb, decByte_preamble_of_secondFF hd]
  · rw [if_neg hb, decByte_id_of_secondFF hd hb]

/-- Settles O20: the byte is stored by the clause of its state, and the sum of bytes is the sum modulo 256. -/
theorem decStepInIdAndLengthRcvd : Obligations.DecStepInIdAndLengthRcvd := by
  intro b s hs
  rw [← add_eq_ofNat]
  exact ⟨fun hd => exec_decStep hs (decByte_of_idRcvd hd), fun hd => exec_decStep hs (decByte_of_lengthRcvd hd)⟩

/-- Settles O21: the two arms of R106 are the checksum byte and a parameter byte. -/
theorem decStepInCmdRcvd : Obligations.DecStepInCmdRcvd := by
  intro b s hs hd
  simp only [← eq_not_iff, ← add_eq_ofNat]
  exact ⟨fun hlen => exec_decStep hs (decByte_checksum hd hlen), fun hlen => exec_decStep hs (decByte_param hd hlen)⟩

theorem exec_decReset {s : State} (hs : s.arb.phase = .idle) :
    exec .decReset s = .next (delivered (.ok .unit) (resetDecoder s)) := by
  rw [exec, execDecReset, whenIdle_of_idle hs, answer, deliver_eq_delivered]

theorem exec_readStatusPacket {s : State} (hs : s.arb.phase = .idle) :
    exec .readStatusPacket s = .next (startRead { s with arb := { s.arb with op := .readStatusPacket } }) := by
  rw [exec, execReadStatusPacket, accept_of_idle hs, awaitStatus]

/-- Settles O22: `dec_reset`, power-on and the start of a read all put `DecRegs.cleared` in the registers. -/
theorem decResetClearsDecoder : Obligations.DecResetClearsDecoder :=
  fun _ hs => ⟨exec_decReset hs, rfl, _, exec_readStatusPacket hs, startRead_dec _⟩

/-! ## A whole frame -/

/-- The verdict's comparison in the integers of R90: the complement is a byte. -/
theorem eq_ofNat_compl_iff (c : Byte) (n : Nat) : c = BitVec.ofNat 8 (255 - n % 256) ↔ c.toNat = 255 - n % 256 := by
  rw [← not_ofNat_sum, eq_not_iff, BitVec.toNat_ofNat]

/-- Settles O23: the frame is its body, during which nothing is completed, and the checksum byte, which gives the
verdict (`decBytes_statusBytes`). -/
theorem wholeFrameVerdict : Obligations.WholeFrameVerdict := by
  intro d pad id len cmd params c hd hid hlen
  have hbody : 2 + pad + 3 + (len.toNat - 2) = 5 + pad + params.length := by omega
  rw [hbody]
  constructor
  · rw [statusBytes_eq, List.length_append, length_statusBody, List.length_singleton]
  · rw [decBytes_statusBytes c hd hid hlen]
    simp only [eq_ofNat_compl_iff]

/-! ## A stream without a preamble -/

theorem noPairFF_cons_iff {b : Byte} {bs : List Byte} :
    noPairFF (b :: bs) = true ↔ (b = 0xFF#8 → bs.head? ≠ some 0xFF#8) ∧ noPairFF bs = true := by
  cases bs with
  | nil => simp [noPairFF]
  | cons c cs => simp [noPairFF, imp_iff_not_or]

/-- The framer has no preamble behind it, nor one that the next byte would complete (R109). -/
def BeforePreamble (bs : List Byte) (d : DecRegs) : Prop :=
  d.state = .idle ∨ (d.state = .firstFF ∧ bs.head? ≠ some 0xFF#8)

/-- A byte that is not the second of a pair completes no preamble (R101, R102). -/
theorem decByte_beforePreamble {b : Byte} {bs : List Byte} {d : DecRegs} (hb : b = 0xFF#8 → bs.head? ≠ some 0xFF#8)
    (h : BeforePreamble (b :: bs) d) : (decByte b d).1 = .notDone ∧ BeforePreamble bs (decByte b d).2 := by
  rcases h with hd | ⟨hd, hhead⟩
  · rw [decByte_of_idle hd]
    by_cases hff : b = 0xFF#8
    · exact ⟨rfl, .inr ⟨if_pos hff, hb hff⟩⟩
    · exact ⟨rfl, .inl (if_neg hff)⟩
  · rw [decByte_of_firstFF hd]
    have hff : b ≠ 0xFF#8 := fun hff => hhead (congrArg some hff)
    exact ⟨rfl, .inl (if_neg hff)⟩

/-- Settles O25: by induction on the stream, no byte completes a preamble. -/
theorem noVerdictWithoutPreamble : Obligations.NoVerdictWithoutPreamble := by
  intro bs
  induction bs with
  | nil => exact fun d _ hd => ⟨fun _ hst => absurd hst List.not_mem_nil, hd.imp_right And.left⟩
  | cons b bs ih =>
    intro d hbs hd
    obtain ⟨hb, hbs⟩ := noPairFF_cons_iff.mp hbs
    obtain ⟨hstatus, hnext⟩ := decByte_beforePreamble hb hd
    obtain ⟨hrest, hend⟩ := ih _ hbs hnext
    exact ⟨List.forall_mem_cons.mpr ⟨hstatus, hrest⟩, hend⟩

/-! ## Padding -/

/-- One 0xFF completes a preamble half seen, and more change nothing (R102, R103). -/
theorem decBytes_padding_of_firstFF (n : Nat) {d : DecRegs} (h : d.state = .firstFF) :
    decBytes (List.replicate (n + 1) 0xFF#8) d =
      (List.replicate (n + 1) .notDone, { d with state := .secondFF }) := by
  simp only [List.replicate_succ, decBytes, decByte_preamble_of_firstFF h,
    decBytes_padding n { d with state := .secondFF } rfl]

/-- Two 0xFF are a preamble, and more change nothing (R101 to R103). -/
theorem decBytes_padding_of_idle (n : Nat) {d : DecRegs} (h : d.state = .idle) :
    decBytes (List.replicate (n + 2) 0xFF#8) d =
      (List.replicate (n + 2) .notDone, { d with id := 0#8, length := 0#8, params := [], state := .secondFF }) := by
  rw [List.replicate_succ, decBytes, decByte_preamble_of_idle h, decBytes_padding_of_firstFF n rfl]
  rfl

/-- A serialised host pulls 0xFF bytes that complete nothing, one a step, and they move the decoder only (R124). -/
theorem steps_padding {s : State} {n : Nat} {rest : List RxEvent} {d : DecRegs} (hser : s.Serial)
    (hawait : s.arb.phase = .await) (hrx : s.ports.rx = List.replicate n (.byte 0xFF#8) ++ rest)
    (hdec : decBytes (List.replicate n 0xFF#8) s.dec = (List.replicate n .notDone, d)) :
    steps n s =
      .next { s with dec := d, ports := { s.ports with rx := rest, pulls := s.ports.pulls + n } } := by
  have hquiet : ∀ st ∈ (decBytes (List.replicate n 0xFF#8) s.dec).1, st = .notDone := by
    rw [hdec]
    exact fun _ => List.eq_of_mem_replicate
  have hrun := steps_of_notDone 0 rest hser hawait (by rw [hrx, List.map_replicate]) hquiet
  rwa [List.length_replicate, steps, consumed, hdec, List.length_replicate] at hrun

/-- Settles O33: in each state before the id the 0xFF bytes complete nothing and move the decoder as stated. -/
theorem paddingNeverEndsARead : Obligations.PaddingNeverEndsARead := by
  intro s n rest hser hawait hrx
  have run {d : DecRegs} := steps_padding (d := d) hser hawait hrx
  refine ⟨fun hd => run (decBytes_padding n s.dec hd), fun hd hn => run ?_, fun hd hn => run ?_, fun hd hn => run ?_⟩
  · obtain ⟨m, rfl⟩ := Nat.exists_eq_add_of_le' hn
    exact decBytes_padding_of_firstFF m hd
  · subst hn
    simp only [List.replicate_one, decBytes, decByte_preamble_of_idle hd]
  · obtain ⟨m, rfl⟩ := Nat.exists_eq_add_of_le' hn
    exact decBytes_padding_of_idle m hd

end Sys2Proof.Machine

/-! SUPPORT. The statements on the bus transport (42_transport.md): half duplex, busy operations, `send_command`, and
`read_status_packet` from its start through each receive event to its end. -/

namespace Sys2Proof.Machine

/-! ## Half duplex -/

theorem phase_ne_await_of_idle {s : State} (hidle : s.arb.phase = .idle) : s.arb.phase ≠ .await := by
  rw [hidle]
  exact Phase.noConfusion

/-- In `T_AWAIT` no move sends: an operation that sends was accepted in `T_IDLE` (R120, R131). -/
theorem Moved.ports_tx_of_await {s t : State} (h : Moved s t) (hawait : s.arb.phase = .await) :
    t.ports.tx = s.ports.tx := by
  cases h with
  | answered r h => subst h; rfl
  | rejected op e hs he h => subst h; rfl
  | sentOnly op id command params hs => exact absurd hawait (phase_ne_await_of_idle hs)
  | sentAwaiting op id command params hs => exact absurd hawait (phase_ne_await_of_idle hs)
  | readStarted hs h => subst h; rfl
  | decoder d r hs hd h => subst h; rfl
  | arrived bs h =>
    rcases h with rfl | ⟨-, hread⟩
    · rfl
    · exact hread.ports_tx

/-- In `T_IDLE` no move pulls: the start of a read awaits the first byte and arrived bytes wait (R123, R215). -/
theorem Moved.pulls_of_idle {s t : State} (h : Moved s t) (hidle : s.arb.phase = .idle) :
    t.ports.pulls = s.ports.pulls := by
  cases h with
  | arrived bs h =>
    rcases h with rfl | ⟨hawait, -⟩
    · rfl
    · exact absurd hawait (phase_ne_await_of_idle hidle)
  | _ => subst t; rfl

/-- Settles O5: the host's move sends in `T_IDLE` only, the wire's move pulls in `T_AWAIT` only and sends nothing, and
what a step sends is `step_ports_tx`. -/
theorem stepIsHalfDuplex : Obligations.StepIsHalfDuplex := by
  intro s t h
  refine ⟨fun hawait => ?_, fun hidle => ?_, step_ports_tx h⟩
  · rcases step_next h with rfl | ⟨-, rest, hmoved⟩ | ⟨-, -, hread⟩
    · rfl
    · exact hmoved.ports_tx_of_await hawait
    · exact hread.ports_tx
  · rcases step_next h with rfl | ⟨-, rest, hmoved⟩ | ⟨-, hawait, -⟩
    · rfl
    · exact hmoved.pulls_of_idle hidle
    · exact absurd hawait (phase_ne_await_of_idle hidle)

/-! ## Busy operations -/

/-- Settles O8: the operations of the wire go through `accept`, the stand-alone decoder operations through
`whenIdle`, and both refuse in `T_AWAIT`. -/
theorem busyOperationsAreRefused : Obligations.BusyOperationsAreRefused := by
  intro i s hi hawait
  cases i with
  | framePing | frameRead | frameWrite | frameDeferredWrite | frameAction | frameReset | frameSyncWrite | ping | read
  | write | writeDeferred | action | reset | readReg | writeReg | writeRegDeferred | sendCommand
  | readStatusPacket => exact accept_of_await hawait
  | syncWrite => rw [exec, execSyncWrite, accept_of_await hawait]
  | decStep => rw [exec, execDecStep, whenIdle_of_await hawait]
  | decReset => rw [exec, execDecReset, whenIdle_of_await hawait]
  | _ => nomatch hi

/-! ## `send_command` -/

/-- Settles O27: with a legal id and room for the parameters both checks of R122 pass. -/
theorem sendCommandEmitsFrame : Obligations.SendCommandEmitsFrame :=
  fun _ _ _ _ => exec_sendCommand

/-- Settles O28: each check of R122 ends the accepted operation, the id's first. -/
theorem sendCommandChecks : Obligations.SendCommandChecks := by
  intro id command params s hidle
  rw [exec, execSendCommand, accept_of_idle hidle]
  constructor
  · rintro rfl
    exact sendThen_of_invalid
  · intro hid hlong
    rw [sendThen_of_long hid hlong, raise_accepted hidle]

/-! ## `read_status_packet` -/

/-- Settles O30: the start of a read is `awaiting`. -/
theorem readStatusPacketStarts : Obligations.ReadStatusPacketStarts :=
  fun _ => exec_readStatusPacket

theorem receiveStep_of_noByte {rest : List RxEvent} {s : State} (hrx : s.ports.rx = .noByte :: rest) :
    receiveStep s = conclude (.err .timeout)
      { s with ports := { s.ports with rx := rest, pulls := s.ports.pulls + 1 } } := by
  rw [receiveStep, pull_of_cons hrx, receive]

theorem receiveStep_of_checksum {b : Byte} {rest : List RxEvent} {s : State} (hrx : s.ports.rx = .byte b :: rest)
    (hst : (decByte b s.dec).1 = .checksum) :
    receiveStep s = conclude (.err .checksumMismatch) (consumed [b] rest s) := by
  rw [receiveStep, pull_of_cons hrx]
  simp only [receive, hst]
  rfl

theorem receiveStep_of_none {b : Byte} {rest : List RxEvent} {s : State} (hrx : s.ports.rx = .byte b :: rest)
    (hst : (decByte b s.dec).1 = .none) :
    receiveStep s = conclude (frameResult (decByte b s.dec).2) (consumed [b] rest s) := by
  rw [receiveStep, pull_of_cons hrx]
  simp only [receive, hst]
  rfl

/-- Settles O31: under a serialised host the step is the receive event, each status has its arm of R124, and
`read_status_packet` delivers the result unshaped. -/
theorem receiveEventClassified : Obligations.ReceiveEventClassified := by
  intro s ev rest hser hawait hop hrx
  rw [step_of_await hser hawait]
  constructor
  · rintro rfl
    rw [receiveStep_of_noByte hrx, conclude_readStatusPacket (by exact hop)]
  · rintro b rfl
    refine ⟨receiveStep_of_notDone hrx, fun hst => ?_, fun hst hcmd => ?_, fun hst hcmd => ?_⟩
    · rw [receiveStep_of_checksum hrx hst]
      exact conclude_readStatusPacket hop
    · rw [receiveStep_of_none hrx hst, frameResult, if_neg hcmd]
      exact conclude_readStatusPacket hop
    · rw [receiveStep_of_none hrx hst, frameResult, if_pos hcmd]
      exact conclude_readStatusPacket hop

/-! ## The end of a read -/

/-- A pulled byte leaves the read open, or concludes it (R124). -/
theorem receiveStep_of_byte {b : Byte} {rest : List RxEvent} {s : State} (hrx : s.ports.rx = .byte b :: rest) :
    receiveStep s = .next (consumed [b] rest s) ∨ ∃ r, receiveStep s = conclude r (consumed [b] rest s) := by
  cases hst : (decByte b s.dec).1 with
  | notDone => exact .inl (receiveStep_of_notDone hrx hst)
  | checksum => exact .inr ⟨_, receiveStep_of_checksum hrx hst⟩
  | none => exact .inr ⟨_, receiveStep_of_none hrx hst⟩

/-- A step that concludes the read ends it, for the operation in progress (R124, R143). -/
theorem steps_one_of_conclude {s u : State} {r : Result} (hstep : step s = conclude r u) (hop : u.arb.op = s.arb.op) :
    (∃ t, steps 1 s = .next t ∧ t.arb.phase = .idle) ∨
      (steps 1 s = .refused .responseLengthMismatch ∧ ∃ size, s.arb.op = .readReg size) := by
  rw [steps_one, hstep, ← hop]
  exact conclude_ends r u

/-- Settles O32: by induction on the bytes before the first `NoByte`; each leaves the read open or ends it, and
`NoByte` ends it. -/
theorem readEndsByNoByte : Obligations.ReadEndsByNoByte := by
  intro s bytes rest hser hawait hrx
  induction bytes generalizing s with
  | nil =>
    have hstep := (step_of_await hser hawait).trans (receiveStep_of_noByte hrx)
    exact ⟨1, Nat.le_refl 1, steps_one_of_conclude hstep rfl⟩
  | cons b bytes ih =>
    rcases receiveStep_of_byte hrx with hopen | ⟨r, hend⟩
    · obtain ⟨n, hn, hends⟩ := ih (consumed [b] _ s) hser hawait rfl
      refine ⟨n + 1, Nat.succ_le_succ hn, ?_⟩
      rw [steps_succ_of_next ((step_of_await hser hawait).trans hopen)]
      exact hends
    · exact ⟨1, Nat.le_add_left 1 _, steps_one_of_conclude ((step_of_await hser hawait).trans hend) rfl⟩

end Sys2Proof.Machine

/-! SUPPORT. The statements on the device operations (43_device_ops.md): what each operation sends or refuses, the
validation of a register-level write, and the result of an awaited status frame. -/

namespace Sys2Proof.Machine

/-! ## An accepted operation that sends a command -/

section
variable {op : WireOp} {id command : Byte} {params : List Byte} {k : State → Out} {s : State}

theorem accept_sendThen_of_invalid (hs : s.arb.phase = .idle) :
    accept op (sendThen 0xFF#8 command params k) s = .refused .invalidId := by
  rw [accept_of_idle hs, sendThen_of_invalid]

theorem accept_sendThen_of_long (hs : s.arb.phase = .idle) (hid : id ≠ 0xFF#8) (hlen : 253 < params.length) :
    accept op (sendThen id command params k) s =
      .next (delivered (.err .tooMuchData) { s with arb := { s.arb with op := op } }) := by
  rw [accept_of_idle hs, sendThen_of_long hid hlen, raise_accepted hs]

theorem accept_sendThen_of_valid (hs : s.arb.phase = .idle) (hid : id ≠ 0xFF#8) (hlen : params.length ≤ 253) :
    accept op (sendThen id command params k) s = k (sent op id command params s) := by
  rw [accept_of_idle hs, sendThen_of_valid hid hlen, transmit_eq_sent]

theorem accept_sendThen_awaitUnlessBroadcast (hs : s.arb.phase = .idle) (hid : id ≠ 0xFF#8)
    (hlen : params.length ≤ 253) :
    accept op (sendThen id command params (awaitUnlessBroadcast id)) s =
      .next (sentUnlessBroadcast id (sent op id command params s)) := by
  rw [accept_sendThen_of_valid hs hid hlen, awaitUnlessBroadcast_eq]

end

/-! ## The validation of a register-level write -/

section
variable {op : WireOp} {reg : RegDesc} {raw : Int} {k : List Byte → State → Out} {s : State}

/-- A valid raw value goes on as its bytes (R146, R41). -/
theorem validated_of_valid (hbounds : InBounds reg raw) (hfits : Fits reg raw) :
    validated reg raw k s = k (wireBytes reg raw) s := by
  simp only [validated, rangeError_of_inBounds hbounds, bytesOf_of_fits hfits]

theorem accept_validated_of_valid (hs : s.arb.phase = .idle) (hbounds : InBounds reg raw) (hfits : Fits reg raw) :
    accept op (validated reg raw k) s = accept op (k (wireBytes reg raw)) s := by
  rw [accept_of_idle hs, accept_of_idle hs, validated_of_valid hbounds hfits]

theorem accept_validated_of_not_fits (hs : s.arb.phase = .idle) (hbounds : InBounds reg raw)
    (hfits : ¬ Fits reg raw) : accept op (validated reg raw k) s = .refused .rawDoesNotFit := by
  rw [accept_of_idle hs]
  simp only [validated, rangeError_of_inBounds hbounds, bytesOf_of_not_fits hfits]

theorem accept_validated_of_rangeError {e : HostError} (hs : s.arb.phase = .idle) (he : rangeError reg raw = some e) :
    accept op (validated reg raw k) s =
      .next (delivered (.err e) { s with arb := { s.arb with op := op } }) := by
  rw [accept_of_idle hs, ← raise_accepted hs]
  simp only [validated, he]

theorem length_wireBytes_le (reg : RegDesc) (raw : Int) : (wireBytes reg raw).length ≤ 252 := by
  rw [length_wireBytes]
  cases reg.size <;> decide

end

/-! ## What each operation sends or refuses -/

/-- Settles O29: every operation with a destination goes through `sendThen`, whose first check is the id's; a
register-level write reaches it once its value is valid. -/
theorem invalidIdIsRefused : Obligations.InvalidIdIsRefused := by
  intro command offset length data reg raw s hs
  have refused {op command params k} : accept op (sendThen 0xFF#8 command params k) s = .refused .invalidId :=
    accept_sendThen_of_invalid hs
  refine ⟨refused, refused, refused, refused, refused, refused, refused, refused, refused, refused, refused, refused,
    refused, refused, fun hbounds hfits => ?_⟩
  exact ⟨(accept_validated_of_valid hs hbounds hfits).trans refused,
    (accept_validated_of_valid hs hbounds hfits).trans refused⟩

theorem exec_ping {id : Byte} {s : State} (hs : s.arb.phase = .idle) (hid : id ≠ 0xFF#8) :
    exec (.ping id) s = .next (awaiting (sent .ping id 0x01#8 [] s)) :=
  accept_sendThen_of_valid hs hid (Nat.zero_le 253)

theorem exec_read {id offset length : Byte} {s : State} (hs : s.arb.phase = .idle) (hid : id ≠ 0xFF#8) :
    exec (.read id offset length) s = .next (awaiting (sent .read id 0x02#8 [offset, length] s)) :=
  accept_sendThen_of_valid hs hid (Nat.le_add_left 2 251)

/-- Settles O35: a PING or READ frame is the operation it stands for. -/
theorem pingAndReadSendAndAwait : Obligations.PingAndReadSendAndAwait :=
  fun _ _ _ _ hs hid => ⟨exec_ping hs hid, exec_ping hs hid, exec_read hs hid, exec_read hs hid⟩

/-- Settles O36: the parameters are one more than the data, so 252 data bytes are the most a frame takes. -/
theorem writeSendsAndAwaitsUnlessBroadcast : Obligations.WriteSendsAndAwaitsUnlessBroadcast := by
  intro id offset data s hs hid
  constructor
  · intro hlen
    have sends {op command} := accept_sendThen_awaitUnlessBroadcast (op := op) (command := command)
      (params := writeParams offset data) hs hid (Nat.succ_le_succ hlen)
    exact ⟨sends, sends, sends, sends⟩
  · intro hlen
    have raises {op command k} := accept_sendThen_of_long (op := op) (command := command)
      (params := writeParams offset data) (k := k) hs hid (Nat.succ_lt_succ hlen)
    exact ⟨raises, raises, raises, raises⟩

/-- Settles O37: both commands have no parameters; only the continuation after the emission differs. -/
theorem resetAndActionSend : Obligations.ResetAndActionSend := by
  intro id s hs hid
  have resets {command} := accept_sendThen_awaitUnlessBroadcast (op := .reset) (command := command) (params := [])
    hs hid (Nat.zero_le 253)
  have acts {command} := accept_sendThen_of_valid (op := .action) (command := command) (params := [])
    (k := reportDone) hs hid (Nat.zero_le 253)
  exact ⟨resets, resets, acts, acts⟩

/-- Settles O38: for each size, the second parameter is its number of bytes. -/
theorem readRegSendsOneRead : Obligations.ReadRegSendsOneRead := by
  rintro id ⟨name, offset, size, access, min, max, type⟩ s hs hid
  cases size with
  | one => exact accept_sendThen_of_valid hs hid (Nat.le_add_left 2 251)
  | two => exact accept_sendThen_of_valid hs hid (Nat.le_add_left 2 251)

/-- Settles O39: a valid value goes on as its bytes, one or two, which fit a frame. -/
theorem writeRegSendsTheBytes : Obligations.WriteRegSendsTheBytes := by
  intro id reg raw s hs hid hbounds hfits
  have sends {op command} := accept_sendThen_awaitUnlessBroadcast (op := op) (command := command)
    (params := writeParams reg.offset (wireBytes reg raw)) hs hid (Nat.succ_le_succ (length_wireBytes_le reg raw))
  exact ⟨(accept_validated_of_valid hs hbounds hfits).trans sends,
    (accept_validated_of_valid hs hbounds hfits).trans sends⟩

/-- Settles O40: the range check is the first of the validation, the byte form the second, and both come before
`sendThen` looks at the id. -/
theorem writeRegValidatesFirst : Obligations.WriteRegValidatesFirst := by
  intro id reg raw s hs
  constructor
  · intro hbounds
    obtain ⟨e, hfor, he⟩ := rangeError_of_not_inBounds hbounds
    exact ⟨e, hfor, accept_validated_of_rangeError hs he, accept_validated_of_rangeError hs he⟩
  · exact fun hbounds hfits =>
      ⟨accept_validated_of_not_fits hs hbounds hfits, accept_validated_of_not_fits hs hbounds hfits⟩

/-! ## The result of an awaited status frame -/

theorem conclude_of_shape {r r' : Result} {s : State} (h : shape s.arb.op r = .ok r') :
    conclude r s = .next (ended r' s) := by
  rw [conclude, h]
  rfl

/-- An error of the bus other than `Timeout` passes unchanged (R140). -/
theorem conclude_err {e : HostError} (s : State) (h : e ≠ .timeout) :
    conclude (.err e) s = .next (ended (.err e) s) :=
  conclude_of_shape (by rw [shape_err, if_neg fun hping => h hping.2])

theorem conclude_readReg_of_raw {size : RegSize} {f : Frame} {raw : Nat} {s : State} (hop : s.arb.op = .readReg size)
    (hraw : rawOf size f.params = some raw) :
    conclude (.ok (.frame f)) s = .next (ended (.ok (.rawInt raw)) s) := by
  apply conclude_of_shape
  simp only [hop, shape, hraw]

theorem conclude_readReg_of_mismatch {size : RegSize} {f : Frame} {s : State} (hop : s.arb.op = .readReg size)
    (hraw : rawOf size f.params = none) : conclude (.ok (.frame f)) s = .refused .responseLengthMismatch := by
  simp only [conclude, hop, shape, hraw]

/-- Bytes compose a raw value only in the number of the register's size (R40). -/
theorem length_of_rawOf_eq_some {size : RegSize} {bs : List Byte} {raw : Nat} (h : rawOf size bs = some raw) :
    bs.length = size.bytes := by
  unfold rawOf at h
  split at h
  · rfl
  · rfl
  · cases h

theorem rawOf_of_length_ne {size : RegSize} {bs : List Byte} (h : bs.length ≠ size.bytes) : rawOf size bs = none :=
  Option.eq_none_iff_forall_ne_some.mpr fun _ hraw => h (length_of_rawOf_eq_some hraw)

/-- Settles O41: the checksum byte concludes the read, with the error of R124 or the frame, which is shaped by the
operation in progress. -/
theorem completedFrameIsShaped : Obligations.CompletedFrameIsShaped := by
  intro s b rest hser hawait hrx hd hlen v
  rw [step_of_await hser hawait, receiveStep_of_checksumByte hrx hd hlen]
  refine ⟨fun hsum => ?_, fun hsum hcmd => ?_, fun hsum hcmd => ?_⟩
  · rw [if_neg hsum]
    exact conclude_err v HostError.noConfusion
  · rw [if_pos hsum, frameResult, if_neg hcmd]
    exact conclude_err v HostError.noConfusion
  · rw [if_pos hsum, frameResult, if_pos hcmd]
    have shaped {op r} (hop : s.arb.op = op) (hshape : shape op (.ok (.frame s.dec.frame)) = .ok r) :
        conclude (.ok (.frame s.dec.frame)) v = .next (ended r v) :=
      conclude_of_shape (hop ▸ hshape)
    refine ⟨fun hop => shaped hop rfl, fun hop => shaped hop rfl, fun x hop hparams => ?_,
      fun lo hi hop hparams => ?_, fun size hop hcount => ?_, ?_⟩
    · exact conclude_readReg_of_raw hop (congrArg (rawOf .one) hparams)
    · exact conclude_readReg_of_raw hop (congrArg (rawOf .two) hparams)
    · exact conclude_readReg_of_mismatch hop (rawOf_of_length_ne hcount)
    · rintro (hop | hop | hop | hop | hop) <;> exact shaped hop rfl

/-! ## A whole read -/

/-- The state after a frame of R60 with a right checksum has been pulled from `IDLE`: its fields are in the decoder
registers, and `rest` is unread. -/
def framePulled (pad : Nat) (id len err : Byte) (params : List Byte) (rest : List RxEvent) (s : State) : State :=
  { s with
    dec   := { state := .idle, id := id, length := len, cmd := err, params := params,
               sum := BitVec.ofNat 8 (byteSum ([id, len, err] ++ params) % 256) }
    ports := { s.ports with rx := rest, pulls := s.ports.pulls + (6 + pad + params.length) } }

/-- A serialised host pulls a good frame whole, one byte a step, and its checksum byte concludes the read (R124). -/
theorem steps_goodStatus {pad : Nat} {id len err : Byte} {params : List Byte} {rest : List RxEvent} {s : State}
    (hser : s.Serial) (hawait : s.arb.phase = .await) (hd : s.dec.state = .idle) (hid : id ≠ 0xFF#8)
    (hlen : params.length = len.toNat - 2)
    (hrx : s.ports.rx = (goodStatus pad id len err params).map .byte ++ rest) :
    steps (6 + pad + params.length) s =
      conclude (frameResult (framePulled pad id len err params rest s).dec)
        (framePulled pad id len err params rest s) := by
  have hquiet : ∀ st ∈ (decBytes (statusBody pad id len err params) s.dec).1, st = .notDone := by
    rw [decBytes_statusBody hd hid hlen]
    exact fun _ => List.eq_of_mem_replicate
  have hcount : (statusBody pad id len err params).length + 1 = 6 + pad + params.length := by
    rw [length_statusBody]; omega
  have hpulls : s.ports.pulls + (5 + pad + params.length) + 1 = s.ports.pulls + (6 + pad + params.length) := by omega
  rw [goodStatus, statusBytes_eq, List.map_append, List.append_assoc] at hrx
  rw [← hcount, steps_of_notDone 1 _ hser hawait hrx hquiet, steps_one,
    step_of_await (s := consumed _ _ s) hser hawait, consumed_statusBody _ hd hid hlen,
    receiveStep_of_checksumByte rfl rfl (by simp only; omega), hpulls, if_pos]
  · rfl
  · simp only [BitVec.toNat_ofNat]; omega

/-- The result of a `read` from the frame pulled: its parameters, or the device's fault (R142, R124). -/
theorem shape_read_frameResult (d : DecRegs) :
    shape .read (frameResult d) =
      .ok (if d.cmd = 0#8 then .ok (.bytes d.params) else .err (.deviceFault d.cmd)) := by
  unfold frameResult
  split
  · rfl
  · rfl

/-- Settles O43: the acceptance emits and awaits with nothing pulled, and the answer is then pulled whole
(`steps_goodStatus`). -/
theorem readTransactionReturnsParameters : Obligations.ReadTransactionReturnsParameters := by
  intro s id offset length rid len err pad params rest hser hs hid hrid hlen hrx
  have hpulled := steps_goodStatus (s := awaiting (sent .read id 0x02#8 [offset, length] s)) hser rfl rfl hrid hlen hrx
  have hread := hpulled.trans (conclude_of_shape (shape_read_frameResult _))
  exact ⟨_, _, exec_read hs hid, hread, rfl, rfl, rfl, rfl, rfl, rfl, rfl⟩

end Sys2Proof.Machine

/-! SUPPORT. The statements on the register codec (44_register_codec.md): what the conversions and the range check
answer, that the conversions invert each other, and their ranges. -/

namespace Sys2Proof.Machine

/-! ## Answers of a partial conversion -/

section
variable {α : Type} {x : Option α} {s : State}

theorem answerOr_map_of_some {why : Refusal} {f : α → Payload} {a : α} (h : x = some a) :
    answerOr why (x.map f) s = .next (delivered (.ok (f a)) s) := by
  rw [h]; rfl

theorem answerOr_map_of_none {why : Refusal} {f : α → Payload} (h : x = none) :
    answerOr why (x.map f) s = .refused why := by
  rw [h]; rfl

theorem answer_literalResult_of_none {text : Text} {f : α → Int} (h : x = none) :
    answer (literalResult text (x.map f)) s = .next (delivered (.err (.malformedLiteral text)) s) := by
  rw [h]; rfl

end

/-! ## Raw to value -/

/-- Settles O48: the formulas are those of the model, where a raw value enters as an integer. -/
theorem numericRawToValue : Obligations.NumericRawToValue :=
  fun _ _ => ⟨rfl, rfl, rfl, rfl, rfl, rfl⟩

/-- Settles O49: the masks of Load and Alarm are bits of the raw value (`loadOf_eq`, `alarmOf_of_le`), and each table
has no value beyond its last row. -/
theorem tableRawToValue : Obligations.TableRawToValue := by
  intro raw s
  refine ⟨?_, rfl, rfl, fun h => answerOr_map_of_none (onOffOf_of_gt h), rfl, rfl, rfl,
    fun h => answerOr_map_of_none (returnLevelOf_of_gt h), fun h => answerOr_map_of_some (alarmOf_of_le h),
    fun h => answerOr_map_of_none (alarmOf_of_gt h)⟩
  rw [← loadOf_eq]
  rfl

/-! ## Value to raw -/

/-- Settles O50: the rounding of R161 is the floor after adding one half, and only BaudRate looks at its domain. -/
theorem numericValueToRaw : Obligations.NumericValueToRaw :=
  fun _ _ => ⟨fun h => if_pos h, fun h => if_neg h.not_gt, rfl, rfl, rfl, rfl, rfl⟩

/-- Settles O51: the bitwise or of masks that share no bit is their sum (`loadRaw_eq`, `alarmRaw_eq`). -/
theorem tableValueToRaw : Obligations.TableValueToRaw := by
  intro v e s
  refine ⟨fun h => ?_, fun h => if_neg h.not_ge, rfl, rfl, rfl, rfl, rfl, ?_⟩
  · rw [← loadRaw_eq h]
    exact if_pos h
  · rw [← alarmRaw_eq]
    rfl

/-! ## Strings -/

/-- Settles O52: the display function stands on the value of O48 and O49, and every name of a set is spelled in its
text (`text_isInfix_showAlarm`). -/
theorem displayOfValue : Obligations.DisplayOfValue := by
  intro raw s
  refine ⟨rfl, rfl, rfl, rfl, rfl, rfl, ?_, fun h => answerOr_map_of_some (alarmOf_of_le h),
    fun h => answerOr_map_of_none (alarmOf_of_gt h), fun _ _ => text_isInfix_showAlarm⟩
  rw [← loadOf_eq]
  rfl

theorem readOnOff_of_ne {t : Text} (hoff : t ≠ onOffText .off) (hon : t ≠ onOffText .on) : readOnOff t = none := by
  rw [readOnOff, if_neg hoff, if_neg hon]

theorem readReturnLevel_of_ne {t : Text} (hnone : t ≠ returnLevelText .none) (hread : t ≠ returnLevelText .read)
    (hall : t ≠ returnLevelText .all) : readReturnLevel t = none := by
  rw [readReturnLevel, if_neg hnone, if_neg hread, if_neg hall]

/-- Settles O53: the rows of the tables are read off; outside them neither direction has an answer. -/
theorem lookupStrings : Obligations.LookupStrings :=
  fun _ _ _ => ⟨rfl, rfl, fun h => answerOr_map_of_none (onOffOf_of_gt h), rfl, rfl, rfl,
    fun h => answerOr_map_of_none (returnLevelOf_of_gt h), rfl, rfl,
    fun hoff hon => answer_literalResult_of_none (readOnOff_of_ne hoff hon), rfl, rfl, rfl,
    fun hnone hread hall => answer_literalResult_of_none (readReturnLevel_of_ne hnone hread hall)⟩

/-- Settles O54: a parsed Load lies in its domain, so that its raw value is a sum as in O51; the names of a set stand in
a text read as it (`text_isInfix_of_readAlarm`). -/
theorem parsedLiteralToRaw : Obligations.ParsedLiteralToRaw := by
  intro text s numeric
  have hload (v : { v : LoadValue // v.magnitude ≤ 1023 }) := loadRaw_eq v.property
  refine ⟨rfl, rfl, rfl, rfl, rfl, rfl, ?_, ?_, fun _ hr _ => text_isInfix_of_readAlarm hr⟩
  · simp only [← hload]
    rfl
  · simp only [← alarmRaw_eq]
    rfl

/-! ## The range check -/

/-- Settles O55: `rangeError` gives an error exactly outside the declared bounds. -/
theorem checkRangeRaisesIffOutside : Obligations.CheckRangeRaisesIffOutside := by
  intro reg raw s
  refine ⟨fun lo hi hlo hhi hout => ?_, fun hin => ?_⟩
  · have hbounds : ¬ InBounds reg raw := fun h => by
      have := h lo hi hlo hhi
      omega
    obtain ⟨e, hfor, he⟩ := rangeError_of_not_inBounds hbounds
    refine ⟨e, hfor, ?_⟩
    simp only [exec, execCheckRange, he, answer, deliver_eq_delivered]
  · simp only [exec, execCheckRange, rangeError_of_inBounds hin, answer, deliver_eq_delivered]

/-! ## The round trip -/

theorem angleRaw_angleOf (raw : Int) : angleRaw (angleOf raw) = raw :=
  roundHalfUp_of_int (by unfold angleOf; field_simp)

theorem angularVelocityRaw_angularVelocityOf (raw : Int) : angularVelocityRaw (angularVelocityOf raw) = raw :=
  roundHalfUp_of_int (by unfold angularVelocityOf; field_simp)

theorem voltageRaw_voltageOf (raw : Int) : voltageRaw (voltageOf raw) = raw :=
  roundHalfUp_of_int (div_mul_cancel₀ _ (by norm_num))

theorem rdtRaw_rdtOf (raw : Int) : rdtRaw (rdtOf raw) = raw :=
  roundHalfUp_of_int (mul_div_cancel_right₀ _ two_ne_zero)

theorem temperatureRaw_temperatureOf (raw : Int) : temperatureRaw (temperatureOf raw) = raw :=
  roundHalfUp_of_int rfl

theorem baudRateRaw_baudRateOf (raw : Nat) : baudRateRaw (baudRateOf raw) = raw :=
  roundHalfUp_of_int (by
    have hpos : (raw : Rat) + 1 ≠ 0 := by positivity
    rw [baudRateOf, div_div_cancel₀ (by norm_num), add_sub_cancel_right, Int.cast_natCast])

/-- Within bits 0 to 10 a raw Load is its sign bit and its magnitude (R176, R177). -/
theorem loadRaw_loadOf {raw : Nat} (h : raw ≤ 0x7FF) : loadRaw (loadOf raw) = raw := by
  rw [loadOf_eq, loadRaw_eq (by simp only; omega)]
  simp only [Nat.testBit_eq_decide_div_mod_eq, decide_eq_true_eq]
  split <;> omega

theorem onOffRaw_onOffOf {raw : Nat} (h : raw < 2) : (onOffOf raw).map onOffRaw = some raw := by
  interval_cases raw <;> rfl

theorem returnLevelRaw_returnLevelOf {raw : Nat} (h : raw < 3) :
    (returnLevelOf raw).map returnLevelRaw = some raw := by
  interval_cases raw <;> rfl

/-- Up to 255 a raw Alarm is the byte of the set of its names (R182, R183). -/
theorem alarmRaw_alarmOf {raw : Nat} (h : raw ≤ 255) : (alarmOf raw).map alarmRaw = some raw := by
  have hlt : raw % 2 ^ 8 = raw := Nat.mod_eq_of_lt (by omega)
  rw [alarmOf, if_pos h, Option.map_some, alarmRaw, errByteOf_errBitsOf, BitVec.toNat_ofNat, hlt]

/-- Settles O56: for the numeric types the inverse formula gives an integer, which rounding leaves as it is; the four
tables and masks invert one by one. -/
theorem codecRoundTripIsExact : Obligations.CodecRoundTripIsExact :=
  ⟨fun r => ⟨baudRateRaw_baudRateOf r, rdtRaw_rdtOf r, angleRaw_angleOf r, voltageRaw_voltageOf r,
    temperatureRaw_temperatureOf r, angularVelocityRaw_angularVelocityOf r⟩,
   fun _ => loadRaw_loadOf, fun _ => onOffRaw_onOffOf, fun _ => returnLevelRaw_returnLevelOf,
   fun _ => alarmRaw_alarmOf⟩

/-! ## Monotonicity and ranges -/

/-- A conversion that multiplies and divides by positive constants increases. -/
theorem strictMono_cast_mul_div {n d : Rat} (hn : 0 < n) (hd : 0 < d) :
    StrictMono fun raw : Int => (raw : Rat) * n / d := fun _ _ hlt =>
  div_lt_div_of_pos_right (mul_lt_mul_of_pos_right (Int.cast_lt.mpr hlt) hn) hd

theorem strictMono_rdtOf : StrictMono rdtOf := Int.cast_strictMono.mul_const two_pos

theorem strictMono_angleOf : StrictMono angleOf := strictMono_cast_mul_div (by norm_num) (by norm_num)

theorem strictMono_voltageOf : StrictMono voltageOf := fun _ _ hlt =>
  div_lt_div_of_pos_right (Int.cast_lt.mpr hlt) (by norm_num)

theorem strictMono_temperatureOf : StrictMono temperatureOf := Int.cast_strictMono

theorem strictMono_angularVelocityOf : StrictMono angularVelocityOf :=
  strictMono_cast_mul_div (by norm_num) (by norm_num)

theorem strictAnti_baudRateOf : StrictAnti baudRateOf := fun a b hlt => by
  have hcast : (a : Rat) < b := Nat.cast_lt.mpr hlt
  unfold baudRateOf
  gcongr

/-- An increasing conversion takes the raw values up to `n` between its values at 0 and at `n`. -/
theorem bounds_of_strictMono {f : Int → Rat} (hf : StrictMono f) {r n : Nat} (hr : r ≤ n) {lo hi : Rat}
    (hlo : f 0 = lo) (hhi : f n = hi) : lo ≤ f r ∧ f r ≤ hi :=
  ⟨hlo ▸ hf.monotone (Int.natCast_nonneg r), hhi ▸ hf.monotone (Int.ofNat_le.mpr hr)⟩

theorem angleOf_bounds {r : Nat} (hr : r ≤ 1023) : 0 ≤ angleOf r ∧ angleOf r ≤ 300 :=
  bounds_of_strictMono strictMono_angleOf hr (by norm_num [angleOf]) (by norm_num [angleOf])

theorem angularVelocityOf_bounds {r : Nat} (hr : r ≤ 1023) : 0 ≤ angularVelocityOf r ∧ angularVelocityOf r ≤ 114 :=
  bounds_of_strictMono strictMono_angularVelocityOf hr (by norm_num [angularVelocityOf])
    (by norm_num [angularVelocityOf])

theorem voltageOf_bounds {r : Nat} (hr : r ≤ 255) : 0 ≤ voltageOf r ∧ voltageOf r ≤ 51 / 2 :=
  bounds_of_strictMono strictMono_voltageOf hr (by norm_num [voltageOf]) (by norm_num [voltageOf])

theorem rdtOf_bounds {r : Nat} (hr : r ≤ 255) : 0 ≤ rdtOf r ∧ rdtOf r ≤ 510 :=
  bounds_of_strictMono strictMono_rdtOf hr (by norm_num [rdtOf]) (by norm_num [rdtOf])

theorem temperatureOf_bounds {r : Nat} (hr : r ≤ 255) : 0 ≤ temperatureOf r ∧ temperatureOf r ≤ 255 :=
  bounds_of_strictMono strictMono_temperatureOf hr (by norm_num [temperatureOf]) (by norm_num [temperatureOf])

theorem baudRateOf_bounds {r : Nat} (hr : r ≤ 255) : 15625 / 2 ≤ baudRateOf r ∧ baudRateOf r ≤ 2000000 := by
  have hlo : baudRateOf 255 = 15625 / 2 := by norm_num [baudRateOf]
  have hhi : baudRateOf 0 = 2000000 := by norm_num [baudRateOf]
  exact ⟨hlo ▸ strictAnti_baudRateOf.antitone hr, hhi ▸ strictAnti_baudRateOf.antitone (Nat.zero_le r)⟩

/-- Settles O57: each conversion is monotone, so its values lie between those at the two ends of the raw range. -/
theorem numericConversionsAreMonotone : Obligations.NumericConversionsAreMonotone := by
  refine ⟨fun a b hlt => ?_, fun r hr => ?_, fun r hr => ?_⟩
  · have hint : (a : Int) < b := Int.ofNat_lt.mpr hlt
    exact ⟨strictMono_rdtOf hint, strictMono_angleOf hint, strictMono_voltageOf hint, strictMono_temperatureOf hint,
      strictMono_angularVelocityOf hint, strictAnti_baudRateOf hlt⟩
  · obtain ⟨hlo, hhi⟩ := angleOf_bounds hr
    exact ⟨hlo, hhi, angularVelocityOf_bounds hr⟩
  · obtain ⟨hbaudLo, hbaudHi⟩ := baudRateOf_bounds hr
    obtain ⟨hvoltLo, hvoltHi⟩ := voltageOf_bounds hr
    obtain ⟨hrdtLo, hrdtHi⟩ := rdtOf_bounds hr
    exact ⟨hbaudLo, hbaudHi, hvoltLo, hvoltHi, hrdtLo, hrdtHi, temperatureOf_bounds hr⟩

end Sys2Proof.Machine

/-! SUPPORT. The statements on the sync-write encoder (45_sync_write.md): the frame as an operation, the emission of a
valid sync write, and the check at which a failing one ends. -/

namespace Sys2Proof.Machine

/-! ## The frame as an operation -/

theorem length_syncParams (start bytesPer : Byte) (blocks : List (Byte × List Byte)) :
    (syncParams start bytesPer blocks).length = 2 + (blocks.map fun b => b.2.length + 1).sum := by
  simp only [syncParams, List.length_cons, List.length_flatMap]
  omega

/-- Settles O45: BROADCAST is a legal destination, so the frame sends as soon as its parameters have room. -/
theorem syncWriteFrameSends : Obligations.SyncWriteFrameSends := by
  intro start bytesPer blocks s hs hlen
  have hroom := (length_syncParams start bytesPer blocks).trans_le hlen
  exact accept_sendThen_of_valid (k := reportDone) hs (by decide) hroom

/-! ## The checks of a sync write, in their order (R200) -/

section
variable {ids : List Byte} {run : List RegDesc} {values : List (List Int)} {s : State}

theorem syncShape_of_empty (h : ids = [] ∨ run = []) : syncShape ids run values = some .emptySyncWrite :=
  if_pos h

theorem syncShape_of_mismatch (hids : ids ≠ []) (hrun : run ≠ [])
    (h : values.length ≠ ids.length ∨ ∃ vs ∈ values, vs.length ≠ run.length) :
    syncShape ids run values = some .shapeMismatch := by
  rw [syncShape, if_neg (not_or.mpr ⟨hids, hrun⟩), if_pos h]

theorem syncShape_of_reserved_id (hids : ids ≠ []) (hrun : run ≠ []) (hlen : values.length = ids.length)
    (hlens : ∀ vs ∈ values, vs.length = run.length) (h : ∃ id ∈ ids, id = 0xFE#8 ∨ id = 0xFF#8) :
    syncShape ids run values = some .invalidId := by
  have hmatch : ¬ (values.length ≠ ids.length ∨ ∃ vs ∈ values, vs.length ≠ run.length) := by
    push Not
    exact ⟨hlen, hlens⟩
  rw [syncShape, if_neg (not_or.mpr ⟨hids, hrun⟩), if_neg hmatch]
  exact if_pos h

theorem exec_syncWrite_of_bad_shape {r : Refusal} (hs : s.arb.phase = .idle)
    (h : syncShape ids run values = some r) : exec (.syncWrite ids run values) s = .refused r := by
  rw [exec, execSyncWrite, accept_of_idle hs, h]

theorem exec_syncWrite_of_shape (hs : s.arb.phase = .idle) (h : SyncShape ids run values) :
    exec (.syncWrite ids run values) s =
      syncEncode ids run values { s with arb := { s.arb with op := .syncWrite } } := by
  rw [exec, execSyncWrite, accept_of_idle hs, syncShape_of_shape h]

theorem syncEncode_of_gap {j : Nat} (h : runGap run = some j) :
    syncEncode ids run values s = .next (raise (.nonContiguousRun j) s) := by
  rw [syncEncode, h]

theorem syncEncode_of_long (hrun : Contiguous run) (hsize : 253 < syncSize ids run) :
    syncEncode ids run values s = .next (raise .tooMuchData s) := by
  rw [syncEncode, runGap_eq_none.mpr hrun]
  exact if_pos hsize

/-! Past the run and the size, the lanes decide (R202). -/

theorem syncEncode_of_error {e : HostError} (hrun : Contiguous run) (hsize : syncSize ids run ≤ 253)
    (h : laneBlocks run ids values = .error (.err e)) : syncEncode ids run values s = .next (raise e s) := by
  rw [syncEncode, runGap_eq_none.mpr hrun, h]
  exact if_neg hsize.not_gt

theorem syncEncode_of_refusal {r : Refusal} (hrun : Contiguous run) (hsize : syncSize ids run ≤ 253)
    (h : laneBlocks run ids values = .error (.refuse r)) : syncEncode ids run values s = .refused r := by
  rw [syncEncode, runGap_eq_none.mpr hrun, h]
  exact if_neg hsize.not_gt

theorem syncEncode_of_blocks {blocks : List (Byte × List Byte)} (hrun : Contiguous run)
    (hsize : syncSize ids run ≤ 253) (h : laneBlocks run ids values = .ok blocks) :
    syncEncode ids run values s =
      sendThen 0xFE#8 0x83#8 (syncParams (runStart run) (BitVec.ofNat 8 (runBytes run)) blocks) reportDone s := by
  rw [syncEncode, runGap_eq_none.mpr hrun, h]
  exact if_neg hsize.not_gt

/-! ## The operation -/

theorem exec_syncWrite_of_raise {e : HostError} (hs : s.arb.phase = .idle) (hshape : SyncShape ids run values)
    (h : ∀ u, syncEncode ids run values u = .next (raise e u)) :
    exec (.syncWrite ids run values) s =
      .next (delivered (.err e) { s with arb := { s.arb with op := .syncWrite } }) := by
  rw [exec_syncWrite_of_shape hs hshape, h, raise_accepted hs]

/-- Good values make the parameters of the claims, `syncSize` in number, and they are sent to BROADCAST (R204, R67). -/
theorem exec_syncWrite_of_good (hs : s.arb.phase = .idle) (hshape : SyncShape ids run values)
    (hrun : Contiguous run) (hsize : syncSize ids run ≤ 253) (hgood : ∀ vs ∈ values, GoodFields (run.zip vs)) :
    exec (.syncWrite ids run values) s =
      .next (delivered (.ok .unit) (sent .syncWrite 0xFE#8 0x83#8 (syncWriteParams ids run values) s)) := by
  have hlen : (syncWriteParams ids run values).length ≤ 253 := (length_syncWriteParams hshape).trans_le hsize
  rw [exec_syncWrite_of_shape hs hshape, syncEncode_of_blocks hrun hsize (laneBlocks_of_good hgood), syncParams_eq,
    sendThen_of_valid (by decide) hlen, transmit_eq_sent]
  rfl

/-- A run with a gap ends the operation at the first register that leaves one (R201). -/
theorem exec_syncWrite_of_not_contiguous (hs : s.arb.phase = .idle) (hshape : SyncShape ids run values)
    (hrun : ¬ Contiguous run) :
    ∃ j, ∃ h : j + 1 < run.length,
      run[j + 1].offset.toNat ≠ run[j].offset.toNat + run[j].size.bytes ∧ Contiguous (run.take (j + 1)) ∧
      exec (.syncWrite ids run values) s =
        .next (delivered (.err (.nonContiguousRun (j + 1))) { s with arb := { s.arb with op := .syncWrite } }) := by
  obtain ⟨i, hi⟩ := Option.ne_none_iff_exists'.mp fun h => hrun (runGap_eq_none.mp h)
  obtain ⟨j, rfl, hj, hgap, hbefore⟩ := runGap_eq_some hi
  exact ⟨j, hj, hgap, hbefore, exec_syncWrite_of_raise hs hshape fun _ => syncEncode_of_gap hi⟩

end

/-- Settles O46: every check passes, so the encoder sends the lanes. -/
theorem syncWriteEmitsOneFrame : Obligations.SyncWriteEmitsOneFrame :=
  fun _ _ _ _ => exec_syncWrite_of_good

/-- Settles O47: one clause for each check in the order of R200; the encoding of the values ends at the first bad one
(`laneBlocks_of_bad`), with what that value's own check says. -/
theorem syncWriteRejectsInOrder : Obligations.SyncWriteRejectsInOrder := by
  intro ids run values s hs u
  refine ⟨fun hempty => exec_syncWrite_of_bad_shape hs (syncShape_of_empty hempty),
    fun hids hrun h => exec_syncWrite_of_bad_shape hs (syncShape_of_mismatch hids hrun h),
    fun hids hrun hlen hlens h => exec_syncWrite_of_bad_shape hs (syncShape_of_reserved_id hids hrun hlen hlens h),
    exec_syncWrite_of_not_contiguous hs,
    fun hshape hrun hsize => exec_syncWrite_of_raise hs hshape fun _ => syncEncode_of_long hrun hsize, ?_⟩
  intro hshape hrun hsize before after field hfields hbefore
  have ⟨_, _, hlen, _⟩ := hshape
  have ends {e : Halt} (he : valueBytes field.1 field.2 = .error e) : laneBlocks run ids values = .error e :=
    laneBlocks_of_bad hlen hfields hbefore he
  constructor
  · intro hbounds
    obtain ⟨e, hfor, he⟩ := valueBytes_of_not_inBounds hbounds
    exact ⟨e, hfor, exec_syncWrite_of_raise hs hshape fun _ => syncEncode_of_error hrun hsize (ends he)⟩
  · intro hbounds hfits
    have he := valueBytes_of_not_fits hbounds hfits
    rw [exec_syncWrite_of_shape hs hshape, syncEncode_of_refusal hrun hsize (ends he)]

end Sys2Proof.Machine

/-! SUPPORT. The statements on errors (60_exceptions.md): an error is the result of an operation and leaves the block
ready for the next one. -/

namespace Sys2Proof.Machine

/-! ## What a step of a serialised host delivers -/

/-- Every next state under a serialised host: the block waited, or the host moved in `T_IDLE`, or a pull was answered in
`T_AWAIT` (R29). -/
theorem step_next_of_serial {s t : State} (hser : s.Serial) (h : step s = .next t) :
    t = s ∨
    (s.arb.phase = .idle ∧ ∃ rest, Moved { s with ports := { s.ports with hc := rest } } t) ∨
    (s.arb.phase = .await ∧ ReadStep s t) := by
  cases hp : s.arb.phase with
  | await => exact .inr (.inr ⟨rfl, receiveStep_next hp (step_of_await hser hp ▸ h)⟩)
  | idle =>
    rcases step_next h with ht | ⟨-, hmoved⟩ | ⟨-, hawait, -⟩
    · exact .inl (ht.trans (takeTurn_of_serial hser))
    · rw [takeTurn_of_serial hser] at hmoved
      exact .inr (.inl ⟨rfl, hmoved⟩)
    · exact absurd hawait (phase_ne_await_of_idle hp)

/-- What a move in `T_IDLE` delivers: nothing, one payload, or one error, with which the operation has named itself in
`arb.op` and done nothing else (R222). -/
theorem Moved.hr_of_idle {s t : State} (h : Moved s t) (hidle : s.arb.phase = .idle) :
    t.ports.hr = s.ports.hr ∨ (∃ p, t.ports.hr = s.ports.hr ++ [.ok p]) ∨
      ∃ e op, t = delivered (.err e) { s with arb := { s.arb with op := op } } := by
  cases h with
  | answered r h =>
    cases r with
    | ok p => exact .inr (.inl ⟨p, h ▸ rfl⟩)
    | err e => exact .inr (.inr ⟨e, s.arb.op, h⟩)
  | rejected op e hs he h => exact .inr (.inr ⟨e, op, h⟩)
  | sentOnly op id command params hs hid hlen h => exact .inr (.inl ⟨.unit, h ▸ rfl⟩)
  | sentAwaiting op id command params hs hop hid hlen h => exact .inl (h ▸ rfl)
  | readStarted hs h => exact .inl (h ▸ rfl)
  | decoder d r hs hd h => exact .inr (.inl ⟨r, h ▸ rfl⟩)
  | arrived bs h =>
    rcases h with rfl | ⟨hawait, -⟩
    · exact .inl rfl
    · exact absurd hawait (phase_ne_await_of_idle hidle)

/-- An error that ends a read is one of the bus, and the block is back in `T_IDLE` (R124, R222). -/
theorem ReadStep.of_hr_err {s t : State} {e : HostError} (h : ReadStep s t)
    (herr : t.ports.hr = s.ports.hr ++ [.err e]) : t.arb.phase = .idle ∧ e.hostSide = false := by
  rcases h.ends with ⟨-, hhr⟩ | ⟨hidle, r, hhr, hbus⟩
  · exact absurd (herr.symm.trans hhr) (by simp)
  · exact ⟨hidle, hbus e (by simpa [herr] using hhr.symm)⟩

/-! ## Errors -/

/-- Settles O7: in `T_IDLE` an error is delivered alone (`Moved.hr_of_idle`); in `T_AWAIT` it ends the read, which sends
nothing, and is no error of the host side. -/
theorem errorsLeaveTheBlockReady : Obligations.ErrorsLeaveTheBlockReady := by
  intro s t hser h
  rcases step_next_of_serial hser h with rfl | ⟨hidle, rest, hmoved⟩ | ⟨-, hread⟩
  · exact ⟨.inl rfl, fun e herr => absurd herr (by simp)⟩
  · rcases hmoved.hr_of_idle hidle with hhr | ⟨p, hhr⟩ | ⟨e, op, rfl⟩
    · exact ⟨.inl hhr, fun e herr => absurd (herr.symm.trans hhr) (by simp)⟩
    · exact ⟨.inr ⟨.ok p, hhr⟩, fun e herr => absurd (herr.symm.trans hhr) (by simp)⟩
    · exact ⟨.inr ⟨.err e, rfl⟩, fun _ _ => ⟨hidle, rfl, rfl, fun _ => ⟨rfl, rfl⟩⟩⟩
  · refine ⟨?_, fun e herr => ?_⟩
    · rcases hread.ends with ⟨-, hhr⟩ | ⟨-, r, hhr, -⟩
      · exact .inl hhr
      · exact .inr ⟨r, hhr⟩
    · obtain ⟨hidle, hbus⟩ := hread.of_hr_err herr
      exact ⟨hidle, hread.tx, hread.ports_tx, fun hhost => absurd hhost (by simp [hbus])⟩

/-- Settles O42: `NoByte` concludes the read with `Timeout` before the decoder sees anything, and `shape_err` says what
each operation makes of it. -/
theorem noByteIsTimeoutOrFalse : Obligations.NoByteIsTimeoutOrFalse := by
  intro s rest hser hawait hrx
  rw [step_of_await hser hawait, receiveStep_of_noByte hrx]
  exact conclude_of_shape (by simp [shape_err])

end Sys2Proof.Machine

/-! SUPPORT. The statement on the hazards of the receive side (70_reset_and_hazards.md): a reply that nobody read is
taken for the reply of the next operation. -/

namespace Sys2Proof.Machine

/-- An action sends its frame and awaits nothing, so a reply to it stays unread (R148). -/
theorem exec_action {id : Byte} {s : State} (hs : s.arb.phase = .idle) (hid : id ≠ 0xFF#8) :
    exec (.action id) s = .next (delivered (.ok .unit) (sent .action id 0x05#8 [] s)) :=
  accept_sendThen_of_valid hs hid (Nat.zero_le 253)

/-- Outside a transaction the bytes of a frame wait unread (R25, R215). -/
theorem exec_frameStatus_of_idle {pad : Nat} {id len err : Byte} {params : List Byte} {c : Byte} {s : State}
    (hs : s.arb.phase = .idle) :
    exec (.frameStatus pad id len err params c) s = .next (arrive (statusBytes pad id len err params c) s) :=
  receiveSome_of_idle hs

/-- A frame without an error is the answer of a device that is there, whatever its id (R141). -/
theorem shape_ping_frameResult {d : DecRegs} (h : d.cmd = 0#8) :
    shape .ping (frameResult d) = .ok (.ok (.bool true)) := by
  rw [frameResult, if_pos h]
  rfl

/-- A ping takes the good frame it finds unread for its reply: nothing is flushed at its start (R251), and the frame's
id is not compared with the one pinged (R56). -/
theorem steps_ping_of_unread_goodStatus {pad : Nat} {other rid len : Byte} {params : List Byte}
    {rest : List RxEvent} {s : State} (hrx : s.ports.rx = (goodStatus pad rid len 0#8 params).map .byte ++ rest)
    (hser : s.Serial) (hrid : rid ≠ 0xFF#8) (hlen : params.length = len.toNat - 2) :
    steps (6 + pad + params.length) (awaiting (sent .ping other 0x01#8 [] s)) =
      .next (ended (.ok (.bool true))
        (framePulled pad rid len 0#8 params rest (awaiting (sent .ping other 0x01#8 [] s)))) :=
  (steps_goodStatus (s := awaiting (sent .ping other 0x01#8 [] s)) hser rfl rfl hrid hlen hrx).trans
    (conclude_of_shape (shape_ping_frameResult rfl))

/-- Settles O44: the action leaves the block idle, its reply waits unread, and the ping pulls it whole
(`steps_ping_of_unread_goodStatus`). -/
theorem staleReplyAnswersNextPing : Obligations.StaleReplyAnswersNextPing := by
  intro s id other hser hs hrx hid hother
  have hunread : (arrive (goodStatus 0 id 2#8 0#8 []) (delivered (.ok .unit) (sent .action id 0x05#8 [] s))).ports.rx =
      (goodStatus 0 id 2#8 0#8 []).map .byte ++ [] := by
    rw [arrive_rx, List.append_nil]
    exact congrArg (· ++ _) hrx
  exact ⟨_, _, _, _, exec_action hs hid, exec_frameStatus_of_idle hs, exec_ping hs hother,
    steps_ping_of_unread_goodStatus hunread hser hid rfl, List.append_assoc _ _ _, rfl⟩

end Sys2Proof.Machine
